-- ==== Sys2Proof/Word.lean ====
section
/-! DEFINITION. The machine's data widths: the program byte and the stack word (spec/10_state.md R26, R29). -/

namespace Sys2Proof

/-- One byte of the program space (R34: unit byte, 8 bits). -/
abbrev Byte := BitVec 8

/-- One word of the stack space: a 64-bit pattern that R29 reads as IEEE 754 binary64. -/
abbrev Word := BitVec 64

end Sys2Proof
end

