-- ==== Sys2Proof/Config.lean ====
section
/-! DEFINITION. The implementation parameters of spec/00_scope.md R6, as plain data, and the one value the
spec leaves free (the stack's contents at power on). Their default values are in Decode.lean. -/

namespace Sys2Proof

/-- The 28 mnemonics, in the order of the R61 table: the domain of `OPCODE_MAP`. -/
inductive Mnemonic where
  | nop | int | num | arr
  | set | get | inc | dec | dup | pop | rot
  | jmp | jeq | jne | jls | jle
  | add | sub | mul | div | mod
  | not | and | bor | xor | lsh | rsh
  | reg
deriving DecidableEq, Repr

/-- `OPCODE_MAP` (R6, R62) as the table of its pairs: an opcode byte and the mnemonic it stands for. -/
abbrev OpcodeMap := List (Byte × Mnemonic)

/-- The three control registers a REG selector can name (R63). -/
inductive ControlReg where
  | ic | pc | sp
deriving DecidableEq, Repr

/-- `REG_SEL_MAP` (R6, R63): the selector byte of each control register. -/
structure RegSelMap where
  ic : Byte
  pc : Byte
  sp : Byte
deriving DecidableEq, Repr

/-- `BITW` (R6): the two legal widths of the unsigned integer domain. -/
inductive BitWidth where
  | w32 | w64
deriving DecidableEq, Repr

/-- `NUM_CONV` (R6, R79): how a decoded unsigned integer becomes a word. -/
inductive NumConv where
  | roundOnce | accumulate
deriving DecidableEq, Repr

/-- The parameters of R6 that are fixed for one CORE and have a default. `PROG_LEN` and `STACK_CAP`, which the
host sets per program and per instance, are fields of `State`. -/
structure Params where
  opcodeMap : OpcodeMap
  regSelMap : RegSelMap
  bitw : BitWidth
  numConv : NumConv
  qnan : Word
deriving DecidableEq, Repr

/-- FREE VALUE (assumption 4): what slot `i` of the stack memory holds before anything has written it. R28, R142
and I10 leave it open ("any value"). It has no body: no claim can rest on what it is. -/
opaque Config.powerOnWord : Nat → Word

end Sys2Proof
end

