-- ==== Sys2Proof/Syntax.lean ====
section
/-! DEFINITION. The instructions: one constructor per row of spec/opcode_table.json, with the inline operands its
format carries (spec/30_encoding.md R58). Operands that are popped from the stack are no part of an instruction. -/

namespace Sys2Proof

/-- One decoded instruction. NUM's `n` is the length of its list of value bytes; ARR's `c` is the number of its
groups (R58, R60). -/
inductive Instr where
  /-- R83: no operation. -/
  | nop
  /-- R84: software interrupt with the code byte `v`. -/
  | int (v : Byte)
  /-- R85: push the big-endian integer of `ds`. -/
  | num (ds : List Byte)
  /-- R86: push the big-endian integer of each group; every group has `w` bytes. -/
  | arr (w : Byte) (groups : List (List Byte))
  /-- R87: indexed store. -/
  | set
  /-- R88: indexed load. -/
  | get
  /-- R89: push n zeros. -/
  | inc
  /-- R90: pop and discard n words. -/
  | dec
  /-- R91: duplicate the top of the stack. -/
  | dup
  /-- R92: discard the top of the stack. -/
  | pop
  /-- R93: swap the two top words. -/
  | rot
  /-- R95: unconditional jump. -/
  | jmp
  /-- R96: jump if equal. -/
  | jeq
  /-- R97: jump if not equal. -/
  | jne
  /-- R98: jump if less. -/
  | jls
  /-- R99: jump if less or equal. -/
  | jle
  /-- R101: addition. -/
  | add
  /-- R102: subtraction. -/
  | sub
  /-- R103: multiplication. -/
  | mul
  /-- R104: division. -/
  | div
  /-- R105: truncated remainder. -/
  | mod
  /-- R111: bitwise complement. -/
  | not
  /-- R112: bitwise and. -/
  | and
  /-- R113: bitwise inclusive or. -/
  | bor
  /-- R114: bitwise exclusive or. -/
  | xor
  /-- R115: logical shift left. -/
  | lsh
  /-- R116: logical shift right. -/
  | rsh
  /-- R117: push the control register that the selector byte `sel` names. -/
  | reg (sel : Byte)
deriving DecidableEq, Repr

end Sys2Proof
end

