-- ==== Sys2Proof/WellFormed.lean ====
section
/-! DEFINITION. Which terms of `Instr` are instructions: the operand sizes that the formats of
spec/30_encoding.md R58 can encode, and the parameter values that spec/00_scope.md R6 allows. -/

namespace Sys2Proof

/-- R58: NUM's length byte and ARR's count byte are single bytes, and each ARR group has exactly `w` bytes. Every
INT operand and every REG selector byte is encodable (R65, R63). -/
def Instr.wellFormed (i : Instr) : Bool :=
  match i with
  | .num ds => decide (ds.length ≤ 255)
  | .arr w groups => decide (groups.length ≤ 255) && groups.all (fun g => g.length == w.toNat)
  | .nop | .int _ | .set | .get | .inc | .dec | .dup | .pop | .rot | .jmp | .jeq | .jne | .jls | .jle
  | .add | .sub | .mul | .div | .mod | .not | .and | .bor | .xor | .lsh | .rsh | .reg _ => true

/-- The check as a proposition. -/
abbrev Instr.WellFormed (i : Instr) : Prop := i.wellFormed = true

/-- The 28 mnemonics in table order (R61). -/
def Mnemonic.all : List Mnemonic :=
  [.nop, .int, .num, .arr, .set, .get, .inc, .dec, .dup, .pop, .rot, .jmp, .jeq, .jne, .jls, .jle,
   .add, .sub, .mul, .div, .mod, .not, .and, .bor, .xor, .lsh, .rsh, .reg]

/-- R62: `OPCODE_MAP` is an injective map from the 28 mnemonics: one pair per mnemonic, no opcode byte twice. -/
abbrev OpcodeMap.WellFormed (m : OpcodeMap) : Prop :=
  (m.map Prod.fst).Nodup ∧ (m.map Prod.snd).Nodup ∧ ∀ o ∈ Mnemonic.all, o ∈ m.map Prod.snd

/-- R6, R63: `REG_SEL_MAP` is injective onto IC, PC and SP. -/
abbrev RegSelMap.WellFormed (r : RegSelMap) : Prop :=
  r.ic ≠ r.pc ∧ r.ic ≠ r.sp ∧ r.pc ≠ r.sp

/-- R29: exponent field all ones (bits 62:52) and a nonzero fraction (bits 51:0). -/
abbrev Word.IsNaN (w : Word) : Prop :=
  w.extractLsb' 52 11 = 0x7FF ∧ w.extractLsb' 0 52 ≠ 0

/-- R6: the legal ranges of the parameters (`BITW` and `NUM_CONV` are legal by their types). -/
abbrev Params.WellFormed (p : Params) : Prop :=
  p.opcodeMap.WellFormed ∧ p.regSelMap.WellFormed ∧ Word.IsNaN p.qnan

end Sys2Proof
end

