-- ==== Sys2Proof/Decode.lean ====
section
/-! DEFINITION. The default parameter values, the decoder and the encoder, all from the tables of
spec/30_encoding.md (R57 to R68). The decoder is total: bytes that are no instruction are rejected by name. -/

namespace Sys2Proof

/-! ### Default parameters -/

/-- The default `OPCODE_MAP` (R61). -/
def OpcodeMap.default : OpcodeMap :=
  [(0x00, .nop), (0x01, .int), (0x02, .num), (0x03, .arr), (0x04, .set), (0x05, .get), (0x06, .inc),
   (0x07, .dec), (0x08, .dup), (0x09, .pop), (0x0A, .rot), (0x0B, .jmp), (0x0C, .jeq), (0x0D, .jne),
   (0x0E, .jls), (0x0F, .jle), (0x10, .add), (0x11, .sub), (0x12, .mul), (0x13, .div), (0x14, .mod),
   (0x15, .not), (0x16, .and), (0x17, .bor), (0x18, .xor), (0x19, .lsh), (0x1A, .rsh), (0x1B, .reg)]

/-- The default `REG_SEL_MAP` (R63): 0x00 IC, 0x01 PC, 0x02 SP. -/
def RegSelMap.default : RegSelMap := { ic := 0x00, pc := 0x01, sp := 0x02 }

/-- The defaults of R6: W = 32, `round_once`, QNAN = 0x7FF8000000000000. -/
def Params.default : Params :=
  { opcodeMap := OpcodeMap.default, regSelMap := RegSelMap.default, bitw := .w32, numConv := .roundOnce,
    qnan := 0x7FF8000000000000 }

/-! ### Looking the maps up -/

/-- The mnemonic of an opcode byte, `none` when the byte is not in the image of the map (R64). -/
def OpcodeMap.mnemonicOf : OpcodeMap → Byte → Option Mnemonic
  | [], _ => none
  | (c, o) :: rest, b => if b = c then some o else mnemonicOf rest b

/-- The opcode byte of a mnemonic; 0 when the map lacks it, which a well-formed map does not (R62). -/
def OpcodeMap.byteOf : OpcodeMap → Mnemonic → Byte
  | [], _ => 0
  | (c, o) :: rest, q => if q = o then c else byteOf rest q

/-- R63: the control register that a selector byte names, `none` for the others. -/
def RegSelMap.regOf (r : RegSelMap) (sel : Byte) : Option ControlReg :=
  if sel = r.ic then some .ic
  else if sel = r.pc then some .pc
  else if sel = r.sp then some .sp
  else none

/-- The mnemonic of an instruction. -/
def Instr.mnemonic : Instr → Mnemonic
  | .nop => .nop
  | .int _ => .int
  | .num _ => .num
  | .arr _ _ => .arr
  | .set => .set
  | .get => .get
  | .inc => .inc
  | .dec => .dec
  | .dup => .dup
  | .pop => .pop
  | .rot => .rot
  | .jmp => .jmp
  | .jeq => .jeq
  | .jne => .jne
  | .jls => .jls
  | .jle => .jle
  | .add => .add
  | .sub => .sub
  | .mul => .mul
  | .div => .div
  | .mod => .mod
  | .not => .not
  | .and => .and
  | .bor => .bor
  | .xor => .xor
  | .lsh => .lsh
  | .rsh => .rsh
  | .reg _ => .reg

/-! ### Decoding -/

/-- Why bytes are not an instruction. -/
inductive DecodeError where
  /-- The bytes end before the instruction does (R59). -/
  | endOfBytes
  /-- The opcode byte is not in the image of `OPCODE_MAP` (R64). -/
  | illegalOpcode (b : Byte)
deriving DecidableEq, Repr

/-- The first `c` groups of `w` bytes (R58, format ARR). -/
def takeGroups (w : Nat) : Nat → List Byte → List (List Byte)
  | 0, _ => []
  | c + 1, bs => bs.take w :: takeGroups w c (bs.drop w)

/-- The operand bytes after the opcode byte, by the format of the mnemonic (R58). -/
def decodeOperands (o : Mnemonic) (bs : List Byte) : Except DecodeError (Instr × List Byte) :=
  match o with
  | .nop => .ok (.nop, bs)
  | .int =>
    match bs with
    | v :: rest => .ok (.int v, rest)
    | [] => .error .endOfBytes
  | .num =>
    match bs with
    | n :: rest =>
      if rest.length < n.toNat then .error .endOfBytes
      else .ok (.num (rest.take n.toNat), rest.drop n.toNat)
    | [] => .error .endOfBytes
  | .arr =>
    match bs with
    | w :: c :: rest =>
      if rest.length < w.toNat * c.toNat then .error .endOfBytes
      else .ok (.arr w (takeGroups w.toNat c.toNat rest), rest.drop (w.toNat * c.toNat))
    | _ => .error .endOfBytes
  | .set => .ok (.set, bs)
  | .get => .ok (.get, bs)
  | .inc => .ok (.inc, bs)
  | .dec => .ok (.dec, bs)
  | .dup => .ok (.dup, bs)
  | .pop => .ok (.pop, bs)
  | .rot => .ok (.rot, bs)
  | .jmp => .ok (.jmp, bs)
  | .jeq => .ok (.jeq, bs)
  | .jne => .ok (.jne, bs)
  | .jls => .ok (.jls, bs)
  | .jle => .ok (.jle, bs)
  | .add => .ok (.add, bs)
  | .sub => .ok (.sub, bs)
  | .mul => .ok (.mul, bs)
  | .div => .ok (.div, bs)
  | .mod => .ok (.mod, bs)
  | .not => .ok (.not, bs)
  | .and => .ok (.and, bs)
  | .bor => .ok (.bor, bs)
  | .xor => .ok (.xor, bs)
  | .lsh => .ok (.lsh, bs)
  | .rsh => .ok (.rsh, bs)
  | .reg =>
    match bs with
    | sel :: rest => .ok (.reg sel, rest)
    | [] => .error .endOfBytes

/-- The first instruction of a byte sequence and the bytes after it (R57 to R68). -/
def decode (m : OpcodeMap) (bs : List Byte) : Except DecodeError (Instr × List Byte) :=
  match bs with
  | [] => .error .endOfBytes
  | b :: rest =>
    match m.mnemonicOf b with
    | none => .error (.illegalOpcode b)
    | some o => decodeOperands o rest

/-- R59: the length in bytes of the instruction whose first three bytes are `b0`, `b1`, `b2`. -/
def instrLength (m : OpcodeMap) (b0 b1 b2 : Byte) : Nat :=
  match m.mnemonicOf b0 with
  | some .int => 2
  | some .reg => 2
  | some .num => 2 + b1.toNat
  | some .arr => 3 + b1.toNat * b2.toNat
  | _ => 1

/-- The length of the longest instruction (R59). -/
def maxInstrLength : Nat := 3 + 255 * 255

/-- The `n` bytes that `rd` gives from index `i` on. -/
def bytesFrom (rd : Nat → Byte) : Nat → Nat → List Byte
  | _, 0 => []
  | i, n + 1 => rd i :: bytesFrom rd (i + 1) n

/-- The instruction at the start of the byte sequence that `rd` indexes: as many bytes as R59 gives it. -/
def decodeFrom (m : OpcodeMap) (rd : Nat → Byte) : Except DecodeError Instr :=
  match decode m (bytesFrom rd 0 (instrLength m (rd 0) (rd 1) (rd 2))) with
  | .ok (i, _) => .ok i
  | .error e => .error e

/-- Byte `k` of an instruction whose bits are `w`, numbered as spec/opcode_table.json numbers them (bit 0 is the
least significant bit of the first byte); `nbits` of them are given and every later bit is 0. -/
def tableByte (nbits w k : Nat) : Byte :=
  if 8 * k < nbits then BitVec.ofNat 8 (w / 2 ^ (8 * k)) else 0

/-- What the decoder reads, under the default map, from an instruction of the opcode table. -/
def decodeTableWord (nbits w : Nat) : Option Instr :=
  match decodeFrom OpcodeMap.default (tableByte nbits w) with
  | .ok i => some i
  | .error _ => none

/-! ### Encoding -/

/-- The operand bytes of an instruction, in fetch order (R58, R60). -/
def Instr.operandBytes : Instr → List Byte
  | .int v => [v]
  | .num ds => BitVec.ofNat 8 ds.length :: ds
  | .arr w groups => w :: BitVec.ofNat 8 groups.length :: groups.flatten
  | .reg sel => [sel]
  | .nop | .set | .get | .inc | .dec | .dup | .pop | .rot | .jmp | .jeq | .jne | .jls | .jle
  | .add | .sub | .mul | .div | .mod | .not | .and | .bor | .xor | .lsh | .rsh => []

/-- The bytes of an instruction (R57, R58). -/
def encode (m : OpcodeMap) (i : Instr) : List Byte :=
  m.byteOf i.mnemonic :: i.operandBytes

/-- The length in bytes of an instruction (R59). -/
def Instr.size : Instr → Nat
  | .int _ => 2
  | .num ds => 2 + ds.length
  | .arr _ groups => 3 + groups.flatten.length
  | .reg _ => 2
  | .nop | .set | .get | .inc | .dec | .dup | .pop | .rot | .jmp | .jeq | .jne | .jls | .jle
  | .add | .sub | .mul | .div | .mod | .not | .and | .bor | .xor | .lsh | .rsh => 1

end Sys2Proof
end

