-- ==== Sys2Proof/Machine/State.lean ====
section
/-! DEFINITION. The machine's state (spec/10_state.md), its stop reasons and its reset value. -/

namespace Sys2Proof.Machine

/-- A memory: the cells that hold something, as (address, content) pairs with strictly rising addresses.
`Machine/Memory.lean` says what an unlisted address reads as. -/
abbrev Memory (α : Type) := List (Nat × α)

/-- What the host has asked for and the CORE has not yet finished (R16, R140): a step or a run is in progress, or
nothing is. -/
inductive Activity where
  /-- Nothing was asked for, or all that was asked for is done. -/
  | idle
  /-- A `host_step` pulse was accepted and its step is not complete. -/
  | stepping
  /-- A `host_run` pulse was accepted and its run goes on while IC is 0. -/
  | running
deriving DecidableEq, Repr

/-- The state of the CORE: R31 says that nothing but IC, PC, SP, PROG and STK lasts from one step to the next.
The two sizes and the parameters are the host's (R6, R16), the activity is what its pulses have started, and no
instruction writes any of them. -/
structure State where
  /-- Interrupt code (R20): 0 is Running, any other value is Halted. -/
  ic : BitVec 16
  /-- Program counter (R22): byte offset of the next byte to fetch. -/
  pc : BitVec 32
  /-- Stack pointer (R24): the number of live words. -/
  sp : BitVec 32
  /-- Program buffer PROG (R26); an unlisted address below `progLen` holds 0x00 (assumption 5). -/
  prog : Memory Byte
  /-- PROG_LEN, driven on `prog_len` (R6, R16). -/
  progLen : BitVec 32
  /-- Stack buffer STK (R27); an unlisted slot has not been written since power on (R28, assumption 4). -/
  stk : Memory Word
  /-- STACK_CAP, driven on `stack_cap` (R6, R16). -/
  stackCap : BitVec 32
  /-- The parameters of R6 that have a default. -/
  params : Params
  /-- The request in progress, which `busy` shows (R16, R153); at a step boundary it is what the next step belongs to. -/
  activity : Activity
deriving DecidableEq, Repr

/-- Why the model stops where the spec gives no next state. Both reasons are accesses to an address that the spec
says does not exist, in a state that breaks the bounds of R33; no run from reset meets them. The faults of
spec/60_exceptions.md are not here: they are next states, with their code in IC (R132). -/
inductive Fault where
  /-- A Fetch with PC beyond PROG_LEN: no byte exists there (R35). Raised by `fetch`. Safe: the model stops. -/
  | programAddress
  /-- A stack access at a slot that is not below STACK_CAP: no word exists there (R34). Raised by `push`, `pop`,
  `readAt` and `writeAt`, and by the host's `pokeStack`. Safe: the model stops. -/
  | stackAddress
deriving DecidableEq, Repr

/-- Why the model refuses. Every instruction has its meaning, so no step refuses. -/
inductive Refusal where
  /-- An instruction without a meaning, by its mnemonic. Raised by no arm of `exec`. Safe. -/
  | notModelled (mnemonic : String)
  /-- A host that loads a program of 2^32 bytes or more, which R6 and I18 leave out. Raised by the host's `load`.
  Safe. -/
  | programTooLong
deriving DecidableEq, Repr

/-- The machine right after reset (R142): IC, PC and SP are 0. No program is loaded (PROG_LEN = 0, assumption 2),
no stack slot has been written, STACK_CAP is 16 (assumption 3), the parameters have their defaults (R6), and no
request is pending. -/
def State.reset : State :=
  { ic := 0, pc := 0, sp := 0, prog := [], progLen := 0, stk := [], stackCap := 16, params := Params.default
    activity := .idle }

end Sys2Proof.Machine
end

