-- ==== Sys2Proof/Machine/Memory.lean ====
section
/-! DEFINITION. Reading and writing a memory held as a list of cells, and its one canonical form. -/

namespace Sys2Proof.Machine

/-- The content listed for an address, `none` for an unlisted one. -/
def Memory.read {α : Type} : Memory α → Nat → Option α
  | [], _ => none
  | (b, v) :: rest, a => if a = b then some v else Memory.read rest a

/-- Lists content `v` at address `a`, in address order. -/
def Memory.insert {α : Type} (a : Nat) (v : α) : Memory α → Memory α
  | [] => [(a, v)]
  | (b, u) :: rest =>
    if a < b then (a, v) :: (b, u) :: rest
    else if a = b then (a, v) :: rest
    else (b, u) :: Memory.insert a v rest

/-- Unlists an address. -/
def Memory.erase {α : Type} (a : Nat) (m : Memory α) : Memory α :=
  m.filter (fun c => c.1 != a)

/-- Writes `v` at `a`. `unlisted` is what an unlisted address reads as, `none` when that is no value: a write of
that very value unlists the address, so that equal memories are equal lists. -/
def Memory.write {α : Type} [DecidableEq α] (unlisted : Option α) (a : Nat) (v : α) (m : Memory α) : Memory α :=
  if some v = unlisted then Memory.erase a m else Memory.insert a v m

/-- Writes consecutive contents from address `a` on. -/
def Memory.writeList {α : Type} [DecidableEq α] (unlisted : Option α) : Nat → List α → Memory α → Memory α
  | _, [], m => m
  | a, v :: vs, m => Memory.writeList unlisted (a + 1) vs (Memory.write unlisted a v m)

/-- The canonical form: addresses strictly rising, and no cell holds what an unlisted address reads as. -/
abbrev Memory.wf {α : Type} [DecidableEq α] (unlisted : Option α) (m : Memory α) : Prop :=
  m.Pairwise (fun x y => x.1 < y.1) ∧ ∀ c ∈ m, some c.2 ≠ unlisted

/-- What an unlisted program address reads as: 0x00, so that a list of cells stands for any buffer a host can load
(assumption 5). -/
def progUnlisted : Option Byte := some 0

/-- What an unlisted stack slot reads as: no value (assumption 4). -/
def stkUnlisted : Option Word := none

/-- The program byte `PROG[a]` (R26, R35). -/
def State.progByte (s : State) (a : Nat) : Byte := (s.prog.read a).getD 0

/-- The word written last to a stack slot, `none` when nothing has written it since power on (R28). -/
def State.written (s : State) (i : Nat) : Option Word := s.stk.read i

/-- The stack word `STK[i]` (R27, R53); in a slot that nothing has written it is the free value (R28, I10). -/
def State.slot (s : State) (i : Nat) : Word := (s.written i).getD (Config.powerOnWord i)

end Sys2Proof.Machine
end

