-- ==== Sys2Proof/Machine/Binary64.lean ====
section
/-! DEFINITION. IEEE 754 binary64 (spec/00_scope.md R11, spec/10_state.md R29, spec/45_arithmetic.md R100 to R109).
A finite value is an integer number of units of 2^-1074, the smallest subnormal, so every sum, product and
quotient is an exact fraction that `Fp.round` rounds once (assumption 13). -/

namespace Sys2Proof.Machine

/-- The values a word can stand for (R29). `units` counts multiples of 2^-1074. -/
inductive Fp where
  | nan
  | inf (neg : Bool)
  | fin (neg : Bool) (units : Nat)
deriving DecidableEq, Repr

/-- 1.0 in units of 2^-1074. -/
def unitsPerOne : Nat := 2 ^ 1074

/-- 2^1024 in units of 2^-1074: the magnitude at which a rounded result is an infinity. -/
def overflowUnits : Nat := 2 ^ 2098

/-- The exponent k of the spacing 2^k, in units, of the binary64 values around `t` units: a significand has 53
bits, and the spacing never falls below one unit (gradual underflow, R108). -/
def spacing (t : Nat) : Nat := Nat.log2 t - 52

/-- R29: the value of a word. Bit 63 is the sign, bits 62:52 the biased exponent, bits 51:0 the fraction. -/
def Fp.ofWord (w : Word) : Fp :=
  let neg := w.getLsbD 63
  let e := (w.extractLsb' 52 11).toNat
  let f := (w.extractLsb' 0 52).toNat
  if e = 0x7FF then (if f = 0 then .inf neg else .nan)
  else if e = 0 then .fin neg f
  else .fin neg ((2 ^ 52 + f) * 2 ^ (e - 1))

/-- The bits 62:0 of a finite value of `u` units, `u` representable. -/
def magnitudeBits (u : Nat) : Nat := spacing u * 2 ^ 52 + u / 2 ^ spacing u

/-- The sign bit in place. -/
def signBit (neg : Bool) : Nat := if neg then 2 ^ 63 else 0

/-- The word of a value; every NaN is written as `qnan` (R107). -/
def Fp.toWord (qnan : Word) : Fp → Word
  | .nan => qnan
  | .inf neg => BitVec.ofNat 64 (signBit neg + 0x7FF * 2 ^ 52)
  | .fin neg u => BitVec.ofNat 64 (signBit neg + magnitudeBits u)

/-- The integer nearest to n / d, ties to even. -/
def divNearestEven (n d : Nat) : Nat :=
  if d < 2 * (n % d) ∨ (2 * (n % d) = d ∧ n / d % 2 = 1) then n / d + 1 else n / d

/-- R11, R109: the binary64 value nearest to the fraction p / q with the given sign, ties to even; an infinity when
it rounds to 2^1024 or more (R79 gives that threshold). -/
def Fp.round (neg : Bool) (p q : Nat) : Fp :=
  if p = 0 then .fin neg 0
  else
    let k := spacing (p * unitsPerOne / q)
    let u := divNearestEven (p * unitsPerOne) (q * 2 ^ k) * 2 ^ k
    if overflowUnits ≤ u then .inf neg else .fin neg u

/-- A sign and a magnitude as an integer. -/
def signed (neg : Bool) (u : Nat) : Int := if neg then -(u : Int) else (u : Int)

/-- `a +f b` (R11, R101). -/
def Fp.add : Fp → Fp → Fp
  | .nan, _ => .nan
  | _, .nan => .nan
  | .inf s, .inf t => if s = t then .inf s else .nan
  | .inf s, .fin _ _ => .inf s
  | .fin _ _, .inf t => .inf t
  | .fin s u, .fin t v =>
    let x := signed s u + signed t v
    if x = 0 then .fin (s && t) 0 else Fp.round (decide (x < 0)) x.natAbs unitsPerOne

/-- The value with its sign changed. -/
def Fp.neg : Fp → Fp
  | .nan => .nan
  | .inf s => .inf (!s)
  | .fin s u => .fin (!s) u

/-- `a -f b` (R11, R102). -/
def Fp.sub (a b : Fp) : Fp := Fp.add a (Fp.neg b)

/-- `a *f b` (R11, R103). -/
def Fp.mul : Fp → Fp → Fp
  | .nan, _ => .nan
  | _, .nan => .nan
  | .inf s, .inf t => .inf (s != t)
  | .inf s, .fin t v => if v = 0 then .nan else .inf (s != t)
  | .fin s u, .inf t => if u = 0 then .nan else .inf (s != t)
  | .fin s u, .fin t v => Fp.round (s != t) (u * v) (unitsPerOne * unitsPerOne)

/-- `a /f b` (R11, R104). -/
def Fp.div : Fp → Fp → Fp
  | .nan, _ => .nan
  | _, .nan => .nan
  | .inf _, .inf _ => .nan
  | .inf s, .fin t _ => .inf (s != t)
  | .fin s _, .inf t => .fin (s != t) 0
  | .fin s u, .fin t v =>
    if v = 0 then (if u = 0 then .nan else .inf (s != t)) else Fp.round (s != t) u v

/-- `trunc_f(x)` (R11): toward zero to an integral value, keeping the sign. -/
def Fp.trunc : Fp → Fp
  | .nan => .nan
  | .inf s => .inf s
  | .fin s u => .fin s (u / unitsPerOne * unitsPerOne)

/-- R105: the truncated remainder in four steps, each rounded. -/
def Fp.mod (a b : Fp) : Fp :=
  let q := Fp.div a b
  let t := Fp.trunc q
  let p := Fp.mul t b
  Fp.sub a p

/-- The place of a value in the order of R11's comparisons, `none` for a NaN, which is unordered. Both zeros have
place 0, and the infinities stand beyond every finite value. -/
def Fp.place : Fp → Option Int
  | .nan => none
  | .inf s => some (signed s overflowUnits)
  | .fin s u => some (signed s u)

/-- R11: a comparison that is false when an operand is a NaN. -/
def Fp.compare (rel : Int → Int → Bool) (a b : Fp) : Bool :=
  match a.place, b.place with
  | some x, some y => rel x y
  | _, _ => false

/-- `a ==f b` (R11). -/
def Fp.eq (a b : Fp) : Bool := Fp.compare (fun x y => decide (x = y)) a b

/-- `a <f b` (R11). -/
def Fp.lt (a b : Fp) : Bool := Fp.compare (fun x y => decide (x < y)) a b

/-- `a <=f b` (R11). -/
def Fp.le (a b : Fp) : Bool := Fp.compare (fun x y => decide (x ≤ y)) a b

/-- A binary operation on values as an operation on words (R100, R107). -/
def onWords (f : Fp → Fp → Fp) (qnan a b : Word) : Word :=
  (f (Fp.ofWord a) (Fp.ofWord b)).toWord qnan

end Sys2Proof.Machine
end

