-- ==== Sys2Proof/Machine/Operands.lean ====
section
/-! DEFINITION. The conversions between bytes, integers and words of spec/40_execution_cycle.md R76 to R79, and the
register operand of REG (spec/47_register_read.md R117). -/

namespace Sys2Proof.Machine

/-- W, the number of bits of `BITW` (R6). -/
def bits : BitWidth → Nat
  | .w32 => 32
  | .w64 => 64

/-- `ToU(x)` (R76): truncation toward zero, then modulo 2^W; a NaN or an infinity gives 0. -/
def toU (bw : BitWidth) (x : Word) : Nat :=
  match Fp.ofWord x with
  | .nan => 0
  | .inf _ => 0
  | .fin neg u => (signed neg (u / unitsPerOne) % (2 ^ bits bw : Nat)).toNat

/-- `U2W(u)` (R77): the nearest binary64 value, ties to even. It never meets a NaN. -/
def u2w (u : Nat) : Word := (Fp.round false u 1).toWord 0

/-- `BE(b0, …)` (R78): the big-endian unsigned integer of the bytes. -/
def be (bs : List Byte) : Nat := bs.foldl (fun n b => n * 256 + b.toNat) 0

/-- A byte as a value, exactly. -/
def Fp.ofByte (b : Byte) : Fp := .fin false (b.toNat * unitsPerOne)

/-- `I2W` under `NUM_CONV = accumulate` (R79): v * 256 + b in binary64, byte by byte. -/
def accumulate (bs : List Byte) : Fp :=
  bs.foldl (fun v b => Fp.add (Fp.mul v (.fin false (256 * unitsPerOne))) (Fp.ofByte b)) (.fin false 0)

/-- `I2W` of the bytes (R79), by the parameter `NUM_CONV`. No byte sequence gives a NaN. -/
def i2w (conv : NumConv) (bs : List Byte) : Word :=
  match conv with
  | .roundOnce => (Fp.round false (be bs) 1).toWord 0
  | .accumulate => (accumulate bs).toWord 0

/-- The word +0.0 (INC pushes it, R89). -/
def plusZero : Word := 0

/-- R117: the value of a control register. -/
def State.controlReg (s : State) : ControlReg → Nat
  | .ic => s.ic.toNat
  | .pc => s.pc.toNat
  | .sp => s.sp.toNat

end Sys2Proof.Machine
end

