-- ==== Sys2Proof/Machine/Ops.lean ====
section
/-! DEFINITION. The named operations every instruction is made of: the fault request (spec/60_exceptions.md R119,
R120), the way back from it (spec/70_reset_and_hazards.md R141), and the six primitives of spec/20_memory.md
R37 to R42. -/

namespace Sys2Proof.Machine

/-! ### Writing the mutable fields -/

/-- `IC <- v`. -/
def State.setIc (s : State) (v : BitVec 16) : State := { s with ic := v }

/-- `PC <- v`. -/
def State.setPc (s : State) (v : BitVec 32) : State := { s with pc := v }

/-- `SP <- v`. -/
def State.setSp (s : State) (v : BitVec 32) : State := { s with sp := v }

/-- `STK[i] <- v`. -/
def State.setSlot (s : State) (i : Nat) (v : Word) : State :=
  { s with stk := Memory.write stkUnlisted i v s.stk }

/-- The request in progress becomes `a`. -/
def State.setActivity (s : State) (a : Activity) : State := { s with activity := a }

/-! ### Sequencing -/

/-- How a part of an instruction ends. -/
inductive Res (α : Type) where
  /-- It is done, with a result. -/
  | ok (a : α) (s : State)
  /-- It raised a fault: the rest of the instruction is not performed (R10, R120). -/
  | raised (s : State)
  /-- It met an address that does not exist: the model stops. -/
  | stopped (f : Fault)
deriving DecidableEq, Repr

/-- Sequential pseudocode (R12): `k` runs after `r`, unless `r` ended the instruction. -/
def Res.andThen {α β : Type} (r : Res α) (k : α → State → Res β) : Res β :=
  match r with
  | .ok a s => k a s
  | .raised s => .raised s
  | .stopped f => .stopped f

/-- The end of an instruction: a raised fault leaves a next state like any other (R132). -/
def Res.outcome {α : Type} (r : Res α) : Host.Outcome State Fault Refusal :=
  match r with
  | .ok _ s => .next s
  | .raised s => .next s
  | .stopped f => .fault f

/-! ### Faults -/

/-- The engine's fault codes (R122). -/
def illegalInstruction : BitVec 16 := 0x0100
/-- R124. -/
def illegalJump : BitVec 16 := 0x0101
/-- R125. -/
def endOfProgram : BitVec 16 := 0x0102
/-- R126. -/
def stackOverflow : BitVec 16 := 0x0200
/-- R127. -/
def stackUnderflow : BitVec 16 := 0x0201
/-- R128. -/
def outOfBounds : BitVec 16 := 0x0202

/-- A fault request (R119): the first fault wins. -/
def State.requestFault (s : State) (code : BitVec 16) : State :=
  if s.ic = 0 then s.setIc code else s

/-- `raise Fault(code)` (R10), which is all there is of trap entry (R132): IC receives the code, the instruction
ends, nothing is undone, and control goes nowhere. -/
def raise {α : Type} (code : BitVec 16) (s : State) : Res α := .raised (s.requestFault code)

/-- Reset (R141, R142), the only way back from Halted (R134): IC, PC and SP become 0, whatever was in progress is
over, PROG and STK stay. -/
def State.applyReset (s : State) : State := (((s.setIc 0).setPc 0).setSp 0).setActivity .idle

/-! ### Primitives -/

/-- `Fetch()` (R37). -/
def fetch (s : State) : Res Byte :=
  if s.pc = s.progLen then raise endOfProgram s
  else if s.progLen < s.pc then .stopped .programAddress
  else .ok (s.progByte s.pc.toNat) (s.setPc (s.pc + 1))

/-- `Push(v)` (R38). -/
def push (v : Word) (s : State) : Res Unit :=
  if s.sp = s.stackCap then raise stackOverflow s
  else if s.stackCap < s.sp then .stopped .stackAddress
  else .ok () ((s.setSlot s.sp.toNat v).setSp (s.sp + 1))

/-- `Pop()` (R39). The slot it releases keeps its word. -/
def pop (s : State) : Res Word :=
  if s.sp = 0 then raise stackUnderflow s
  else if s.stackCap < s.sp then .stopped .stackAddress
  else .ok (s.slot (s.sp - 1).toNat) (s.setSp (s.sp - 1))

/-- `ReadAt(i)` (R40): the bound is SP, compared as unbounded integers. -/
def readAt (i : Nat) (s : State) : Res Word :=
  if s.sp.toNat ≤ i then raise outOfBounds s
  else if s.stackCap.toNat ≤ i then .stopped .stackAddress
  else .ok (s.slot i) s

/-- `WriteAt(i, v)` (R41). -/
def writeAt (i : Nat) (v : Word) (s : State) : Res Unit :=
  if s.sp.toNat ≤ i then raise outOfBounds s
  else if s.stackCap.toNat ≤ i then .stopped .stackAddress
  else .ok () (s.setSlot i v)

/-- `JumpTo(a)` (R42): PC is not modified when the target is out of range. -/
def jumpTo (a : Nat) (s : State) : Res Unit :=
  if s.progLen.toNat ≤ a then raise illegalJump s
  else .ok () (s.setPc (BitVec.ofNat 32 a))

/-! ### Instructions as sequences of primitives -/

/-- The pseudocode of an instruction (R12): operations one after another, each of which may fault, and after each of
them what is left, which may depend on its result and on the state it leaves. -/
inductive Script where
  /-- Nothing is left. -/
  | done
  /-- Operation `p`, and then `k`. -/
  | op {β : Type} (p : State → Res β) (k : β → State → Script)

/-- The whole script: a fault ends it and undoes nothing (R120). -/
def Script.run : Script → State → Res Unit
  | .done, s => .ok () s
  | .op p k, s => (p s).andThen fun b t => (k b t).run t

/-- The state that the first `n` operations of a script leave, for a step that is abandoned after them (R141). An
address that does not exist, which no reachable state meets, leaves the state as it is. -/
def Script.runFirst : Nat → Script → State → State
  | 0, _, s => s
  | _ + 1, .done, s => s
  | n + 1, .op p k, s =>
    match p s with
    | .ok b t => Script.runFirst n (k b t) t
    | .raised t => t
    | .stopped _ => s

/-- The meaning of an instruction whose pseudocode is the script. -/
def Script.exec (c : Script) (s : State) : Host.Outcome State Fault Refusal := (c.run s).outcome

/-- A script whose last operation is `p`. -/
def lastly {β : Type} (p : State → Res β) : Script := .op p fun _ _ => .done

/-! ### Shared shapes of instructions -/

/-- `n` Fetches whose bytes the decoder has already delivered, and then `k`. Every byte of an instruction, the opcode
included, is read by one Fetch (R57), and each can raise the end-of-program fault. -/
def fetches : Nat → Script → Script
  | 0, k => k
  | n + 1, k => .op fetch fun _ _ => fetches n k

/-- The template of R100: b is popped first and is the right operand. -/
def binop (f : Word → Word → Word) : Script :=
  fetches 1 <| .op pop fun b _ => .op pop fun a _ => lastly (push (f a b))

/-- The binary bitwise template of spec/46_bitwise.md: both operands through `ToU`, the result through `U2W`. -/
def bitop (bw : BitWidth) (f : Nat → Nat → Nat) : Script :=
  binop fun a b => u2w (f (toU bw a) (toU bw b))

/-- The template of R94: target, right operand and left operand are popped in that order; a jump not taken neither
converts nor checks its target. -/
def condJump (bw : BitWidth) (cond : Word → Word → Bool) : Script :=
  fetches 1 <| .op pop fun t _ => .op pop fun b _ => .op pop fun a _ =>
    if cond a b then lastly (jumpTo (toU bw t)) else .done

end Sys2Proof.Machine
end

