-- ==== Sys2Proof/Machine/Arithmetic.lean ====
section
/-! DEFINITION. ADD, SUB, MUL, DIV and MOD (spec/45_arithmetic.md). -/

namespace Sys2Proof.Machine

/-- The pseudocode of ADD (R100, R101). -/
def scriptAdd (p : Params) : Script := binop (onWords Fp.add p.qnan)

/-- ADD (R101). -/
def execAdd (s : State) : Host.Outcome State Fault Refusal := (scriptAdd s.params).exec s

/-- The pseudocode of SUB (R100, R102). -/
def scriptSub (p : Params) : Script := binop (onWords Fp.sub p.qnan)

/-- SUB (R102). -/
def execSub (s : State) : Host.Outcome State Fault Refusal := (scriptSub s.params).exec s

/-- The pseudocode of MUL (R100, R103). -/
def scriptMul (p : Params) : Script := binop (onWords Fp.mul p.qnan)

/-- MUL (R103). -/
def execMul (s : State) : Host.Outcome State Fault Refusal := (scriptMul s.params).exec s

/-- The pseudocode of DIV (R100, R104): division by zero is a value, not a fault. -/
def scriptDiv (p : Params) : Script := binop (onWords Fp.div p.qnan)

/-- DIV (R104). -/
def execDiv (s : State) : Host.Outcome State Fault Refusal := (scriptDiv s.params).exec s

/-- The pseudocode of MOD (R100, R105). -/
def scriptMod (p : Params) : Script := binop (onWords Fp.mod p.qnan)

/-- MOD (R105). -/
def execMod (s : State) : Host.Outcome State Fault Refusal := (scriptMod s.params).exec s

end Sys2Proof.Machine
end

