-- ==== Sys2Proof/Machine/Bitwise.lean ====
section
/-! DEFINITION. NOT, AND, BOR, XOR, LSH and RSH (spec/46_bitwise.md). -/

namespace Sys2Proof.Machine

/-- R111: the complement in W bits. -/
def complement (bw : BitWidth) (a : Nat) : Nat := 2 ^ bits bw - 1 - a

/-- R115: the shift left in W bits; an amount of W or more gives 0. -/
def shiftLeft (bw : BitWidth) (a b : Nat) : Nat :=
  if bits bw ≤ b then 0 else a * 2 ^ b % 2 ^ bits bw

/-- R116: the logical shift right; an amount of W or more gives 0. -/
def shiftRight (bw : BitWidth) (a b : Nat) : Nat :=
  if bits bw ≤ b then 0 else a / 2 ^ b

/-- The pseudocode of NOT (R111). -/
def scriptNot (p : Params) : Script :=
  fetches 1 <| .op pop fun a _ => lastly (push (u2w (complement p.bitw (toU p.bitw a))))

/-- NOT (R111). -/
def execNot (s : State) : Host.Outcome State Fault Refusal := (scriptNot s.params).exec s

/-- The pseudocode of AND (R112). -/
def scriptAnd (p : Params) : Script := bitop p.bitw (fun a b => a &&& b)

/-- AND (R112). -/
def execAnd (s : State) : Host.Outcome State Fault Refusal := (scriptAnd s.params).exec s

/-- The pseudocode of BOR (R113). -/
def scriptBor (p : Params) : Script := bitop p.bitw (fun a b => a ||| b)

/-- BOR (R113). -/
def execBor (s : State) : Host.Outcome State Fault Refusal := (scriptBor s.params).exec s

/-- The pseudocode of XOR (R114). -/
def scriptXor (p : Params) : Script := bitop p.bitw (fun a b => a ^^^ b)

/-- XOR (R114). -/
def execXor (s : State) : Host.Outcome State Fault Refusal := (scriptXor s.params).exec s

/-- The pseudocode of LSH (R115): b is the amount. -/
def scriptLsh (p : Params) : Script := bitop p.bitw (shiftLeft p.bitw)

/-- LSH (R115). -/
def execLsh (s : State) : Host.Outcome State Fault Refusal := (scriptLsh s.params).exec s

/-- The pseudocode of RSH (R116): b is the amount. -/
def scriptRsh (p : Params) : Script := bitop p.bitw (shiftRight p.bitw)

/-- RSH (R116). -/
def execRsh (s : State) : Host.Outcome State Fault Refusal := (scriptRsh s.params).exec s

end Sys2Proof.Machine
end

