-- ==== Sys2Proof/Machine/Control.lean ====
section
/-! DEFINITION. NOP and INT (spec/41_control_and_interrupt.md). -/

namespace Sys2Proof.Machine

/-- The pseudocode of NOP (R83). -/
def scriptNop : Script := fetches 1 .done

/-- NOP (R83). -/
def execNop (s : State) : Host.Outcome State Fault Refusal := scriptNop.exec s

/-- The pseudocode of INT v (R84): the operand byte, zero-extended, is written to IC directly. -/
def scriptInt (v : Byte) : Script := fetches 2 <| lastly fun s => .ok () (s.setIc (v.setWidth 16))

/-- INT v (R84). -/
def execInt (v : Byte) (s : State) : Host.Outcome State Fault Refusal := (scriptInt v).exec s

end Sys2Proof.Machine
end

