-- ==== Sys2Proof/Machine/Flags.lean ====
section
/-! DEFINITION. The machine has no flags, condition codes or predicates (spec/10_state.md R30). What other machines
keep in flags, the conditional jumps compute themselves: the conditions of spec/44_control_transfer.md R96 to R99. -/

namespace Sys2Proof.Machine

/-- R96: `a ==f b`. -/
def condEq (a b : Word) : Bool := Fp.eq (Fp.ofWord a) (Fp.ofWord b)

/-- R97: `a !=f b`, the negation of `a ==f b`. -/
def condNe (a b : Word) : Bool := !condEq a b

/-- R98: `a <f b`. -/
def condLt (a b : Word) : Bool := Fp.lt (Fp.ofWord a) (Fp.ofWord b)

/-- R99: `a <=f b`. -/
def condLe (a b : Word) : Bool := Fp.le (Fp.ofWord a) (Fp.ofWord b)

end Sys2Proof.Machine
end

