-- ==== Sys2Proof/Machine/Jumps.lean ====
section
/-! DEFINITION. JMP, JEQ, JNE, JLS and JLE (spec/44_control_transfer.md). -/

namespace Sys2Proof.Machine

/-- The pseudocode of JMP (R95). -/
def scriptJmp (p : Params) : Script := fetches 1 <| .op pop fun t _ => lastly (jumpTo (toU p.bitw t))

/-- JMP (R95). -/
def execJmp (s : State) : Host.Outcome State Fault Refusal := (scriptJmp s.params).exec s

/-- The pseudocode of JEQ (R96). -/
def scriptJeq (p : Params) : Script := condJump p.bitw condEq

/-- JEQ (R96). -/
def execJeq (s : State) : Host.Outcome State Fault Refusal := (scriptJeq s.params).exec s

/-- The pseudocode of JNE (R97). -/
def scriptJne (p : Params) : Script := condJump p.bitw condNe

/-- JNE (R97). -/
def execJne (s : State) : Host.Outcome State Fault Refusal := (scriptJne s.params).exec s

/-- The pseudocode of JLS (R98). -/
def scriptJls (p : Params) : Script := condJump p.bitw condLt

/-- JLS (R98). -/
def execJls (s : State) : Host.Outcome State Fault Refusal := (scriptJls s.params).exec s

/-- The pseudocode of JLE (R99). -/
def scriptJle (p : Params) : Script := condJump p.bitw condLe

/-- JLE (R99). -/
def execJle (s : State) : Host.Outcome State Fault Refusal := (scriptJle s.params).exec s

end Sys2Proof.Machine
end

