-- ==== Sys2Proof/Machine/Literals.lean ====
section
/-! DEFINITION. NUM and ARR (spec/42_literals.md). -/

namespace Sys2Proof.Machine

/-- The pseudocode of NUM (R85): all bytes are fetched, then one word is pushed. -/
def scriptNum (p : Params) (ds : List Byte) : Script :=
  fetches (2 + ds.length) <| lastly (push (i2w p.numConv ds))

/-- NUM (R85). -/
def execNum (ds : List Byte) (s : State) : Host.Outcome State Fault Refusal := (scriptNum s.params ds).exec s

/-- The loop of R86: each group is fetched and then pushed, one group after another. -/
def pushGroups (conv : NumConv) : List (List Byte) → Script
  | [] => .done
  | g :: gs => fetches g.length <| .op (push (i2w conv g)) fun _ _ => pushGroups conv gs

/-- The pseudocode of ARR (R86): opcode, width and count bytes, then the groups. The width is the length of each
group. -/
def scriptArr (p : Params) (_w : Byte) (groups : List (List Byte)) : Script :=
  fetches 3 <| pushGroups p.numConv groups

/-- ARR (R86). -/
def execArr (w : Byte) (groups : List (List Byte)) (s : State) : Host.Outcome State Fault Refusal :=
  (scriptArr s.params w groups).exec s

end Sys2Proof.Machine
end

