-- ==== Sys2Proof/Machine/RegisterRead.lean ====
section
/-! DEFINITION. REG (spec/47_register_read.md). -/

namespace Sys2Proof.Machine

/-- The pseudocode of REG s (R117): PC is read after the selector byte, SP before the push; a selector that names no
register raises illegal instruction. -/
def scriptReg (p : Params) (sel : Byte) : Script :=
  .op fetch fun _ _ => .op fetch fun _ s =>
    match p.regSelMap.regOf sel with
    | some r => lastly (push (u2w (s.controlReg r)))
    | none => lastly (raise (α := Unit) illegalInstruction)

/-- REG s (R117). -/
def execReg (sel : Byte) (s : State) : Host.Outcome State Fault Refusal := (scriptReg s.params sel).exec s

end Sys2Proof.Machine
end

