-- ==== Sys2Proof/Machine/StackAccess.lean ====
section
/-! DEFINITION. SET, GET, INC, DEC, DUP, POP and ROT (spec/43_stack_access.md). -/

namespace Sys2Proof.Machine

/-- The pseudocode of SET (R87): the address is popped first, then the value; the bound is checked after both pops. -/
def scriptSet (p : Params) : Script :=
  fetches 1 <| .op pop fun a _ => .op pop fun v _ => lastly (writeAt (toU p.bitw a) v)

/-- SET (R87). -/
def execSet (s : State) : Host.Outcome State Fault Refusal := (scriptSet s.params).exec s

/-- The pseudocode of GET (R88). -/
def scriptGet (p : Params) : Script :=
  fetches 1 <| .op pop fun a _ => .op (readAt (toU p.bitw a)) fun x _ => lastly (push x)

/-- GET (R88). -/
def execGet (s : State) : Host.Outcome State Fault Refusal := (scriptGet s.params).exec s

/-- `n` pushes of +0.0, one at a time (R89, D10). -/
def pushZeros : Nat → Script
  | 0 => .done
  | n + 1 => .op (push plusZero) fun _ _ => pushZeros n

/-- The pseudocode of INC (R89). -/
def scriptInc (p : Params) : Script := fetches 1 <| .op pop fun x _ => pushZeros (toU p.bitw x)

/-- INC (R89). -/
def execInc (s : State) : Host.Outcome State Fault Refusal := (scriptInc s.params).exec s

/-- `n` pops whose words are discarded, one at a time (R90, D10). -/
def popMany : Nat → Script
  | 0 => .done
  | n + 1 => .op pop fun _ _ => popMany n

/-- The pseudocode of DEC (R90). -/
def scriptDec (p : Params) : Script := fetches 1 <| .op pop fun x _ => popMany (toU p.bitw x)

/-- DEC (R90). -/
def execDec (s : State) : Host.Outcome State Fault Refusal := (scriptDec s.params).exec s

/-- The pseudocode of DUP (R91): a no-op on an empty stack. -/
def scriptDup : Script :=
  .op fetch fun _ s =>
    if s.sp = 0 then .done else .op (readAt (s.sp.toNat - 1)) fun t _ => lastly (push t)

/-- DUP (R91). -/
def execDup (s : State) : Host.Outcome State Fault Refusal := scriptDup.exec s

/-- The pseudocode of POP (R92). -/
def scriptPop : Script := fetches 1 <| lastly pop

/-- POP (R92). -/
def execPop (s : State) : Host.Outcome State Fault Refusal := scriptPop.exec s

/-- The pseudocode of ROT (R93): a no-op on fewer than two words. The top slot is written first. -/
def scriptRot : Script :=
  .op fetch fun _ s =>
    if s.sp.toNat < 2 then .done
    else
      .op (readAt (s.sp.toNat - 1)) fun x _ =>
      .op (readAt (s.sp.toNat - 2)) fun y _ =>
      .op (writeAt (s.sp.toNat - 1) y) fun _ _ =>
      lastly (writeAt (s.sp.toNat - 2) x)

/-- ROT (R93). -/
def execRot (s : State) : Host.Outcome State Fault Refusal := scriptRot.exec s

end Sys2Proof.Machine
end

