-- ==== Sys2Proof/Machine/Dispatch.lean ====
section
/-! DEFINITION. One meaning per instruction (spec/40_execution_cycle.md R74). -/

namespace Sys2Proof.Machine

def exec (i : Instr) (s : State) : Host.Outcome State Fault Refusal :=
  match i with
  | .nop => Sys2Proof.Machine.execNop s
  | .int v => Sys2Proof.Machine.execInt v s
  | .num ds => Sys2Proof.Machine.execNum ds s
  | .arr w groups => Sys2Proof.Machine.execArr w groups s
  | .set => Sys2Proof.Machine.execSet s
  | .get => Sys2Proof.Machine.execGet s
  | .inc => Sys2Proof.Machine.execInc s
  | .dec => Sys2Proof.Machine.execDec s
  | .dup => Sys2Proof.Machine.execDup s
  | .pop => Sys2Proof.Machine.execPop s
  | .rot => Sys2Proof.Machine.execRot s
  | .jmp => Sys2Proof.Machine.execJmp s
  | .jeq => Sys2Proof.Machine.execJeq s
  | .jne => Sys2Proof.Machine.execJne s
  | .jls => Sys2Proof.Machine.execJls s
  | .jle => Sys2Proof.Machine.execJle s
  | .add => Sys2Proof.Machine.execAdd s
  | .sub => Sys2Proof.Machine.execSub s
  | .mul => Sys2Proof.Machine.execMul s
  | .div => Sys2Proof.Machine.execDiv s
  | .mod => Sys2Proof.Machine.execMod s
  | .not => Sys2Proof.Machine.execNot s
  | .and => Sys2Proof.Machine.execAnd s
  | .bor => Sys2Proof.Machine.execBor s
  | .xor => Sys2Proof.Machine.execXor s
  | .lsh => Sys2Proof.Machine.execLsh s
  | .rsh => Sys2Proof.Machine.execRsh s
  | .reg sel => Sys2Proof.Machine.execReg sel s

end Sys2Proof.Machine
end

