-- ==== Sys2Proof/Machine/Fetching.lean ====
section
/-! DEFINITION. From the state to the next instruction (spec/40_execution_cycle.md R71), and the program bytes that a
table word stands for. -/

namespace Sys2Proof.Machine

/-- The byte `k` places after PC, for the decoder to look at; 0, the source's sentinel, where the program has no
such byte. No effect depends on that 0: the instruction's own Fetches raise the end-of-program fault before they
reach it (R43, assumption 8). -/
def State.lookahead (s : State) (k : Nat) : Byte :=
  if s.pc.toNat + k < s.progLen.toNat then s.progByte (s.pc.toNat + k) else 0

/-- The opcode Fetch and the decoding of R71. The answer `ok` carries the state BEFORE the opcode Fetch, because a
meaning performs every Fetch of its instruction itself. -/
def nextInstr (s : State) : Res Instr :=
  (fetch s).andThen fun _ t =>
  match decodeFrom s.params.opcodeMap s.lookahead with
  | .ok i => .ok i s
  | .error _ => raise illegalInstruction t

/-- The bytes of a table word: `nbits` bits, in whole bytes, in the numbering of spec/opcode_table.json. -/
def tableBytes (nbits w : Nat) : List Byte := bytesFrom (tableByte nbits w) 0 ((nbits + 7) / 8)

/-- The program buffer with `bytes` at address `a` and zeros after them up to the longest instruction (R59). -/
def Memory.placeInstr (a : Nat) (bytes : List Byte) (m : Memory Byte) : Memory Byte :=
  Memory.writeList progUnlisted a bytes
    (m.filter (fun c => decide (c.1 < a) || decide (a + maxInstrLength ≤ c.1)))

/-- A program length that covers the longest instruction at address `a`, as far as 32 bits can count. -/
def coveringLength (a len : Nat) : Nat := min (max len (a + maxInstrLength)) (2 ^ 32 - 1)

end Sys2Proof.Machine
end

