-- ==== Sys2Proof/Machine/Step.lean ====
section
/-! DEFINITION. One step (spec/40_execution_cycle.md R71). -/

namespace Sys2Proof.Machine

/-- `Step()` (R71): nothing while Halted (R73); else one instruction, or the fault of its opcode Fetch or decoding. -/
def step (s : State) : Host.Outcome State Fault Refusal :=
  if s.ic ≠ 0 then .next s
  else
    match nextInstr s with
    | .ok i t => exec i t
    | .raised t => .next t
    | .stopped f => .fault f

/-- The state with a table instruction where the next step fetches: its bytes at PC with zeros after them, a
PROG_LEN that covers them, and IC = 0, without which no step fetches (assumption 11). -/
def State.withFetchWord (s : State) (nbits w : Nat) : State :=
  { s with
    ic := 0
    prog := Memory.placeInstr s.pc.toNat (tableBytes nbits w) s.prog
    progLen := BitVec.ofNat 32 (coveringLength s.pc.toNat s.progLen.toNat) }

end Sys2Proof.Machine
end

