-- ==== Sys2Proof/Machine/Abandon.lean ====
section
/-! DEFINITION. A step that reset abandons before it is complete (spec/70_reset_and_hazards.md R141). -/

namespace Sys2Proof.Machine

/-- The pseudocode of each instruction, which its meaning in `exec` runs to the end. -/
def scriptOf (p : Params) (i : Instr) : Script :=
  match i with
  | .nop => scriptNop
  | .int v => scriptInt v
  | .num ds => scriptNum p ds
  | .arr w groups => scriptArr p w groups
  | .set => scriptSet p
  | .get => scriptGet p
  | .inc => scriptInc p
  | .dec => scriptDec p
  | .dup => scriptDup
  | .pop => scriptPop
  | .rot => scriptRot
  | .jmp => scriptJmp p
  | .jeq => scriptJeq p
  | .jne => scriptJne p
  | .jls => scriptJls p
  | .jle => scriptJle p
  | .add => scriptAdd p
  | .sub => scriptSub p
  | .mul => scriptMul p
  | .div => scriptDiv p
  | .mod => scriptMod p
  | .not => scriptNot p
  | .and => scriptAnd p
  | .bor => scriptBor p
  | .xor => scriptXor p
  | .lsh => scriptLsh p
  | .rsh => scriptRsh p
  | .reg sel => scriptReg p sel

/-- The `busy` output (R16): a step or a run is in progress. -/
def State.busy (s : State) : Bool := s.activity != .idle && s.ic == 0

/-- What the step in progress, if there is one, has done after its first `ops` primitives. Its stores are the ones of
the pseudocode that come before that place, in that order, and a fault among them has ended it (DEDUCED from R49, R53
and R120: assumption 18). -/
def State.abandon (s : State) (ops : Nat) : State :=
  if s.busy then
    match nextInstr s with
    | .ok i t => Script.runFirst ops (scriptOf t.params i) t
    | .raised t => t
    | .stopped _ => s
  else s

end Sys2Proof.Machine
end

