-- ==== Sys2Proof/Machine/HostPort.lean ====
section
/-! DEFINITION. What the host can do to the CORE and see of it (spec/00_scope.md R16, spec/70_reset_and_hazards.md
R141 to R155). The host looks only between steps (R14, R75); a pulse that comes while the CORE is busy is ignored, and
`rst` may come inside a step. -/

namespace Sys2Proof.Machine

/-! ### Outputs (`busy` is in Machine/Abandon.lean) -/

/-- The `halted` output (R16, R118). -/
def State.halted (s : State) : Bool := s.ic != 0

/-- The `int_code` output (R16). -/
def State.intCode (s : State) : BitVec 16 := s.ic

/-- The `pc_out` output (R16). -/
def State.pcOut (s : State) : BitVec 32 := s.pc

/-- The `sp_out` output (R16). -/
def State.spOut (s : State) : BitVec 32 := s.sp

/-! ### Steps and runs -/

/-- `Run()` (R72) with a bound on its steps, because a run need not end (R153, I14): it stops as soon as IC is
nonzero, or when the bound is used up. -/
def runSteps : Nat → State → Host.Outcome State Fault Refusal
  | 0, s => .next s
  | n + 1, s =>
    if s.ic ≠ 0 then .next s
    else
      match step s with
      | .next t => runSteps n t
      | .fault f => .fault f
      | .refused r => .refused r

/-- A pulse on `host_step` or `host_run` (R16): it starts the activity it asks for if the CORE is Running and not
busy; else it changes nothing (R155). -/
def State.pulse (s : State) (a : Activity) : State :=
  if s.busy || s.halted then s else s.setActivity a

/-- The activity `a` is over in the state that `o` leads to: a `host_step` after its one step, a `host_run` when IC
is nonzero (R71, R72). -/
def completed (a : Activity) (o : Host.Outcome State Fault Refusal) : Host.Outcome State Fault Refusal :=
  match o with
  | .next t => .next (if a = .stepping ∨ t.ic ≠ 0 then t.setActivity .idle else t)
  | .fault f => .fault f
  | .refused r => .refused r

/-- Time for up to `steps` steps of what is in progress. An idle CORE does nothing (R140); a run whose steps are used
up with IC = 0 goes on being in progress (R153, I14). -/
def advance (steps : Nat) (s : State) : Host.Outcome State Fault Refusal :=
  match s.activity with
  | .idle => .next s
  | .stepping => if steps = 0 then .next s else completed .stepping (step s)
  | .running => completed .running (runSteps steps s)

/-! ### Requests -/

/-- The host's load while `rst = 1` (R144, R146, R148), and the release of reset: the program bytes from address 0
on, PROG_LEN and STACK_CAP. Slots at or beyond the new capacity are no part of the stack buffer (R27). -/
def State.load (s : State) (program : List Byte) (cap : BitVec 32) : State :=
  { s.applyReset with
    prog := Memory.writeList progUnlisted 0 program []
    progLen := BitVec.ofNat 32 program.length
    stk := s.stk.filter (fun c => decide (c.1 < cap.toNat))
    stackCap := cap }

/-- What the host may do, and the time it lets go by. It writes the memories and the sizes only while `rst = 1`, so
those requests include a reset; a host that breaks that duty has no request here (R151, I16, I17). -/
inductive HostRequest where
  /-- `rst` (R141). If a step is in progress, it comes after the first `ops` primitives of that step. -/
  | rst (ops : Nat)
  /-- Load a program and set the sizes in reset (R144, R146). -/
  | load (program : List Byte) (cap : BitVec 32)
  /-- Write a word of the stack memory in reset (R148). -/
  | pokeStack (i : Nat) (v : Word)
  /-- A pulse on `host_step` (R16). -/
  | hostStep
  /-- A pulse on `host_run` (R16). -/
  | hostRun
  /-- No signal for as long as at most `steps` steps take. -/
  | wait (steps : Nat)
deriving DecidableEq, Repr

/-- What a request does. -/
def serve (r : HostRequest) (s : State) : Host.Outcome State Fault Refusal :=
  match r with
  | .rst ops => .next (s.abandon ops).applyReset
  | .load program cap => if program.length < 2 ^ 32 then .next (s.load program cap) else .refused .programTooLong
  | .pokeStack i v => if i < s.stackCap.toNat then .next (s.applyReset.setSlot i v) else .fault .stackAddress
  | .hostStep => .next (s.pulse .stepping)
  | .hostRun => .next (s.pulse .running)
  | .wait steps => advance steps s

end Sys2Proof.Machine
end

