-- ==== Sys2Proof/Safety.lean ====
section
/-! DEFINITION. What a sound state is, in the terms the statements use: the invariants of spec/10_state.md R28, R33
and of R107 and R122, what an instruction needs to be fetched whole, and what every instruction leaves alone. -/

namespace Sys2Proof.Machine

/-- R33: `0 <= PC <= PROG_LEN` and `0 <= SP <= STACK_CAP`. -/
abbrev State.Bounded (s : State) : Prop := s.pc ≤ s.progLen ∧ s.sp ≤ s.stackCap

/-- Both memories are in canonical form and list only addresses that exist (R34, R35). -/
abbrev State.Canonical (s : State) : Prop :=
  Memory.wf progUnlisted s.prog ∧ (∀ c ∈ s.prog, c.1 < s.progLen.toNat) ∧
  Memory.wf stkUnlisted s.stk ∧ (∀ c ∈ s.stk, c.1 < s.stackCap.toNat)

/-- R28: Push writes a slot before the slot becomes live, so every live slot has been written. -/
abbrev State.LiveWritten (s : State) : Prop := ∀ i < s.sp.toNat, (s.written i).isSome = true

/-- R107: every NaN on the stack has the pattern QNAN. -/
abbrev State.NaNCanonical (s : State) : Prop :=
  ∀ i < s.sp.toNat, Word.IsNaN (s.slot i) → s.slot i = s.params.qnan

/-- R122: the values IC can hold. -/
abbrev State.IcKnown (s : State) : Prop :=
  s.ic.toNat < 0x100 ∨ s.ic = illegalInstruction ∨ s.ic = illegalJump ∨ s.ic = endOfProgram ∨
  s.ic = stackOverflow ∨ s.ic = stackUnderflow ∨ s.ic = outOfBounds

/-- The states that runs reach. -/
abbrev State.Inv (s : State) : Prop :=
  s.Bounded ∧ s.Canonical ∧ s.LiveWritten ∧ s.NaNCanonical ∧ s.IcKnown

/-- The machine is Running, the next `k` bytes are in the program, and SP is within its bound. -/
abbrev State.Ready (s : State) (k : Nat) : Prop :=
  s.ic = 0 ∧ s.pc.toNat + k ≤ s.progLen.toNat ∧ s.sp ≤ s.stackCap

/-- The bytes of `i` stand in the program from PC on. -/
abbrev State.Holds (s : State) (i : Instr) : Prop :=
  s.pc.toNat + i.size ≤ s.progLen.toNat ∧
  bytesFrom s.progByte s.pc.toNat i.size = encode s.params.opcodeMap i

/-- What no instruction writes (R36, R6, R16): every program byte, both sizes, the parameters and the activity that the
host's pulses have started. -/
abbrev KeepsHostSide (s t : State) : Prop :=
  (∀ a, t.progByte a = s.progByte a) ∧ t.prog = s.prog ∧ t.progLen = s.progLen ∧ t.stackCap = s.stackCap ∧
  t.params = s.params ∧ t.activity = s.activity

/-- `t` has these registers, and everything that no instruction writes is as in `s`. -/
abbrev Leaves (s t : State) (pc sp : Nat) (ic : BitVec 16) : Prop :=
  t.pc.toNat = pc ∧ t.sp.toNat = sp ∧ t.ic = ic ∧ KeepsHostSide s t

/-- Every stack slot outside `stored` reads in `t` as in `s`. -/
abbrev KeepsSlots (s t : State) (stored : Nat → Prop) : Prop := ∀ i, ¬ stored i → t.written i = s.written i

/-- `t` holds the words of the first `k` groups that stand in the program of `s` from address `a` on, `w` bytes each,
from slot SP of `s` upward, and every other slot reads as in `s` (R86). -/
abbrev StoresGroups (s t : State) (a w k : Nat) : Prop :=
  (∀ j, j < k → t.written (s.sp.toNat + j) = some (i2w s.params.numConv (bytesFrom s.progByte (a + j * w) w))) ∧
  KeepsSlots s t (fun i => s.sp.toNat ≤ i ∧ i < s.sp.toNat + k)

/-- How many primitives of the pseudocode come before the one that stores (Push or WriteAt), for the instructions that
store one word at most: Fetches, Pops and a ReadAt, in the order of R85, R87, R88, R91, R100, R111 to R117. `none` for
those that store nothing, and for ARR, INC and ROT, which store several. -/
def opsBeforeStore (i : Instr) : Option Nat :=
  match i with
  | .num ds => some (2 + ds.length)
  | .set | .get => some 3
  | .dup | .not | .reg _ => some 2
  | .add | .sub | .mul | .div | .mod | .and | .bor | .xor | .lsh | .rsh => some 3
  | .arr _ _ | .inc | .rot => none
  | .nop | .int _ | .dec | .pop | .jmp | .jeq | .jne | .jls | .jle => none

/-- Two states that a program cannot tell apart: they differ at most in slots at or above SP (R28). -/
abbrev SameToProgram (s t : State) : Prop :=
  t.ic = s.ic ∧ t.pc = s.pc ∧ t.sp = s.sp ∧ KeepsHostSide s t ∧ ∀ i < s.sp.toNat, t.slot i = s.slot i

/-- The word that holds an integer, exactly when its magnitude is at most 2^53 (R106). -/
def intWord (z : Int) : Word := (Fp.fin (decide (z < 0)) (z.natAbs * unitsPerOne)).toWord 0

/-- `trunc_f` on words (R11); a NaN is written as `qnan`. -/
def truncWord (qnan x : Word) : Word := (Fp.trunc (Fp.ofWord x)).toWord qnan

/-- The sign bit of a word (R29). -/
abbrev Word.sign (w : Word) : Bool := w.getLsbD 63

/-- `r` is the binary64 value nearest to x / d units, ties to even, or the infinity of x's sign when x / d is at
least 2^1024 - 2^970 in magnitude (R11, R79). -/
abbrev IsNearest (x : Int) (d : Nat) (r : Fp) : Prop :=
  match r with
  | .nan => False
  | .inf s => s = decide (x < 0) ∧ ((2 ^ 1024 - 2 ^ 970) * unitsPerOne * d : Nat) ≤ x.natAbs
  | .fin s u =>
    x.natAbs < (2 ^ 1024 - 2 ^ 970) * unitsPerOne * d ∧
    ∀ (c : Word) (t : Bool) (v : Nat), Fp.ofWord c = .fin t v →
      (x - signed s u * d).natAbs ≤ (x - signed t v * d).natAbs ∧
      ((x - signed s u * d).natAbs = (x - signed t v * d).natAbs → signed s u ≠ signed t v →
        magnitudeBits u % 2 = 0)

end Sys2Proof.Machine
end

