-- ==== Sys2Proof/Certificates/Slice0/Obligations.lean ====
section
/-! DEFINITION. The statements about the model, each from the rules of spec/ that OBLIGATIONS.json cites. -/

open Sys2Proof Sys2Proof.Machine

/-! ### Encoding and decoding -/

/-- R57 to R60, R62: under every injective opcode map, decoding the bytes of a well-formed instruction gives it back
and leaves the bytes after it. -/
def Obligations.DecodeOfEncodeIsTheInstruction : Prop :=
  ∀ (m : OpcodeMap) (i : Instr) (rest : List Byte), m.WellFormed → i.WellFormed →
    decode m (encode m i ++ rest) = .ok (i, rest)

/-- R57, R58, R60: every byte sequence that decodes is the encoding of the instruction it decodes to, followed by
the bytes left over, and that instruction is well-formed. No byte and no bit of it is dropped. -/
def Obligations.DecodedBytesAreTheEncoding : Prop :=
  ∀ (m : OpcodeMap) (bs rest : List Byte) (i : Instr), m.WellFormed →
    decode m bs = .ok (i, rest) → bs = encode m i ++ rest ∧ i.WellFormed

/-- R59: the length that the first three bytes give is the length of the instruction: 1 for format OP, 2 for IMM8,
2 + n for NUM (2 to 257), 3 + w*c for ARR (3 to 65028). -/
def Obligations.FirstBytesGiveTheLength : Prop :=
  ∀ (m : OpcodeMap) (i : Instr) (rest : List Byte) (b0 b1 b2 : Byte) (tail : List Byte),
    m.WellFormed → i.WellFormed → encode m i ++ rest = b0 :: b1 :: b2 :: tail →
      instrLength m b0 b1 b2 = (encode m i).length ∧
      (encode m i).length =
        (match i with
          | .num ds => 2 + ds.length
          | .arr w groups => 3 + w.toNat * groups.length
          | .int _ => 2
          | .reg _ => 2
          | _ => 1) ∧
      (encode m i).length ≤ (match i with | .num _ => 257 | .arr _ _ => 65028 | _ => 2)

/-- Words written out from R58 and R61 (default map) decode to the instructions they stand for. -/
def Obligations.WrittenBytesDecode : Prop :=
  decode OpcodeMap.default [0x00] = .ok (.nop, []) ∧
  decode OpcodeMap.default [0x01, 0x07] = .ok (.int 0x07, []) ∧
  decode OpcodeMap.default [0x02, 0x02, 0x01, 0x00, 0xFF] = .ok (.num [0x01, 0x00], [0xFF]) ∧
  decode OpcodeMap.default [0x03, 0x02, 0x03, 0x00, 0x07, 0xFF, 0xFF, 0x01, 0x00] =
    .ok (.arr 2 [[0x00, 0x07], [0xFF, 0xFF], [0x01, 0x00]], []) ∧
  decode OpcodeMap.default [0x0A, 0x11] = .ok (.rot, [0x11]) ∧
  decode OpcodeMap.default [0x0F] = .ok (.jle, []) ∧
  decode OpcodeMap.default [0x14] = .ok (.mod, []) ∧
  decode OpcodeMap.default [0x19] = .ok (.lsh, []) ∧
  decode OpcodeMap.default [0x1B, 0x02] = .ok (.reg 0x02, []) ∧
  decode OpcodeMap.default [0x1C] = .error (.illegalOpcode 0x1C)

/-! ### The step -/

/-- R71: a Running machine whose program holds the bytes of a well-formed instruction at PC steps as that instruction
executes. The meaning performs every Fetch of the instruction, so the step adds nothing around it. -/
def Obligations.StepRunsTheDecodedInstruction : Prop :=
  ∀ (s : State) (i : Instr), s.ic = 0 → s.params.opcodeMap.WellFormed → i.WellFormed → s.Holds i →
    step s = exec i s

/-- R37, R71, R125: a step at the end of the program raises end of program and changes nothing else. -/
def Obligations.StepAtProgramEnd : Prop :=
  ∀ s : State, s.ic = 0 → s.pc = s.progLen → step s = .next { s with ic := 0x0102 }

/-- R64: a byte fetched as an opcode that the map does not have is an illegal instruction; PC is just past it, no
operand byte is fetched, and nothing else changes. Under the default map those bytes are 0x1C to 0xFF. -/
def Obligations.UnmappedOpcodeIsIllegal : Prop :=
  (∀ s : State, s.ic = 0 → s.pc < s.progLen →
    s.progByte s.pc.toNat ∉ s.params.opcodeMap.map Prod.fst →
    step s = .next { s with pc := s.pc + 1, ic := 0x0100 }) ∧
  (∀ b : Byte, b ∉ OpcodeMap.default.map Prod.fst ↔ 0x1C ≤ b)

/-- R37, R59, R125: a program that ends inside an instruction other than ARR ends its step with end of program, PC
at PROG_LEN and nothing else changed, whatever the stack holds. -/
def Obligations.StepOfCutInstruction : Prop :=
  ∀ (s : State) (o : Mnemonic), s.ic = 0 → s.pc < s.progLen →
    s.params.opcodeMap.mnemonicOf (s.progByte s.pc.toNat) = some o → o ≠ .arr →
    s.progLen.toNat <
      s.pc.toNat + instrLength s.params.opcodeMap (s.lookahead 0) (s.lookahead 1) (s.lookahead 2) →
    step s = .next { s with pc := s.progLen, ic := 0x0102 }

/-- R59, R86, R125, R126, R133: a step whose opcode byte is ARR, wherever the program ends and however full the stack
is. If the program ends inside the control bytes, nothing is pushed. Else, for the `k` groups that are in the program
and fit on the stack, their words are pushed in order; then ARR is complete, or the program ends inside group `k`, or
the stack is full at element `k`, which has been fetched. -/
def Obligations.StepOfArr : Prop :=
  ∀ s : State, s.ic = 0 → s.pc < s.progLen → s.sp ≤ s.stackCap →
    s.params.opcodeMap.mnemonicOf (s.progByte s.pc.toNat) = some .arr →
    (s.progLen.toNat < s.pc.toNat + 3 → step s = .next { s with pc := s.progLen, ic := 0x0102 }) ∧
    (∀ w c k : Nat, s.pc.toNat + 3 + k * w ≤ s.progLen.toNat → s.sp.toNat + k ≤ s.stackCap.toNat →
      w = (s.progByte (s.pc.toNat + 1)).toNat → c = (s.progByte (s.pc.toNat + 2)).toNat →
      (k = c →
        ∃ t, step s = .next t ∧ Leaves s t (s.pc.toNat + 3 + k * w) (s.sp.toNat + k) 0 ∧
          StoresGroups s t (s.pc.toNat + 3) w k) ∧
      (k < c → s.progLen.toNat < s.pc.toNat + 3 + (k + 1) * w →
        ∃ t, step s = .next t ∧ Leaves s t s.progLen.toNat (s.sp.toNat + k) 0x0102 ∧
          StoresGroups s t (s.pc.toNat + 3) w k) ∧
      (k < c → s.pc.toNat + 3 + (k + 1) * w ≤ s.progLen.toNat → s.sp.toNat + k = s.stackCap.toNat →
        ∃ t, step s = .next t ∧ Leaves s t (s.pc.toNat + 3 + (k + 1) * w) s.stackCap.toNat 0x0200 ∧
          StoresGroups s t (s.pc.toNat + 3) w k))

/-- R125, R131, R133: every instruction but ARR fetches all its bytes before anything else, so where the program ends
inside it, it leaves PC at PROG_LEN, raises end of program and changes nothing else. -/
def Obligations.FetchesComeFirst : Prop :=
  ∀ (s : State) (i : Instr), (∀ w groups, i ≠ .arr w groups) → s.ic = 0 →
    s.pc.toNat ≤ s.progLen.toNat → s.progLen.toNat < s.pc.toNat + i.size →
    exec i s = .next { s with pc := s.progLen, ic := 0x0102 }

/-- R73: while IC is nonzero, Step and Run change nothing, and Run shows the same IC every time. -/
def Obligations.HaltedMachineChangesNothing : Prop :=
  ∀ s : State, s.ic ≠ 0 → step s = .next s ∧ ∀ n, runSteps n s = .next s

/-- R72: Run is Step repeated while IC is 0, and once a run has reached a nonzero IC, more steps give the same state. -/
def Obligations.RunRepeatsStepUntilHalted : Prop :=
  (∀ s : State, s.ic = 0 → runSteps 1 s = step s) ∧
  ∀ (n m : Nat) (s t : State), runSteps n s = .next t →
    runSteps (n + m) s = runSteps m t ∧ (t.ic ≠ 0 → runSteps (n + m) s = .next t)

/-! ### The primitives -/

/-- R37 to R42: the six primitives, in a Running state within its bounds. -/
def Obligations.PrimitivesFollowTheirRules : Prop :=
  ∀ (s : State) (v : Word) (i : Nat), s.ic = 0 → s.Bounded →
    (s.pc = s.progLen → fetch s = .raised { s with ic := 0x0102 }) ∧
    (s.pc ≠ s.progLen → fetch s = .ok (s.progByte s.pc.toNat) { s with pc := s.pc + 1 }) ∧
    (s.sp = s.stackCap → push v s = .raised { s with ic := 0x0200 }) ∧
    (s.sp ≠ s.stackCap →
      ∃ t, push v s = .ok () t ∧ Leaves s t s.pc.toNat (s.sp.toNat + 1) 0 ∧
        t.written s.sp.toNat = some v ∧ KeepsSlots s t (· = s.sp.toNat)) ∧
    (s.sp = 0 → pop s = .raised { s with ic := 0x0201 }) ∧
    (s.sp ≠ 0 → pop s = .ok (s.slot (s.sp.toNat - 1)) { s with sp := s.sp - 1 }) ∧
    (s.sp.toNat ≤ i → readAt i s = .raised { s with ic := 0x0202 } ∧
      writeAt i v s = .raised { s with ic := 0x0202 }) ∧
    (i < s.sp.toNat → readAt i s = .ok (s.slot i) s ∧
      ∃ t, writeAt i v s = .ok () t ∧ Leaves s t s.pc.toNat s.sp.toNat 0 ∧
        t.written i = some v ∧ KeepsSlots s t (· = i)) ∧
    (s.progLen.toNat ≤ i → jumpTo i s = .raised { s with ic := 0x0101 }) ∧
    (i < s.progLen.toNat → jumpTo i s = .ok () { s with pc := BitVec.ofNat 32 i })

/-! ### NOP and INT -/

/-- R83: NOP changes nothing but PC. -/
def Obligations.NopOnlyAdvancesPc : Prop :=
  ∀ s : State, s.Ready 1 → exec .nop s = .next { s with pc := s.pc + 1 }

/-- R84: INT writes its operand, zero-extended, to IC and changes nothing else but PC; the machine is then Halted
exactly when the operand is not 0, with a code below 0x0100. -/
def Obligations.IntWritesItsOperand : Prop :=
  ∀ (s : State) (v : Byte), s.Ready 2 →
    ∃ t, exec (.int v) s = .next t ∧ t = { s with pc := s.pc + 2, ic := v.zeroExtend 16 } ∧
      (t.halted = true ↔ v ≠ 0) ∧ t.ic.toNat = v.toNat

/-! ### NUM and ARR -/

/-- R85: NUM pushes the word of its bytes; on a full stack it raises stack overflow with PC past the whole
instruction and SP and STK unchanged. -/
def Obligations.NumPushesItsLiteral : Prop :=
  ∀ (s : State) (ds : List Byte), (Instr.num ds).WellFormed → s.Ready (2 + ds.length) →
    (s.sp < s.stackCap →
      ∃ t, exec (.num ds) s = .next t ∧ Leaves s t (s.pc.toNat + (2 + ds.length)) (s.sp.toNat + 1) 0 ∧
        t.written s.sp.toNat = some (i2w s.params.numConv ds) ∧ KeepsSlots s t (· = s.sp.toNat)) ∧
    (s.sp = s.stackCap →
      exec (.num ds) s = .next { s with pc := s.pc + BitVec.ofNat 32 (2 + ds.length), ic := 0x0200 })

/-- R86: with room on the stack, ARR pushes the words of its groups in order, group 0 deepest. -/
def Obligations.ArrPushesItsGroups : Prop :=
  ∀ (s : State) (w : Byte) (groups : List (List Byte)), (Instr.arr w groups).WellFormed →
    s.Ready (3 + w.toNat * groups.length) → s.sp.toNat + groups.length ≤ s.stackCap.toNat →
    ∃ t, exec (.arr w groups) s = .next t ∧
      Leaves s t (s.pc.toNat + (3 + w.toNat * groups.length)) (s.sp.toNat + groups.length) 0 ∧
      (∀ k, ∀ h : k < groups.length, t.written (s.sp.toNat + k) = some (i2w s.params.numConv groups[k])) ∧
      KeepsSlots s t (fun i => s.sp.toNat ≤ i ∧ i < s.sp.toNat + groups.length)

/-- R86, R133: when the stack is full at element k, ARR has fetched group k and no further, elements 0 to k-1 stay
pushed, and it raises stack overflow. -/
def Obligations.ArrOverflowKeepsEarlierElements : Prop :=
  ∀ (s : State) (w : Byte) (groups : List (List Byte)) (k : Nat), (Instr.arr w groups).WellFormed →
    s.Ready (3 + (k + 1) * w.toNat) → k < groups.length → s.sp.toNat + k = s.stackCap.toNat →
    ∃ t, exec (.arr w groups) s = .next t ∧
      Leaves s t (s.pc.toNat + (3 + (k + 1) * w.toNat)) s.stackCap.toNat 0x0200 ∧
      (∀ j, j < k → ∀ h : j < groups.length,
        t.written (s.sp.toNat + j) = some (i2w s.params.numConv groups[j])) ∧
      KeepsSlots s t (fun i => s.sp.toNat ≤ i ∧ i < s.stackCap.toNat)

/-- R86, R133: when the program ends inside group k, elements 0 to k-1 stay pushed, PC is PROG_LEN, and ARR raises
end of program; when it ends inside the control bytes, nothing has been pushed. -/
def Obligations.ArrCutShortKeepsEarlierElements : Prop :=
  ∀ (s : State) (w : Byte) (groups : List (List Byte)), (Instr.arr w groups).WellFormed → s.ic = 0 →
    s.pc.toNat ≤ s.progLen.toNat →
    (s.progLen.toNat < s.pc.toNat + 3 →
      exec (.arr w groups) s = .next { s with pc := s.progLen, ic := 0x0102 }) ∧
    (∀ k, k < groups.length → s.sp.toNat + k ≤ s.stackCap.toNat →
      s.pc.toNat + (3 + k * w.toNat) ≤ s.progLen.toNat →
      s.progLen.toNat < s.pc.toNat + (3 + (k + 1) * w.toNat) →
      ∃ t, exec (.arr w groups) s = .next t ∧ Leaves s t s.progLen.toNat (s.sp.toNat + k) 0x0102 ∧
        (∀ j, j < k → ∀ h : j < groups.length,
          t.written (s.sp.toNat + j) = some (i2w s.params.numConv groups[j])) ∧
        KeepsSlots s t (fun i => s.sp.toNat ≤ i ∧ i < s.sp.toNat + k))

/-- R78: `BE` is the sum of the bytes times powers of 256, the first byte the most significant; no bytes give 0. -/
def Obligations.BigEndianIsTheByteSum : Prop :=
  ∀ bs : List Byte,
    be bs = ∑ j ∈ Finset.range bs.length, (bs.getD j 0).toNat * 256 ^ (bs.length - 1 - j)

/-- R79: `round_once` gives the value nearest to the integer, ties to even, and +inf exactly from 2^1024 - 2^970 on;
`accumulate` starts at +0.0 and, byte by byte, rounds v * 256 and then the sum with the byte; the two settings agree,
exactly, for every integer below 2^53. -/
def Obligations.NumConvRoundsOnceOrAtEachByte : Prop :=
  ∀ bs : List Byte,
    IsNearest (be bs * unitsPerOne : Nat) 1 (Fp.ofWord (i2w .roundOnce bs)) ∧
    (Fp.ofWord (i2w .roundOnce bs) = .inf false ↔ 2 ^ 1024 - 2 ^ 970 ≤ be bs) ∧
    i2w .accumulate [] = plusZero ∧
    (∀ (qnan : Word) (b : Byte), i2w .accumulate (bs ++ [b]) =
      onWords Fp.add qnan (onWords Fp.mul qnan (i2w .accumulate bs) (intWord 256)) (intWord b.toNat)) ∧
    (be bs < 2 ^ 53 →
      i2w .accumulate bs = i2w .roundOnce bs ∧
      Fp.ofWord (i2w .roundOnce bs) = .fin false (be bs * unitsPerOne))

/-! ### Stack access -/

/-- R127, R133: an instruction that pops more words than there are empties the stack, raises stack underflow and
changes nothing else but PC. -/
def Obligations.PoppingTooManyUnderflows : Prop :=
  ∀ p ∈ [(Instr.set, 2), (.get, 1), (.inc, 1), (.dec, 1), (.pop, 1), (.jmp, 1), (.jeq, 3), (.jne, 3), (.jls, 3),
      (.jle, 3), (.add, 2), (.sub, 2), (.mul, 2), (.div, 2), (.mod, 2), (.not, 1), (.and, 2), (.bor, 2), (.xor, 2),
      (.lsh, 2), (.rsh, 2)],
    ∀ s : State, s.Ready 1 → s.sp.toNat < p.2 →
      exec p.1 s = .next { s with pc := s.pc + 1, sp := 0, ic := 0x0201 }

/-- R87: SET pops the address and then the value, and stores the value at the index `ToU(address)` if that index is
below SP after both pops; else it raises out of bounds and writes no slot. -/
def Obligations.SetStoresAtTheIndex : Prop :=
  ∀ s : State, s.Ready 1 → 2 ≤ s.sp.toNat →
    (toU s.params.bitw (s.slot (s.sp.toNat - 1)) < s.sp.toNat - 2 →
      ∃ t, exec .set s = .next t ∧ Leaves s t (s.pc.toNat + 1) (s.sp.toNat - 2) 0 ∧
        t.written (toU s.params.bitw (s.slot (s.sp.toNat - 1))) = some (s.slot (s.sp.toNat - 2)) ∧
        KeepsSlots s t (· = toU s.params.bitw (s.slot (s.sp.toNat - 1)))) ∧
    (s.sp.toNat - 2 ≤ toU s.params.bitw (s.slot (s.sp.toNat - 1)) →
      exec .set s = .next { s with pc := s.pc + 1, sp := s.sp - 2, ic := 0x0202 })

/-- R88: GET replaces the address by the word at the index `ToU(address)` if that index is below SP after the pop;
else it raises out of bounds with the address popped. -/
def Obligations.GetLoadsFromTheIndex : Prop :=
  ∀ s : State, s.Ready 1 → 1 ≤ s.sp.toNat →
    (toU s.params.bitw (s.slot (s.sp.toNat - 1)) < s.sp.toNat - 1 →
      ∃ t, exec .get s = .next t ∧ Leaves s t (s.pc.toNat + 1) s.sp.toNat 0 ∧
        t.written (s.sp.toNat - 1) = some (s.slot (toU s.params.bitw (s.slot (s.sp.toNat - 1)))) ∧
        KeepsSlots s t (· = s.sp.toNat - 1)) ∧
    (s.sp.toNat - 1 ≤ toU s.params.bitw (s.slot (s.sp.toNat - 1)) →
      exec .get s = .next { s with pc := s.pc + 1, sp := s.sp - 1, ic := 0x0202 })

/-- R89: the closed form of INC. With SP taken after the pop, n zeros are pushed if they fit; else the stack is
filled with zeros and stack overflow is raised. -/
def Obligations.IncPushesZeros : Prop :=
  ∀ s : State, s.Ready 1 → 1 ≤ s.sp.toNat →
    (toU s.params.bitw (s.slot (s.sp.toNat - 1)) ≤ s.stackCap.toNat - (s.sp.toNat - 1) →
      ∃ t, exec .inc s = .next t ∧
        Leaves s t (s.pc.toNat + 1) (s.sp.toNat - 1 + toU s.params.bitw (s.slot (s.sp.toNat - 1))) 0 ∧
        (∀ i, s.sp.toNat - 1 ≤ i → i < s.sp.toNat - 1 + toU s.params.bitw (s.slot (s.sp.toNat - 1)) →
          t.written i = some plusZero) ∧
        KeepsSlots s t (fun i => s.sp.toNat - 1 ≤ i ∧
          i < s.sp.toNat - 1 + toU s.params.bitw (s.slot (s.sp.toNat - 1)))) ∧
    (s.stackCap.toNat - (s.sp.toNat - 1) < toU s.params.bitw (s.slot (s.sp.toNat - 1)) →
      ∃ t, exec .inc s = .next t ∧ Leaves s t (s.pc.toNat + 1) s.stackCap.toNat 0x0200 ∧
        (∀ i, s.sp.toNat - 1 ≤ i → i < s.stackCap.toNat → t.written i = some plusZero) ∧
        KeepsSlots s t (fun i => s.sp.toNat - 1 ≤ i ∧ i < s.stackCap.toNat))

/-- R90: the closed form of DEC. With SP taken after the pop, n words are popped if there are that many; else the
stack is emptied and stack underflow is raised. No slot is written. -/
def Obligations.DecPopsWords : Prop :=
  ∀ s : State, s.Ready 1 → 1 ≤ s.sp.toNat →
    (toU s.params.bitw (s.slot (s.sp.toNat - 1)) ≤ s.sp.toNat - 1 →
      exec .dec s = .next
        { s with
          pc := s.pc + 1
          sp := BitVec.ofNat 32 (s.sp.toNat - 1 - toU s.params.bitw (s.slot (s.sp.toNat - 1))) }) ∧
    (s.sp.toNat - 1 < toU s.params.bitw (s.slot (s.sp.toNat - 1)) →
      exec .dec s = .next { s with pc := s.pc + 1, sp := 0, ic := 0x0201 })

/-- R91: DUP copies the top word bit for bit; on an empty stack it is a no-op, on a full one (not empty) it raises
stack overflow with the stack unchanged. -/
def Obligations.DupCopiesTheTop : Prop :=
  ∀ s : State, s.Ready 1 →
    (s.sp.toNat = 0 → exec .dup s = .next { s with pc := s.pc + 1 }) ∧
    (1 ≤ s.sp.toNat → s.sp < s.stackCap →
      ∃ t, exec .dup s = .next t ∧ Leaves s t (s.pc.toNat + 1) (s.sp.toNat + 1) 0 ∧
        t.written s.sp.toNat = some (s.slot (s.sp.toNat - 1)) ∧ KeepsSlots s t (· = s.sp.toNat)) ∧
    (1 ≤ s.sp.toNat → s.sp = s.stackCap → exec .dup s = .next { s with pc := s.pc + 1, ic := 0x0200 })

/-- R92: POP discards the top word and clears no slot; on an empty stack it raises stack underflow and SP stays 0. -/
def Obligations.PopDiscardsTheTop : Prop :=
  ∀ s : State, s.Ready 1 →
    (1 ≤ s.sp.toNat → exec .pop s = .next { s with pc := s.pc + 1, sp := s.sp - 1 }) ∧
    (s.sp.toNat = 0 → exec .pop s = .next { s with pc := s.pc + 1, ic := 0x0201 })

/-- R93: ROT swaps the two top words and never changes SP; with fewer than two words it is a no-op. -/
def Obligations.RotSwapsTheTwoTopWords : Prop :=
  ∀ s : State, s.Ready 1 →
    (s.sp.toNat < 2 → exec .rot s = .next { s with pc := s.pc + 1 }) ∧
    (2 ≤ s.sp.toNat →
      ∃ t, exec .rot s = .next t ∧ Leaves s t (s.pc.toNat + 1) s.sp.toNat 0 ∧
        t.written (s.sp.toNat - 1) = some (s.slot (s.sp.toNat - 2)) ∧
        t.written (s.sp.toNat - 2) = some (s.slot (s.sp.toNat - 1)) ∧
        KeepsSlots s t (fun i => i = s.sp.toNat - 1 ∨ i = s.sp.toNat - 2))

/-- R27, R38, R39: a Pop right after a Push returns the pushed word and the stack pointer from before, and every
other slot reads as before. -/
def Obligations.PopReturnsThePushedWord : Prop :=
  ∀ (s : State) (v : Word), s.sp < s.stackCap →
    ∃ t u, push v s = .ok () t ∧ pop t = .ok v u ∧ u.sp = s.sp ∧ u.pc = s.pc ∧ u.ic = s.ic ∧
      KeepsHostSide s u ∧ KeepsSlots s u (· = s.sp.toNat)

/-! ### Control transfer -/

/-- R95: JMP pops its target and goes to `ToU(target)` if that is below PROG_LEN; else it raises illegal jump with PC
just past the opcode. Either way only PC, SP and IC change. -/
def Obligations.JmpGoesToItsTarget : Prop :=
  ∀ s : State, s.Ready 1 → 1 ≤ s.sp.toNat →
    (toU s.params.bitw (s.slot (s.sp.toNat - 1)) < s.progLen.toNat →
      exec .jmp s = .next
        { s with pc := BitVec.ofNat 32 (toU s.params.bitw (s.slot (s.sp.toNat - 1))), sp := s.sp - 1 }) ∧
    (s.progLen.toNat ≤ toU s.params.bitw (s.slot (s.sp.toNat - 1)) →
      exec .jmp s = .next { s with pc := s.pc + 1, sp := s.sp - 1, ic := 0x0101 })

/-- R94, R96 to R99: the conditional jumps pop target, right operand and left operand; a taken one goes to its target
or raises illegal jump with PC just past the opcode, and one not taken does not check its target. -/
def Obligations.ConditionalJumpsFollowTheirCondition : Prop :=
  ∀ p ∈ [(Instr.jeq, condEq), (.jne, condNe), (.jls, condLt), (.jle, condLe)],
    ∀ s : State, s.Ready 1 → 3 ≤ s.sp.toNat →
      (p.2 (s.slot (s.sp.toNat - 3)) (s.slot (s.sp.toNat - 2)) = false →
        exec p.1 s = .next { s with pc := s.pc + 1, sp := s.sp - 3 }) ∧
      (p.2 (s.slot (s.sp.toNat - 3)) (s.slot (s.sp.toNat - 2)) = true →
        toU s.params.bitw (s.slot (s.sp.toNat - 1)) < s.progLen.toNat →
        exec p.1 s = .next
          { s with pc := BitVec.ofNat 32 (toU s.params.bitw (s.slot (s.sp.toNat - 1))), sp := s.sp - 3 }) ∧
      (p.2 (s.slot (s.sp.toNat - 3)) (s.slot (s.sp.toNat - 2)) = true →
        s.progLen.toNat ≤ toU s.params.bitw (s.slot (s.sp.toNat - 1)) →
        exec p.1 s = .next { s with pc := s.pc + 1, sp := s.sp - 3, ic := 0x0101 })

/-- R11, R96 to R99: with a NaN every condition is false but `!=`; else exactly one of less, equal and greater holds,
`<=` is less or equal, finite words compare as their values (so the zeros are equal), and the infinities lie
beyond them. -/
def Obligations.ComparisonsAreIeee : Prop :=
  ∀ a b : Word,
    (Word.IsNaN a ∨ Word.IsNaN b →
      condEq a b = false ∧ condNe a b = true ∧ condLt a b = false ∧ condLe a b = false) ∧
    (¬ Word.IsNaN a → ¬ Word.IsNaN b →
      (condLt a b = true ∧ condEq a b = false ∧ condLt b a = false ∨
        condLt a b = false ∧ condEq a b = true ∧ condLt b a = false ∨
        condLt a b = false ∧ condEq a b = false ∧ condLt b a = true) ∧
      condLe a b = (condLt a b || condEq a b) ∧ condNe a b = !condEq a b) ∧
    (∀ s u t v, Fp.ofWord a = .fin s u → Fp.ofWord b = .fin t v →
      (condLt a b = true ↔ signed s u < signed t v) ∧ (condEq a b = true ↔ signed s u = signed t v)) ∧
    (∀ s u t, Fp.ofWord a = .fin s u → Fp.ofWord b = .inf t → condLt a b = !t ∧ condLt b a = t) ∧
    (∀ s t, Fp.ofWord a = .inf s → Fp.ofWord b = .inf t →
      condLt a b = (s && !t) ∧ condEq a b = (s == t))

/-! ### Arithmetic -/

/-- R100 to R105: each arithmetic instruction pops b and then a and pushes its function of a and b; it changes
nothing else but PC and SP, and IC stays 0 whatever the words are. -/
def Obligations.ArithmeticPushesItsResult : Prop :=
  ∀ p ∈ [(Instr.add, Fp.add), (.sub, Fp.sub), (.mul, Fp.mul), (.div, Fp.div), (.mod, Fp.mod)],
    ∀ s : State, s.Ready 1 → 2 ≤ s.sp.toNat →
      ∃ t, exec p.1 s = .next t ∧ Leaves s t (s.pc.toNat + 1) (s.sp.toNat - 1) 0 ∧
        t.written (s.sp.toNat - 2) =
          some (onWords p.2 s.params.qnan (s.slot (s.sp.toNat - 2)) (s.slot (s.sp.toNat - 1))) ∧
        KeepsSlots s t (· = s.sp.toNat - 2)

/-- R11, R79, R109: the one rounding function gives the value nearest to the fraction, ties to even, with gradual
underflow, and an infinity from 2^1024 - 2^970 on; the result, a zero or an infinity too, has the given sign and is a
binary64 value. -/
def Obligations.RoundingIsToNearestEven : Prop :=
  ∀ (neg : Bool) (p q : Nat), 0 < q →
    IsNearest (signed neg (p * unitsPerOne)) q (Fp.round neg p q) ∧
    (Fp.round neg p q = .inf neg ∨ ∃ u, Fp.round neg p q = .fin neg u) ∧
    Fp.ofWord ((Fp.round neg p q).toWord 0) = Fp.round neg p q

/-- R11, R101 to R104, R108: on finite words (with a nonzero divisor), ADD, SUB, MUL and DIV push the value nearest to
the exact result, ties to even; the sign bit of a product or a quotient, one that is or underflows to zero too, is the
XOR of the sign bits. -/
def Obligations.ArithmeticIsCorrectlyRounded : Prop :=
  ∀ (qnan a b : Word) (s t : Bool) (u v : Nat), Fp.ofWord a = .fin s u → Fp.ofWord b = .fin t v →
    IsNearest (signed s u + signed t v) 1 (Fp.ofWord (onWords Fp.add qnan a b)) ∧
    IsNearest (signed s u - signed t v) 1 (Fp.ofWord (onWords Fp.sub qnan a b)) ∧
    IsNearest (signed s u * signed t v) unitsPerOne (Fp.ofWord (onWords Fp.mul qnan a b)) ∧
    Word.sign (onWords Fp.mul qnan a b) = (Word.sign a != Word.sign b) ∧
    (v ≠ 0 → IsNearest (signed (s != t) (u * unitsPerOne)) v (Fp.ofWord (onWords Fp.div qnan a b)) ∧
      Word.sign (onWords Fp.div qnan a b) = (Word.sign a != Word.sign b))

/-- R101 to R105: the corner cases: every operation on an infinity or a zero, whether it gives NaN, and else the sign
of its zero or infinite result. (Where two nonzero finite operands round to a zero or an infinity, the sign is in
RoundingIsToNearestEven and ArithmeticIsCorrectlyRounded; for MOD of such operands see ModIsFourRoundedSteps.) -/
def Obligations.ArithmeticCornerCases : Prop :=
  (∀ s : Bool, Fp.add (.inf s) (.inf (!s)) = .nan ∧ Fp.sub (.inf s) (.inf s) = .nan) ∧
  (∀ s : Bool, Fp.add (.inf s) (.inf s) = .inf s ∧ Fp.sub (.inf s) (.inf (!s)) = .inf s) ∧
  (∀ (s t : Bool) (u : Nat), Fp.add (.inf s) (.fin t u) = .inf s ∧ Fp.add (.fin t u) (.inf s) = .inf s ∧
    Fp.sub (.inf s) (.fin t u) = .inf s ∧ Fp.sub (.fin t u) (.inf s) = .inf (!s)) ∧
  (∀ s t : Bool, Fp.add (.fin s 0) (.fin t 0) = .fin (s && t) 0 ∧
    Fp.sub (.fin s 0) (.fin t 0) = .fin (s && !t) 0) ∧
  (∀ (s : Bool) (u : Nat), Fp.add (.fin s u) (.fin (!s) u) = .fin false 0 ∧
    Fp.sub (.fin s u) (.fin s u) = .fin false 0) ∧
  (∀ s t : Bool, Fp.mul (.fin s 0) (.inf t) = .nan ∧ Fp.mul (.inf s) (.fin t 0) = .nan) ∧
  (∀ s t : Bool, Fp.mul (.inf s) (.inf t) = .inf (s != t)) ∧
  (∀ (s t : Bool) (u : Nat), u ≠ 0 → Fp.mul (.inf s) (.fin t u) = .inf (s != t) ∧
    Fp.mul (.fin t u) (.inf s) = .inf (s != t)) ∧
  (∀ (s t : Bool) (u : Nat), Fp.mul (.fin s u) (.fin t 0) = .fin (s != t) 0 ∧
    Fp.mul (.fin s 0) (.fin t u) = .fin (s != t) 0) ∧
  (∀ (s t : Bool) (u : Nat), Fp.div (.inf s) (.fin t u) = .inf (s != t)) ∧
  (∀ (s t : Bool) (u : Nat), u ≠ 0 → Fp.div (.fin s 0) (.fin t u) = .fin (s != t) 0) ∧
  (∀ (s t : Bool) (u : Nat), u ≠ 0 → Fp.div (.fin s u) (.fin t 0) = .inf (s != t)) ∧
  (∀ s t : Bool, Fp.div (.fin s 0) (.fin t 0) = .nan ∧ Fp.div (.inf s) (.inf t) = .nan) ∧
  (∀ (s t : Bool) (u : Nat), Fp.div (.fin s u) (.inf t) = .fin (s != t) 0) ∧
  (∀ (a : Fp) (t : Bool), Fp.mod a (.fin t 0) = .nan) ∧
  (∀ (s : Bool) (b : Fp), Fp.mod (.inf s) b = .nan) ∧
  (∀ (s t : Bool) (u : Nat), Fp.mod (.fin s u) (.inf t) = .nan) ∧
  (∀ (s t : Bool) (u : Nat), u ≠ 0 → Fp.mod (.fin s 0) (.fin t u) = .fin false 0)

/-- R101 to R104, R106: on integers of magnitude at most 2^53 the results are exact while they too are such integers
(a zero product or quotient may be -0.0, so those are left to the corner cases). -/
def Obligations.IntegerArithmeticIsExact : Prop :=
  ∀ (qnan : Word) (x y : Int), x.natAbs ≤ 2 ^ 53 → y.natAbs ≤ 2 ^ 53 →
    ((x + y).natAbs ≤ 2 ^ 53 → onWords Fp.add qnan (intWord x) (intWord y) = intWord (x + y)) ∧
    ((x - y).natAbs ≤ 2 ^ 53 → onWords Fp.sub qnan (intWord x) (intWord y) = intWord (x - y)) ∧
    ((x * y).natAbs ≤ 2 ^ 53 → x * y ≠ 0 → onWords Fp.mul qnan (intWord x) (intWord y) = intWord (x * y)) ∧
    (y ∣ x → x ≠ 0 → onWords Fp.div qnan (intWord x) (intWord y) = intWord (x / y))

/-- R105: on integers of magnitude below 2^53, MOD is the integer remainder that takes the sign of its left operand,
and an exact zero is +0.0. -/
def Obligations.ModIsTheIntegerRemainder : Prop :=
  ∀ (qnan : Word) (x y : Int), x.natAbs < 2 ^ 53 → y.natAbs < 2 ^ 53 → y ≠ 0 →
    onWords Fp.mod qnan (intWord x) (intWord y) = intWord (x.tmod y)

/-- R11, R105: MOD is four operations, each rounded on its own: the quotient, its truncation toward zero, the product
with b, and the difference. A truncation keeps the sign, the infinities and a NaN, and takes a finite word to the
integer below its magnitude. -/
def Obligations.ModIsFourRoundedSteps : Prop :=
  ∀ qnan a b x : Word, Word.IsNaN qnan →
    onWords Fp.mod qnan a b =
      onWords Fp.sub qnan a (onWords Fp.mul qnan (truncWord qnan (onWords Fp.div qnan a b)) b) ∧
    (Word.IsNaN x → truncWord qnan x = qnan) ∧
    (∀ s, Fp.ofWord x = .inf s → truncWord qnan x = x) ∧
    (∀ s u, Fp.ofWord x = .fin s u →
      ∃ n : Nat, Fp.ofWord (truncWord qnan x) = .fin s (n * unitsPerOne) ∧
        n * unitsPerOne ≤ u ∧ u < (n + 1) * unitsPerOne)

/-- R107: whatever the operands, a NaN that an arithmetic instruction produces has the pattern QNAN, and a NaN
operand gives one. -/
def Obligations.NaNResultsHaveOnePattern : Prop :=
  ∀ f ∈ [Fp.add, Fp.sub, Fp.mul, Fp.div, Fp.mod], ∀ qnan a b : Word,
    (Word.IsNaN (onWords f qnan a b) → onWords f qnan a b = qnan) ∧
    (Word.IsNaN a ∨ Word.IsNaN b → onWords f qnan a b = qnan)

/-! ### Bitwise -/

/-- R112 to R116: each binary bitwise instruction pops b and then a, converts both by ToU, and pushes its function of
the two integers by U2W; a shift amount of W or more gives 0. -/
def Obligations.BitwisePushesItsResult : Prop :=
  ∀ (s : State) (a b : Nat), s.Ready 1 → 2 ≤ s.sp.toNat →
    a = toU s.params.bitw (s.slot (s.sp.toNat - 2)) → b = toU s.params.bitw (s.slot (s.sp.toNat - 1)) →
    ∀ p ∈ [(Instr.and, a &&& b), (.bor, a ||| b), (.xor, a ^^^ b),
        (.lsh, if bits s.params.bitw ≤ b then 0 else a * 2 ^ b % 2 ^ bits s.params.bitw),
        (.rsh, if bits s.params.bitw ≤ b then 0 else a / 2 ^ b)],
      ∃ t, exec p.1 s = .next t ∧ Leaves s t (s.pc.toNat + 1) (s.sp.toNat - 1) 0 ∧
        t.written (s.sp.toNat - 2) = some (u2w p.2) ∧ KeepsSlots s t (· = s.sp.toNat - 2)

/-- R111: NOT replaces the top word by the complement of its integer in W bits. -/
def Obligations.NotPushesTheComplement : Prop :=
  ∀ s : State, s.Ready 1 → 1 ≤ s.sp.toNat →
    ∃ t, exec .not s = .next t ∧ Leaves s t (s.pc.toNat + 1) s.sp.toNat 0 ∧
      t.written (s.sp.toNat - 1) =
        some (u2w (2 ^ bits s.params.bitw - 1 - toU s.params.bitw (s.slot (s.sp.toNat - 1)))) ∧
      KeepsSlots s t (· = s.sp.toNat - 1)

/-- R111, R115, R116: on W-bit integers the complement and the shifts are those of W-bit vectors. -/
def Obligations.ComplementAndShiftsAreBitVectors : Prop :=
  ∀ (bw : BitWidth) (a b : Nat), a < 2 ^ bits bw →
    complement bw a = (~~~ BitVec.ofNat (bits bw) a).toNat ∧
    Machine.shiftLeft bw a b = (BitVec.ofNat (bits bw) a <<< b).toNat ∧
    Machine.shiftRight bw a b = (BitVec.ofNat (bits bw) a >>> b).toNat

/-- R76: ToU gives 0 for a NaN or an infinity, and else the integer part, rounded toward zero, modulo 2^W. -/
def Obligations.ToUTruncatesAndWraps : Prop :=
  ∀ (bw : BitWidth) (x : Word),
    (Word.IsNaN x → toU bw x = 0) ∧ (∀ s, Fp.ofWord x = .inf s → toU bw x = 0) ∧
    toU bw x < 2 ^ bits bw ∧
    (∀ s u, Fp.ofWord x = .fin s u →
      ∃ z : Int, z.natAbs * unitsPerOne ≤ u ∧ u < (z.natAbs + 1) * unitsPerOne ∧
        (s = true → z ≤ 0) ∧ (s = false → 0 ≤ z) ∧ (toU bw x : Int) = z % (2 ^ bits bw : Nat))

/-- R77: U2W gives the nearest word; for W = 32 it is exact and ToU inverts it; it never gives -0.0, a NaN or an
infinity. -/
def Obligations.U2WIsNearestAndExactFor32Bits : Prop :=
  (∀ u : Nat, u < 2 ^ 32 → Fp.ofWord (u2w u) = .fin false (u * unitsPerOne) ∧ toU .w32 (u2w u) = u) ∧
  (∀ u : Nat, u < 2 ^ 64 → (∃ v, Fp.ofWord (u2w u) = .fin false v) ∧
    IsNearest (u * unitsPerOne : Nat) 1 (Fp.ofWord (u2w u)))

/-! ### Register read -/

/-- R117: REG pushes IC (always 0), the PC after its selector byte, or the SP before its push; on a full stack it
raises stack overflow, and for a selector that names no register, illegal instruction. The default selectors are 0, 1
and 2. -/
def Obligations.RegPushesTheSelectedRegister : Prop :=
  (∀ (s : State) (sel : Byte), s.Ready 2 →
    (∀ (r : ControlReg) (x : Nat), s.params.regSelMap.regOf sel = some r →
      x = (match r with | .ic => 0 | .pc => s.pc.toNat + 2 | .sp => s.sp.toNat) →
      (s.sp < s.stackCap →
        ∃ t, exec (.reg sel) s = .next t ∧ Leaves s t (s.pc.toNat + 2) (s.sp.toNat + 1) 0 ∧
          t.written s.sp.toNat = some (u2w x) ∧ Fp.ofWord (u2w x) = .fin false (x * unitsPerOne) ∧
          KeepsSlots s t (· = s.sp.toNat)) ∧
      (s.sp = s.stackCap → exec (.reg sel) s = .next { s with pc := s.pc + 2, ic := 0x0200 })) ∧
    (s.params.regSelMap.regOf sel = none →
      exec (.reg sel) s = .next { s with pc := s.pc + 2, ic := 0x0100 })) ∧
  (∀ sel : Byte,
    (RegSelMap.default.regOf sel = some .ic ↔ sel = 0) ∧ (RegSelMap.default.regOf sel = some .pc ↔ sel = 1) ∧
    (RegSelMap.default.regOf sel = some .sp ↔ sel = 2) ∧ (RegSelMap.default.regOf sel = none ↔ 3 ≤ sel))

/-! ### Faults and reset -/

/-- R119: a fault request writes its code only if IC is 0, and writes nothing else. -/
def Obligations.FirstFaultWins : Prop :=
  ∀ (s : State) (code : BitVec 16),
    (s.ic = 0 → s.requestFault code = { s with ic := code }) ∧ (s.ic ≠ 0 → s.requestFault code = s)

/-- R141 to R143: reset, from any state and at any place inside a step in progress, sets IC, PC and SP to 0, ends what
was in progress, and leaves PROG, the sizes and the parameters as they are; the machine is then Running and not busy.
Where no step is in progress or none of its primitives is done, STK stays as it is too. -/
def Obligations.ResetClearsTheRegistersOnly : Prop :=
  ∀ (s : State) (ops : Nat), ∃ t, serve (.rst ops) s = .next t ∧
    t.ic = 0 ∧ t.pc = 0 ∧ t.sp = 0 ∧ t.activity = .idle ∧ t.busy = false ∧ t.halted = false ∧
    t.prog = s.prog ∧ t.progLen = s.progLen ∧ t.stackCap = s.stackCap ∧ t.params = s.params ∧
    (s.busy = false ∨ ops = 0 → t.stk = s.stk)

/-- A reset inside a step of an instruction that the program holds whole leaves in STK what the primitives before it
have stored. That a reset falls between two primitives, after any number `ops` of them, and that their stores stay, in
the order of the pseudocode, is the model's choice: log entry 18 (DEDUCED from R49, a primitive is indivisible, R53, the
accesses come in the order of the pseudocode, and R141, the trace that a step abandoned by reset leaves in STK; R142
leaves STK unspecified after reset). So: of ARR the words of the first `k` groups are there, of INC the first `k` zeros
(as many as fit on the stack; a group is `w` Fetches and a Push), of ROT neither slot, the upper one or both; INC on an
empty stack and ROT on fewer than two words have stored nothing. Of an instruction that stores one word at most, STK is
as it was up to and including the primitives before the one that stores, and from that one on as the whole step leaves
it; any other instruction has stored nothing. -/
def Obligations.AbandonedStepKeepsItsStores : Prop :=
  ∀ (s : State) (i : Instr) (ops : Nat), s.busy = true → s.params.opcodeMap.WellFormed → i.WellFormed → s.Holds i →
    s.sp ≤ s.stackCap →
    (∀ w groups k, i = .arr w groups →
      k = min (min ((ops - 3) / (w.toNat + 1)) groups.length) (s.stackCap.toNat - s.sp.toNat) →
      ∃ t, serve (.rst ops) s = .next t ∧
        (∀ j, j < k → ∀ h : j < groups.length,
          t.written (s.sp.toNat + j) = some (i2w s.params.numConv groups[j])) ∧
        KeepsSlots s t (fun a => s.sp.toNat ≤ a ∧ a < s.sp.toNat + k)) ∧
    (∀ k, i = .inc → 1 ≤ s.sp.toNat →
      k = min (min (ops - 2) (toU s.params.bitw (s.slot (s.sp.toNat - 1)))) (s.stackCap.toNat - (s.sp.toNat - 1)) →
      ∃ t, serve (.rst ops) s = .next t ∧
        (∀ a, s.sp.toNat - 1 ≤ a → a < s.sp.toNat - 1 + k → t.written a = some plusZero) ∧
        KeepsSlots s t (fun a => s.sp.toNat - 1 ≤ a ∧ a < s.sp.toNat - 1 + k)) ∧
    (i = .rot → 2 ≤ s.sp.toNat →
      ∃ t, serve (.rst ops) s = .next t ∧
        t.written (s.sp.toNat - 1) =
          (if ops < 4 then s.written (s.sp.toNat - 1) else some (s.slot (s.sp.toNat - 2))) ∧
        t.written (s.sp.toNat - 2) =
          (if ops < 5 then s.written (s.sp.toNat - 2) else some (s.slot (s.sp.toNat - 1))) ∧
        KeepsSlots s t (fun a => a = s.sp.toNat - 1 ∨ a = s.sp.toNat - 2)) ∧
    (i = .inc ∧ s.sp = 0 ∨ i = .rot ∧ s.sp.toNat < 2 → ∃ t, serve (.rst ops) s = .next t ∧ t.stk = s.stk) ∧
    (∀ n, opsBeforeStore i = some n →
      ∃ t u, serve (.rst ops) s = .next t ∧ step s = .next u ∧ t.stk = if ops ≤ n then s.stk else u.stk) ∧
    (opsBeforeStore i = none → (∀ w groups, i ≠ .arr w groups) → i ≠ .inc → i ≠ .rot →
      ∃ t, serve (.rst ops) s = .next t ∧ t.stk = s.stk)

/-- R16, R71, R72, R140, R153, R155: a pulse that comes while the CORE is busy or Halted changes nothing; else
`host_step` starts a step and `host_run` a run, and `busy` shows it. A started step is `Step()` and then nothing is in
progress; a started run is `Run()`, and it stays busy as long as IC is 0, however many steps have gone by. An idle CORE
changes nothing. -/
def Obligations.PulsesStartStepsAndRuns : Prop :=
  ∀ s : State,
    (s.busy = true ∨ s.halted = true → serve .hostStep s = .next s ∧ serve .hostRun s = .next s) ∧
    (s.busy = false → s.halted = false →
      (∃ t, serve .hostStep s = .next t ∧ t = { s with activity := .stepping } ∧ t.busy = true) ∧
      (∃ t, serve .hostRun s = .next t ∧ t = { s with activity := .running } ∧ t.busy = true)) ∧
    (∀ (n : Nat) (t : State), s.activity = .stepping → step s = .next t →
      ∃ u, serve (.wait (n + 1)) s = .next u ∧ u = { t with activity := .idle } ∧ u.busy = false) ∧
    (∀ (n : Nat) (t : State), s.activity = .running → runSteps n s = .next t →
      ∃ u, serve (.wait n) s = .next u ∧ u.busy = (t.ic == 0) ∧
        u = { t with activity := if t.ic = 0 then .running else .idle }) ∧
    (∀ n : Nat, s.activity = .idle → s.busy = false ∧ serve (.wait n) s = .next s)

/-- R142 to R144, R146: after the host's load the machine is reset, the program space holds the loaded bytes, the sizes
are the given ones, and the stack slots within the new capacity are as before. -/
def Obligations.LoadPlacesTheProgram : Prop :=
  ∀ (s : State) (program : List Byte) (cap : BitVec 32), program.length < 2 ^ 32 →
    ∃ t, serve (.load program cap) s = .next t ∧ t.ic = 0 ∧ t.pc = 0 ∧ t.sp = 0 ∧
      t.progLen.toNat = program.length ∧ t.stackCap = cap ∧ t.params = s.params ∧
      (∀ k, ∀ h : k < program.length, t.progByte k = program[k]) ∧
      (∀ i, i < cap.toNat → t.written i = s.written i)

/-! ### The whole machine -/

/-- The machine right after reset is sound. The model's choices in that state (assumptions 2 and 3) are not claimed. -/
def Obligations.ResetIsSound : Prop :=
  State.reset.Inv ∧ State.reset.params.WellFormed ∧ State.reset.ic = 0 ∧ State.reset.pc = 0 ∧ State.reset.sp = 0

/-- R33: after reset, whatever the program and the sizes, `0 <= PC <= PROG_LEN` and `0 <= SP <= STACK_CAP`; every step
keeps that, and a nonzero IC never changes. -/
def Obligations.StepKeepsTheBounds : Prop :=
  (∀ s : State, s.applyReset.Bounded) ∧
  ∀ s t : State, s.Bounded → step s = .next t → t.Bounded ∧ (s.ic ≠ 0 → t.ic = s.ic)

/-- R28, R33, R107, R122: every step keeps the whole invariant: the bounds, the canonical form of both memories,
every live slot written, one NaN pattern, and IC in its classes. -/
def Obligations.StepKeepsTheInvariant : Prop :=
  ∀ s t : State, s.Inv → step s = .next t → t.Inv

/-- R146, R148: every host request keeps the whole invariant, so every state that any use of the machine reaches from
reset has it. -/
def Obligations.HostRequestsKeepTheInvariant : Prop :=
  ∀ (r : HostRequest) (s t : State), s.Inv → serve r s = .next t → t.Inv

/-- R68, R75: from every state within the bounds of R33 a step has a next state: no step faults or refuses, whatever
the program, the stack and the parameters are. -/
def Obligations.StepAlwaysHasANextState : Prop :=
  ∀ s : State, s.Bounded → ∃ t, step s = .next t

/-- R36, R55: no step writes the program or its length. That no step writes the capacity, the parameters or the activity
either is the model's reading of R6, R16, R31 and R81, which give them to the host (log entries 1 and 17). -/
def Obligations.StepNeverWritesTheProgram : Prop :=
  ∀ s t : State, step s = .next t → KeepsHostSide s t

/-- R28, R82: no program can observe a slot at or above SP: two states that differ only there step to states that
differ only there. -/
def Obligations.StaleSlotsAreInvisible : Prop :=
  ∀ s s' t : State, SameToProgram s s' → step s = .next t → ∃ t', step s' = .next t' ∧ SameToProgram t t'
end

