-- ==== Sys2Proof/Laws/State.lean ====
section
/-! SUPPORT. One lemma per field per update of `State` (true by rfl), for simp. -/

namespace Sys2Proof.Machine

variable (s : State)

@[simp] theorem State.setIc_ic (v : BitVec 16) : (s.setIc v).ic = v := rfl
@[simp] theorem State.setIc_pc (v : BitVec 16) : (s.setIc v).pc = s.pc := rfl
@[simp] theorem State.setIc_sp (v : BitVec 16) : (s.setIc v).sp = s.sp := rfl
@[simp] theorem State.setIc_prog (v : BitVec 16) : (s.setIc v).prog = s.prog := rfl
@[simp] theorem State.setIc_progLen (v : BitVec 16) : (s.setIc v).progLen = s.progLen := rfl
@[simp] theorem State.setIc_stk (v : BitVec 16) : (s.setIc v).stk = s.stk := rfl
@[simp] theorem State.setIc_stackCap (v : BitVec 16) : (s.setIc v).stackCap = s.stackCap := rfl
@[simp] theorem State.setIc_params (v : BitVec 16) : (s.setIc v).params = s.params := rfl
@[simp] theorem State.setIc_activity (v : BitVec 16) : (s.setIc v).activity = s.activity := rfl

@[simp] theorem State.setPc_ic (v : BitVec 32) : (s.setPc v).ic = s.ic := rfl
@[simp] theorem State.setPc_pc (v : BitVec 32) : (s.setPc v).pc = v := rfl
@[simp] theorem State.setPc_sp (v : BitVec 32) : (s.setPc v).sp = s.sp := rfl
@[simp] theorem State.setPc_prog (v : BitVec 32) : (s.setPc v).prog = s.prog := rfl
@[simp] theorem State.setPc_progLen (v : BitVec 32) : (s.setPc v).progLen = s.progLen := rfl
@[simp] theorem State.setPc_stk (v : BitVec 32) : (s.setPc v).stk = s.stk := rfl
@[simp] theorem State.setPc_stackCap (v : BitVec 32) : (s.setPc v).stackCap = s.stackCap := rfl
@[simp] theorem State.setPc_params (v : BitVec 32) : (s.setPc v).params = s.params := rfl
@[simp] theorem State.setPc_activity (v : BitVec 32) : (s.setPc v).activity = s.activity := rfl

@[simp] theorem State.setSp_ic (v : BitVec 32) : (s.setSp v).ic = s.ic := rfl
@[simp] theorem State.setSp_pc (v : BitVec 32) : (s.setSp v).pc = s.pc := rfl
@[simp] theorem State.setSp_sp (v : BitVec 32) : (s.setSp v).sp = v := rfl
@[simp] theorem State.setSp_prog (v : BitVec 32) : (s.setSp v).prog = s.prog := rfl
@[simp] theorem State.setSp_progLen (v : BitVec 32) : (s.setSp v).progLen = s.progLen := rfl
@[simp] theorem State.setSp_stk (v : BitVec 32) : (s.setSp v).stk = s.stk := rfl
@[simp] theorem State.setSp_stackCap (v : BitVec 32) : (s.setSp v).stackCap = s.stackCap := rfl
@[simp] theorem State.setSp_params (v : BitVec 32) : (s.setSp v).params = s.params := rfl
@[simp] theorem State.setSp_activity (v : BitVec 32) : (s.setSp v).activity = s.activity := rfl

@[simp] theorem State.setSlot_ic (i : Nat) (v : Word) : (s.setSlot i v).ic = s.ic := rfl
@[simp] theorem State.setSlot_pc (i : Nat) (v : Word) : (s.setSlot i v).pc = s.pc := rfl
@[simp] theorem State.setSlot_sp (i : Nat) (v : Word) : (s.setSlot i v).sp = s.sp := rfl
@[simp] theorem State.setSlot_prog (i : Nat) (v : Word) : (s.setSlot i v).prog = s.prog := rfl
@[simp] theorem State.setSlot_progLen (i : Nat) (v : Word) : (s.setSlot i v).progLen = s.progLen := rfl
@[simp] theorem State.setSlot_stk (i : Nat) (v : Word) : (s.setSlot i v).stk = Memory.write stkUnlisted i v s.stk := rfl
@[simp] theorem State.setSlot_stackCap (i : Nat) (v : Word) : (s.setSlot i v).stackCap = s.stackCap := rfl
@[simp] theorem State.setSlot_params (i : Nat) (v : Word) : (s.setSlot i v).params = s.params := rfl
@[simp] theorem State.setSlot_activity (i : Nat) (v : Word) : (s.setSlot i v).activity = s.activity := rfl

@[simp] theorem State.applyReset_ic : s.applyReset.ic = 0 := rfl
@[simp] theorem State.applyReset_pc : s.applyReset.pc = 0 := rfl
@[simp] theorem State.applyReset_sp : s.applyReset.sp = 0 := rfl
@[simp] theorem State.applyReset_prog : s.applyReset.prog = s.prog := rfl
@[simp] theorem State.applyReset_progLen : s.applyReset.progLen = s.progLen := rfl
@[simp] theorem State.applyReset_stk : s.applyReset.stk = s.stk := rfl
@[simp] theorem State.applyReset_stackCap : s.applyReset.stackCap = s.stackCap := rfl
@[simp] theorem State.applyReset_params : s.applyReset.params = s.params := rfl
@[simp] theorem State.applyReset_activity : s.applyReset.activity = .idle := rfl

@[simp] theorem State.setActivity_ic (a : Activity) : (s.setActivity a).ic = s.ic := rfl
@[simp] theorem State.setActivity_pc (a : Activity) : (s.setActivity a).pc = s.pc := rfl
@[simp] theorem State.setActivity_sp (a : Activity) : (s.setActivity a).sp = s.sp := rfl
@[simp] theorem State.setActivity_prog (a : Activity) : (s.setActivity a).prog = s.prog := rfl
@[simp] theorem State.setActivity_progLen (a : Activity) : (s.setActivity a).progLen = s.progLen := rfl
@[simp] theorem State.setActivity_stk (a : Activity) : (s.setActivity a).stk = s.stk := rfl
@[simp] theorem State.setActivity_stackCap (a : Activity) : (s.setActivity a).stackCap = s.stackCap := rfl
@[simp] theorem State.setActivity_params (a : Activity) : (s.setActivity a).params = s.params := rfl
@[simp] theorem State.setActivity_activity (a : Activity) : (s.setActivity a).activity = a := rfl
@[simp] theorem State.setActivity_written (a : Activity) (j : Nat) : (s.setActivity a).written j = s.written j := rfl
@[simp] theorem State.setActivity_slot (a : Activity) (j : Nat) : (s.setActivity a).slot j = s.slot j := rfl

@[simp] theorem State.setIc_progByte (v : BitVec 16) (a : Nat) : (s.setIc v).progByte a = s.progByte a := rfl
@[simp] theorem State.setPc_progByte (v : BitVec 32) (a : Nat) : (s.setPc v).progByte a = s.progByte a := rfl
@[simp] theorem State.setSp_progByte (v : BitVec 32) (a : Nat) : (s.setSp v).progByte a = s.progByte a := rfl
@[simp] theorem State.setSlot_progByte (i : Nat) (v : Word) (a : Nat) : (s.setSlot i v).progByte a = s.progByte a := rfl
@[simp] theorem State.setIc_written (v : BitVec 16) (j : Nat) : (s.setIc v).written j = s.written j := rfl
@[simp] theorem State.setIc_slot (v : BitVec 16) (j : Nat) : (s.setIc v).slot j = s.slot j := rfl
@[simp] theorem State.setPc_written (v : BitVec 32) (j : Nat) : (s.setPc v).written j = s.written j := rfl
@[simp] theorem State.setPc_slot (v : BitVec 32) (j : Nat) : (s.setPc v).slot j = s.slot j := rfl
@[simp] theorem State.setSp_written (v : BitVec 32) (j : Nat) : (s.setSp v).written j = s.written j := rfl
@[simp] theorem State.setSp_slot (v : BitVec 32) (j : Nat) : (s.setSp v).slot j = s.slot j := rfl

/-- A fault request writes at most IC (R119, R120). -/
theorem State.requestFault_eq (code : BitVec 16) :
    s.requestFault code = s.setIc (if s.ic = 0 then code else s.ic) := by
  unfold State.requestFault; split <;> rfl

@[simp] theorem State.requestFault_pc (code : BitVec 16) : (s.requestFault code).pc = s.pc := by
  rw [State.requestFault_eq]; rfl
@[simp] theorem State.requestFault_sp (code : BitVec 16) : (s.requestFault code).sp = s.sp := by
  rw [State.requestFault_eq]; rfl
@[simp] theorem State.requestFault_prog (code : BitVec 16) : (s.requestFault code).prog = s.prog := by
  rw [State.requestFault_eq]; rfl
@[simp] theorem State.requestFault_progLen (code : BitVec 16) : (s.requestFault code).progLen = s.progLen := by
  rw [State.requestFault_eq]; rfl
@[simp] theorem State.requestFault_stk (code : BitVec 16) : (s.requestFault code).stk = s.stk := by
  rw [State.requestFault_eq]; rfl
@[simp] theorem State.requestFault_stackCap (code : BitVec 16) : (s.requestFault code).stackCap = s.stackCap := by
  rw [State.requestFault_eq]; rfl
@[simp] theorem State.requestFault_params (code : BitVec 16) : (s.requestFault code).params = s.params := by
  rw [State.requestFault_eq]; rfl
@[simp] theorem State.requestFault_activity (code : BitVec 16) : (s.requestFault code).activity = s.activity := by
  rw [State.requestFault_eq]; rfl
@[simp] theorem State.requestFault_progByte (code : BitVec 16) (a : Nat) :
    (s.requestFault code).progByte a = s.progByte a := by
  rw [State.requestFault_eq]; rfl
@[simp] theorem State.requestFault_written (code : BitVec 16) (j : Nat) :
    (s.requestFault code).written j = s.written j := by
  rw [State.requestFault_eq]; rfl
@[simp] theorem State.requestFault_slot (code : BitVec 16) (j : Nat) :
    (s.requestFault code).slot j = s.slot j := by
  rw [State.requestFault_eq]; rfl

theorem State.requestFault_ic (code : BitVec 16) :
    (s.requestFault code).ic = if s.ic = 0 then code else s.ic := by
  rw [State.requestFault_eq]; rfl

/-- In a Running state a fault request writes its code. -/
theorem State.requestFault_running (code : BitVec 16) (h : s.ic = 0) : s.requestFault code = s.setIc code := by
  rw [State.requestFault_eq, if_pos h]

end Sys2Proof.Machine
end

