-- ==== Sys2Proof/Laws/Memory.lean ====
section
/-! SUPPORT. The laws of a memory of cells: what a read gives after a write, and the canonical form. -/

namespace Sys2Proof.Machine

section
variable {α : Type}

@[simp] theorem Memory.read_nil (a : Nat) : Memory.read ([] : Memory α) a = none := rfl

theorem Memory.read_insert (a b : Nat) (v : α) (m : Memory α) :
    Memory.read (Memory.insert a v m) b = if b = a then some v else Memory.read m b := by
  induction m with
  | nil => simp [Memory.insert, Memory.read]
  | cons c rest ih =>
    obtain ⟨x, u⟩ := c
    simp only [Memory.insert]
    split
    · simp [Memory.read]
    · split
      · subst a; simp only [Memory.read]; split <;> rfl
      · simp only [Memory.read, ih]
        split
        · next hbx => subst hbx; rw [if_neg (by omega)]
        · rfl

theorem Memory.read_erase (a b : Nat) (m : Memory α) :
    Memory.read (Memory.erase a m) b = if b = a then none else Memory.read m b := by
  induction m with
  | nil => simp [Memory.erase, Memory.read]
  | cons c rest ih =>
    obtain ⟨x, u⟩ := c
    simp only [Memory.erase] at ih ⊢
    by_cases hx : x = a
    · subst hx
      rw [List.filter_cons_of_neg (by simp), ih]
      by_cases hb : b = x <;> simp [Memory.read, hb]
    · rw [List.filter_cons_of_pos (by simpa using hx)]
      simp only [Memory.read, ih]
      by_cases hb : b = x
      · subst hb; simp [hx]
      · simp [hb]

theorem Memory.mem_insert {a : Nat} {v : α} {m : Memory α} {c : Nat × α} (h : c ∈ Memory.insert a v m) :
    c = (a, v) ∨ c ∈ m := by
  induction m with
  | nil => simpa [Memory.insert] using h
  | cons d rest ih =>
    obtain ⟨x, u⟩ := d
    simp only [Memory.insert] at h
    split at h
    · simpa using h
    · split at h
      · rcases List.mem_cons.mp h with h | h
        · exact .inl h
        · exact .inr (List.mem_cons_of_mem _ h)
      · rcases List.mem_cons.mp h with h | h
        · exact .inr (h ▸ List.mem_cons_self ..)
        · exact (ih h).imp id (List.mem_cons_of_mem _)

/-- Keeping the cells of some addresses leaves what those addresses read as. -/
theorem Memory.read_filter (m : Memory α) (p : Nat → Bool) (i : Nat) (hp : p i = true) :
    Memory.read (m.filter (fun c => p c.1) : Memory α) i = Memory.read m i := by
  induction m with
  | nil => rfl
  | cons c rest ih =>
    obtain ⟨b, u⟩ := c
    by_cases hb : p b = true
    · rw [List.filter_cons_of_pos (by exact hb)]; simp only [Memory.read, ih]
    · rw [List.filter_cons_of_neg (by exact hb)]
      simp only [Memory.read]
      rw [if_neg (by rintro rfl; exact hb hp)]; exact ih

/-- Insertion keeps the addresses strictly rising. -/
theorem Memory.insert_sorted (a : Nat) (v : α) (m : Memory α) (h : m.Pairwise (fun x y => x.1 < y.1)) :
    (Memory.insert a v m).Pairwise (fun x y => x.1 < y.1) := by
  induction m with
  | nil => simp [Memory.insert]
  | cons c rest ih =>
    obtain ⟨x, u⟩ := c
    obtain ⟨hx, hr⟩ := List.pairwise_cons.mp h
    simp only [Memory.insert]
    split
    · next hax =>
      refine List.pairwise_cons.mpr ⟨?_, h⟩
      intro d hd
      rcases List.mem_cons.mp hd with rfl | hd
      · exact hax
      · exact Nat.lt_trans hax (hx d hd)
    · split
      · next hax => subst hax; exact List.pairwise_cons.mpr ⟨hx, hr⟩
      · refine List.pairwise_cons.mpr ⟨?_, ih hr⟩
        intro d hd
        rcases Memory.mem_insert hd with rfl | hd
        · simp only; omega
        · exact hx d hd

variable [DecidableEq α]

/-- Read after write, where the value written is not what an unlisted address reads as. -/
theorem Memory.read_write (unl : Option α) (a b : Nat) (v : α) (m : Memory α) :
    (Memory.read (Memory.write unl a v m) b).or unl = if b = a then some v else (Memory.read m b).or unl := by
  unfold Memory.write
  split
  · next h => rw [Memory.read_erase]; split <;> simp [h]
  · rw [Memory.read_insert]; split <;> simp

theorem Memory.mem_write {unl : Option α} {a : Nat} {v : α} {m : Memory α} {c : Nat × α}
    (h : c ∈ Memory.write unl a v m) : (c = (a, v) ∧ some v ≠ unl) ∨ c ∈ m := by
  unfold Memory.write at h
  split at h
  · exact .inr (List.mem_of_mem_filter h)
  · next hv => exact (Memory.mem_insert h).imp (fun e => ⟨e, hv⟩) id

/-- A write keeps the canonical form. -/
theorem Memory.write_wf (unl : Option α) (a : Nat) (v : α) (m : Memory α) (h : Memory.wf unl m) :
    Memory.wf unl (Memory.write unl a v m) := by
  refine ⟨?_, ?_⟩
  · unfold Memory.write
    split
    · exact List.Pairwise.filter _ h.1
    · exact Memory.insert_sorted a v m h.1
  · intro c hc
    rcases Memory.mem_write hc with ⟨rfl, hv⟩ | hc
    · exact hv
    · exact h.2 c hc

/-- Keeping some of the cells keeps the canonical form. -/
theorem Memory.filter_wf (unl : Option α) (p : Nat × α → Bool) (m : Memory α) (h : Memory.wf unl m) :
    Memory.wf unl (m.filter p : Memory α) :=
  ⟨List.Pairwise.filter _ h.1, fun c hc => h.2 c (List.mem_of_mem_filter hc)⟩

/-- Writing a list keeps the canonical form. -/
theorem Memory.writeList_wf (unl : Option α) (a : Nat) (vs : List α) (m : Memory α) (h : Memory.wf unl m) :
    Memory.wf unl (Memory.writeList unl a vs m) := by
  induction vs generalizing a m with
  | nil => exact h
  | cons v vs ih => exact ih (a + 1) _ (Memory.write_wf unl a v m h)

theorem Memory.mem_writeList {unl : Option α} {a : Nat} {vs : List α} {m : Memory α} {c : Nat × α}
    (h : c ∈ Memory.writeList unl a vs m) : c ∈ m ∨ (a ≤ c.1 ∧ c.1 < a + vs.length) := by
  induction vs generalizing a m with
  | nil => exact .inl h
  | cons v vs ih =>
    rcases ih h with h | h
    · rcases Memory.mem_write h with ⟨rfl, -⟩ | h
      · refine .inr ⟨?_, ?_⟩ <;> simp
      · exact .inl h
    · refine .inr ⟨?_, ?_⟩
      · omega
      · simp only [List.length_cons]; omega

/-- Reading what a list of writes left. -/
theorem Memory.read_writeList (unl : Option α) (a b : Nat) (vs : List α) (m : Memory α) :
    (Memory.read (Memory.writeList unl a vs m) b).or unl =
      if a ≤ b ∧ b < a + vs.length then vs[b - a]? else (Memory.read m b).or unl := by
  induction vs generalizing a m with
  | nil => simp only [Memory.writeList, List.length_nil]; rw [if_neg (by omega)]
  | cons v vs ih =>
    simp only [Memory.writeList, ih, List.length_cons, Memory.read_write]
    by_cases h : b = a
    · subst h; simp
    · by_cases h2 : a + 1 ≤ b ∧ b < a + 1 + vs.length
      · rw [if_pos h2, if_pos (by omega), show b - a = (b - (a + 1)) + 1 by omega]; simp
      · rw [if_neg h2, if_neg h, if_neg (by omega)]

end

/-- The stack has no value for an unlisted slot, so a write always lists its slot. -/
theorem Memory.write_stk (i : Nat) (v : Word) (m : Memory Word) :
    Memory.write stkUnlisted i v m = Memory.insert i v m := by
  simp [Memory.write, stkUnlisted]

@[simp] theorem State.setSlot_written (s : State) (i j : Nat) (v : Word) :
    (s.setSlot i v).written j = if j = i then some v else s.written j := by
  simp [State.written, State.setSlot, Memory.write_stk, Memory.read_insert]

@[simp] theorem State.setSlot_slot (s : State) (i j : Nat) (v : Word) :
    (s.setSlot i v).slot j = if j = i then v else s.slot j := by
  simp only [State.slot, State.setSlot_written]; split <;> rfl

/-- Both memories of the reset state are in canonical form. -/
theorem State.reset_canonical : State.reset.Canonical := by
  refine ⟨⟨List.Pairwise.nil, ?_⟩, ?_, ⟨List.Pairwise.nil, ?_⟩, ?_⟩ <;> intro c hc <;> cases hc

end Sys2Proof.Machine
end

