-- ==== Sys2Proof/Laws/Ops.lean ====
section
/-! SUPPORT. For each shared operation, what it does: one equation per case, and one lemma that says once everything
it can do. Proofs cite these instead of unfolding the operation. -/

namespace Sys2Proof.Machine

variable {s : State}

/-! ### Sequencing -/

@[simp] theorem Res.ok_andThen {α β : Type} (a : α) (s : State) (k : α → State → Res β) :
    (Res.ok a s).andThen k = k a s := rfl
@[simp] theorem Res.raised_andThen {α β : Type} (s : State) (k : α → State → Res β) :
    (Res.raised s : Res α).andThen k = .raised s := rfl
@[simp] theorem Res.stopped_andThen {α β : Type} (f : Fault) (k : α → State → Res β) :
    (Res.stopped f : Res α).andThen k = .stopped f := rfl
@[simp] theorem Res.ok_outcome {α : Type} (a : α) (s : State) : (Res.ok a s).outcome = .next s := rfl
@[simp] theorem Res.raised_outcome {α : Type} (s : State) : (Res.raised s : Res α).outcome = .next s := rfl
@[simp] theorem Res.stopped_outcome {α : Type} (f : Fault) : (Res.stopped f : Res α).outcome = .fault f := rfl
@[simp] theorem raise_eq {α : Type} (code : BitVec 16) (s : State) :
    (raise code s : Res α) = .raised (s.requestFault code) := rfl

/-! ### Scripts -/

@[simp] theorem Script.run_done (s : State) : Script.done.run s = .ok () s := rfl
@[simp] theorem Script.run_op {β : Type} (p : State → Res β) (k : β → State → Script) (s : State) :
    (Script.op p k).run s = (p s).andThen fun b t => (k b t).run t := rfl
@[simp] theorem Script.run_lastly {β : Type} (p : State → Res β) (s : State) :
    (lastly p).run s = (p s).andThen fun _ t => .ok () t := rfl
@[simp] theorem Script.runFirst_zero (c : Script) (s : State) : Script.runFirst 0 c s = s := rfl
@[simp] theorem Script.runFirst_done (n : Nat) (s : State) : Script.runFirst n .done s = s := by cases n <;> rfl

theorem Script.runFirst_ok {β : Type} {p : State → Res β} {k : β → State → Script} {s t : State} {b : β}
    (h : p s = .ok b t) (n : Nat) : Script.runFirst (n + 1) (.op p k) s = Script.runFirst n (k b t) t := by
  simp only [Script.runFirst, h]

theorem Script.runFirst_raised {β : Type} {p : State → Res β} {k : β → State → Script} {s t : State}
    (h : p s = .raised t) (n : Nat) : Script.runFirst (n + 1) (.op p k) s = t := by
  simp only [Script.runFirst, h]

@[simp] theorem Res.andThen_ok (r : Res Unit) : (r.andThen fun _ t => .ok () t) = r := by cases r <;> rfl

theorem Res.andThen_assoc {α β γ : Type} (r : Res α) (k : α → State → Res β) (l : β → State → Res γ) :
    (r.andThen k).andThen l = r.andThen fun a s => (k a s).andThen l := by
  cases r <;> rfl

/-! ### Fetch -/

theorem fetch_ok (h : s.pc.toNat < s.progLen.toNat) :
    fetch s = .ok (s.progByte s.pc.toNat) (s.setPc (s.pc + 1)) := by
  unfold fetch
  rw [if_neg (by intro he; rw [he] at h; omega), if_neg (by rw [BitVec.lt_def]; omega)]

theorem fetch_end (h : s.pc = s.progLen) : fetch s = .raised (s.requestFault endOfProgram) := by
  unfold fetch; rw [if_pos h]; rfl

theorem fetch_beyond (h : s.progLen.toNat < s.pc.toNat) : fetch s = .stopped .programAddress := by
  unfold fetch
  rw [if_neg (by intro he; rw [he] at h; omega), if_pos (by rw [BitVec.lt_def]; omega)]

/-- Everything a Fetch can do (R37). -/
theorem fetch_cases (s : State) :
    (s.pc.toNat < s.progLen.toNat ∧ fetch s = .ok (s.progByte s.pc.toNat) (s.setPc (s.pc + 1))) ∨
    (s.pc = s.progLen ∧ fetch s = .raised (s.requestFault endOfProgram)) ∨
    (s.progLen.toNat < s.pc.toNat ∧ fetch s = .stopped .programAddress) := by
  rcases Nat.lt_trichotomy s.pc.toNat s.progLen.toNat with h | h | h
  · exact .inl ⟨h, fetch_ok h⟩
  · have h := BitVec.eq_of_toNat_eq h
    exact .inr (.inl ⟨h, fetch_end h⟩)
  · exact .inr (.inr ⟨h, fetch_beyond h⟩)

/-- PC does not wrap below the end of the program (R22). -/
theorem pc_add_toNat {n : Nat} (h : s.pc.toNat + n ≤ s.progLen.toNat) :
    (s.pc + BitVec.ofNat 32 n).toNat = s.pc.toNat + n := by
  have := s.progLen.isLt
  rw [BitVec.toNat_add, BitVec.toNat_ofNat, Nat.mod_eq_of_lt (a := n) (by omega), Nat.mod_eq_of_lt (by omega)]

/-- PC moved twice. -/
theorem setPc_setPc (s : State) (n : Nat) :
    (s.setPc (s.pc + 1)).setPc ((s.setPc (s.pc + 1)).pc + BitVec.ofNat 32 n) =
      s.setPc (s.pc + BitVec.ofNat 32 (n + 1)) := by
  have h : s.pc + 1 + BitVec.ofNat 32 n = s.pc + BitVec.ofNat 32 (n + 1) := by
    rw [BitVec.add_assoc]; congr 1
    apply BitVec.eq_of_toNat_eq
    simp [Nat.add_comm]
  show State.mk s.ic (s.pc + 1 + BitVec.ofNat 32 n) s.sp s.prog s.progLen s.stk s.stackCap s.params s.activity = _
  rw [h]; rfl

/-- Fetches that the program's end allows advance PC. -/
theorem fetches_ok {n : Nat} (h : s.pc.toNat + n ≤ s.progLen.toNat) (k : Script) :
    (fetches n k).run s = k.run (s.setPc (s.pc + BitVec.ofNat 32 n)) := by
  induction n generalizing s with
  | zero => simp [fetches, State.setPc]
  | succ n ih =>
    have h1 : (s.pc + 1).toNat = s.pc.toNat + 1 := pc_add_toNat (n := 1) (by omega)
    rw [fetches, Script.run_op, fetch_ok (by omega), Res.ok_andThen,
      ih (by simp only [State.setPc_pc, State.setPc_progLen, h1]; omega), setPc_setPc]

/-- Fetches that run past the program's end raise end of program with PC at PROG_LEN (R125). -/
theorem fetches_end {n : Nat} (h1 : s.pc.toNat ≤ s.progLen.toNat) (h2 : s.progLen.toNat < s.pc.toNat + n)
    (k : Script) : (fetches n k).run s = .raised ((s.setPc s.progLen).requestFault endOfProgram) := by
  induction n generalizing s with
  | zero => omega
  | succ n ih =>
    rw [fetches, Script.run_op]
    by_cases he : s.pc.toNat = s.progLen.toNat
    · have he := BitVec.eq_of_toNat_eq he
      rw [fetch_end he, Res.raised_andThen, ← he]; rfl
    · have h3 : (s.pc + 1).toNat = s.pc.toNat + 1 := pc_add_toNat (n := 1) (by omega)
      rw [fetch_ok (by omega), Res.ok_andThen,
        ih (by simp only [State.setPc_pc, State.setPc_progLen, h3]; omega)
          (by simp only [State.setPc_pc, State.setPc_progLen, h3]; omega)]
      rfl

theorem fetches_beyond {n : Nat} (h : s.progLen.toNat < s.pc.toNat) (k : Script) :
    (fetches (n + 1) k).run s = .stopped .programAddress := by
  rw [fetches, Script.run_op, fetch_beyond h]; rfl

/-- The Fetches on their own, and then the rest. -/
theorem fetches_run (n : Nat) (k : Script) (s : State) :
    (fetches n k).run s = ((fetches n .done).run s).andThen fun _ t => k.run t := by
  induction n generalizing s with
  | zero => rfl
  | succ n ih =>
    simp only [fetches, Script.run_op, Res.andThen_assoc]
    congr 1; funext _ t; exact ih t

theorem fetches_add (m n : Nat) (k : Script) : fetches (m + n) k = fetches m (fetches n k) := by
  induction m with
  | zero => rw [Nat.zero_add]; rfl
  | succ m ih => rw [Nat.succ_add, fetches, ih, fetches]

/-- Everything that `n` Fetches can do. -/
theorem fetches_cases (n : Nat) (k : Script) (s : State) :
    (s.pc.toNat + n ≤ s.progLen.toNat ∧ (fetches n k).run s = k.run (s.setPc (s.pc + BitVec.ofNat 32 n))) ∨
    (s.pc.toNat ≤ s.progLen.toNat ∧ s.progLen.toNat < s.pc.toNat + n ∧
      (fetches n k).run s = .raised ((s.setPc s.progLen).requestFault endOfProgram)) ∨
    (s.progLen.toNat < s.pc.toNat ∧ n ≠ 0 ∧ (fetches n k).run s = .stopped .programAddress) ∨
    (s.progLen.toNat < s.pc.toNat ∧ n = 0 ∧ (fetches n k).run s = k.run s) := by
  by_cases h : s.progLen.toNat < s.pc.toNat
  · cases n with
    | zero => exact .inr (.inr (.inr ⟨h, rfl, rfl⟩))
    | succ n => exact .inr (.inr (.inl ⟨h, by omega, fetches_beyond h k⟩))
  · by_cases h2 : s.pc.toNat + n ≤ s.progLen.toNat
    · exact .inl ⟨h2, fetches_ok h2 k⟩
    · exact .inr (.inl ⟨by omega, by omega, fetches_end (by omega) (by omega) k⟩)

/-- The first primitives of an instruction are its Fetches. -/
theorem runFirst_fetches {n : Nat} (h : s.pc.toNat + n ≤ s.progLen.toNat) (k : Script) (ops : Nat) :
    Script.runFirst (n + ops) (fetches n k) s = Script.runFirst ops k (s.setPc (s.pc + BitVec.ofNat 32 n)) := by
  induction n generalizing s with
  | zero => simp [fetches, State.setPc]
  | succ n ih =>
    have h1 : (s.pc + 1).toNat = s.pc.toNat + 1 := pc_add_toNat (n := 1) (by omega)
    rw [fetches, show n + 1 + ops = n + ops + 1 by omega, Script.runFirst_ok (fetch_ok (by omega)),
      ih (by simp only [State.setPc_pc, State.setPc_progLen, h1]; omega), setPc_setPc]

/-- Some of the Fetches of an instruction change PC at most. -/
theorem runFirst_few_fetches {n ops : Nat} (h : s.pc.toNat + n ≤ s.progLen.toNat) (ho : ops ≤ n) (k : Script) :
    Script.runFirst ops (fetches n k) s = s.setPc (s.pc + BitVec.ofNat 32 ops) := by
  obtain ⟨m, rfl⟩ : ∃ m, n = ops + m := ⟨n - ops, by omega⟩
  rw [fetches_add]
  simpa using runFirst_fetches (n := ops) (by omega) (fetches m k) 0

/-! ### Push and Pop -/

theorem push_ok {v : Word} (h : s.sp.toNat < s.stackCap.toNat) :
    push v s = .ok () ((s.setSlot s.sp.toNat v).setSp (s.sp + 1)) := by
  unfold push
  rw [if_neg (by intro he; rw [he] at h; omega), if_neg (by rw [BitVec.lt_def]; omega)]

theorem push_full {v : Word} (h : s.sp = s.stackCap) : push v s = .raised (s.requestFault stackOverflow) := by
  unfold push; rw [if_pos h]; rfl

theorem push_beyond {v : Word} (h : s.stackCap.toNat < s.sp.toNat) : push v s = .stopped .stackAddress := by
  unfold push
  rw [if_neg (by intro he; rw [he] at h; omega), if_pos (by rw [BitVec.lt_def]; omega)]

/-- Everything a Push can do (R38). -/
theorem push_cases (v : Word) (s : State) :
    (s.sp.toNat < s.stackCap.toNat ∧ push v s = .ok () ((s.setSlot s.sp.toNat v).setSp (s.sp + 1))) ∨
    (s.sp = s.stackCap ∧ push v s = .raised (s.requestFault stackOverflow)) ∨
    (s.stackCap.toNat < s.sp.toNat ∧ push v s = .stopped .stackAddress) := by
  rcases Nat.lt_trichotomy s.sp.toNat s.stackCap.toNat with h | h | h
  · exact .inl ⟨h, push_ok h⟩
  · have h := BitVec.eq_of_toNat_eq h
    exact .inr (.inl ⟨h, push_full h⟩)
  · exact .inr (.inr ⟨h, push_beyond h⟩)

/-- SP does not wrap below the capacity (R24). -/
theorem sp_succ_toNat (h : s.sp.toNat < s.stackCap.toNat) : (s.sp + 1).toNat = s.sp.toNat + 1 := by
  have := s.stackCap.isLt
  rw [BitVec.toNat_add]
  exact Nat.mod_eq_of_lt (by simp; omega)

/-- SP does not wrap above zero (R24). -/
theorem sp_pred_toNat (h : 0 < s.sp.toNat) : (s.sp - 1).toNat = s.sp.toNat - 1 := by
  have := s.sp.isLt
  rw [BitVec.toNat_sub]
  simp only [BitVec.reduceToNat]
  omega

theorem pop_ok (h1 : 0 < s.sp.toNat) (h2 : s.sp.toNat ≤ s.stackCap.toNat) :
    pop s = .ok (s.slot (s.sp.toNat - 1)) (s.setSp (s.sp - 1)) := by
  unfold pop
  rw [if_neg (by intro he; rw [he] at h1; simp at h1), if_neg (by rw [BitVec.lt_def]; omega), sp_pred_toNat h1]

theorem pop_empty (h : s.sp.toNat = 0) : pop s = .raised (s.requestFault stackUnderflow) := by
  have h : s.sp = 0 := BitVec.eq_of_toNat_eq h
  unfold pop; rw [if_pos h]; rfl

theorem pop_beyond (h : s.stackCap.toNat < s.sp.toNat) : pop s = .stopped .stackAddress := by
  unfold pop
  rw [if_neg (by intro he; rw [he] at h; simp at h), if_pos (by rw [BitVec.lt_def]; omega)]

/-- Everything a Pop can do (R39). -/
theorem pop_cases (s : State) :
    (0 < s.sp.toNat ∧ s.sp.toNat ≤ s.stackCap.toNat ∧
      pop s = .ok (s.slot (s.sp.toNat - 1)) (s.setSp (s.sp - 1))) ∨
    (s.sp.toNat = 0 ∧ pop s = .raised (s.requestFault stackUnderflow)) ∨
    (s.stackCap.toNat < s.sp.toNat ∧ pop s = .stopped .stackAddress) := by
  by_cases h : s.sp.toNat = 0
  · exact .inr (.inl ⟨h, pop_empty h⟩)
  · by_cases h2 : s.stackCap.toNat < s.sp.toNat
    · exact .inr (.inr ⟨h2, pop_beyond h2⟩)
    · exact .inl ⟨by omega, by omega, pop_ok (by omega) (by omega)⟩

/-! ### Indexed access -/

theorem readAt_ok {i : Nat} (h1 : i < s.sp.toNat) (h2 : i < s.stackCap.toNat) :
    readAt i s = .ok (s.slot i) s := by
  unfold readAt; rw [if_neg (by omega), if_neg (by omega)]

theorem readAt_out {i : Nat} (h : s.sp.toNat ≤ i) : readAt i s = .raised (s.requestFault outOfBounds) := by
  unfold readAt; rw [if_pos h]; rfl

/-- Everything a ReadAt can do (R40). -/
theorem readAt_cases (i : Nat) (s : State) :
    (i < s.sp.toNat ∧ i < s.stackCap.toNat ∧ readAt i s = .ok (s.slot i) s) ∨
    (s.sp.toNat ≤ i ∧ readAt i s = .raised (s.requestFault outOfBounds)) ∨
    (i < s.sp.toNat ∧ s.stackCap.toNat ≤ i ∧ readAt i s = .stopped .stackAddress) := by
  by_cases h : s.sp.toNat ≤ i
  · exact .inr (.inl ⟨h, readAt_out h⟩)
  · by_cases h2 : s.stackCap.toNat ≤ i
    · exact .inr (.inr ⟨by omega, h2, by unfold readAt; rw [if_neg h, if_pos h2]⟩)
    · exact .inl ⟨by omega, by omega, readAt_ok (by omega) (by omega)⟩

theorem writeAt_ok {i : Nat} {v : Word} (h1 : i < s.sp.toNat) (h2 : i < s.stackCap.toNat) :
    writeAt i v s = .ok () (s.setSlot i v) := by
  unfold writeAt; rw [if_neg (by omega), if_neg (by omega)]

theorem writeAt_out {i : Nat} {v : Word} (h : s.sp.toNat ≤ i) :
    writeAt i v s = .raised (s.requestFault outOfBounds) := by
  unfold writeAt; rw [if_pos h]; rfl

/-- Everything a WriteAt can do (R41). -/
theorem writeAt_cases (i : Nat) (v : Word) (s : State) :
    (i < s.sp.toNat ∧ i < s.stackCap.toNat ∧ writeAt i v s = .ok () (s.setSlot i v)) ∨
    (s.sp.toNat ≤ i ∧ writeAt i v s = .raised (s.requestFault outOfBounds)) ∨
    (i < s.sp.toNat ∧ s.stackCap.toNat ≤ i ∧ writeAt i v s = .stopped .stackAddress) := by
  by_cases h : s.sp.toNat ≤ i
  · exact .inr (.inl ⟨h, writeAt_out h⟩)
  · by_cases h2 : s.stackCap.toNat ≤ i
    · exact .inr (.inr ⟨by omega, h2, by unfold writeAt; rw [if_neg h, if_pos h2]⟩)
    · exact .inl ⟨by omega, by omega, writeAt_ok (by omega) (by omega)⟩

/-! ### JumpTo -/

theorem jumpTo_ok {a : Nat} (h : a < s.progLen.toNat) : jumpTo a s = .ok () (s.setPc (BitVec.ofNat 32 a)) := by
  unfold jumpTo; rw [if_neg (by omega)]

theorem jumpTo_out {a : Nat} (h : s.progLen.toNat ≤ a) : jumpTo a s = .raised (s.requestFault illegalJump) := by
  unfold jumpTo; rw [if_pos h]; rfl

/-- Everything a JumpTo can do (R42). -/
theorem jumpTo_cases (a : Nat) (s : State) :
    (a < s.progLen.toNat ∧ jumpTo a s = .ok () (s.setPc (BitVec.ofNat 32 a))) ∨
    (s.progLen.toNat ≤ a ∧ jumpTo a s = .raised (s.requestFault illegalJump)) := by
  by_cases h : s.progLen.toNat ≤ a
  · exact .inr ⟨h, jumpTo_out h⟩
  · exact .inl ⟨by omega, jumpTo_ok (by omega)⟩

end Sys2Proof.Machine
end

