-- ==== Sys2Proof/Laws/Decode.lean ====
section
/-! SUPPORT. The laws of the opcode map, of the two sized formats, and of the bytes that the decoder reads ahead. -/

namespace Sys2Proof

/-! ### The opcode map -/

/-- The bytes that are no opcode are those the map does not list (R64). -/
theorem mnemonicOf_eq_none (m : OpcodeMap) (b : Byte) : m.mnemonicOf b = none ↔ b ∉ m.map Prod.fst := by
  induction m with
  | nil => simp [OpcodeMap.mnemonicOf]
  | cons c rest ih =>
    obtain ⟨c, o⟩ := c
    simp only [OpcodeMap.mnemonicOf, List.map_cons, List.mem_cons, not_or]
    split
    · simp [*]
    · simp [*]

theorem mnemonicOf_mem (m : OpcodeMap) (b : Byte) (o : Mnemonic) (h : m.mnemonicOf b = some o) : (b, o) ∈ m := by
  induction m with
  | nil => simp [OpcodeMap.mnemonicOf] at h
  | cons c rest ih =>
    obtain ⟨c, q⟩ := c
    simp only [OpcodeMap.mnemonicOf] at h
    split at h
    · simp_all
    · exact List.mem_cons_of_mem _ (ih h)

theorem mnemonicOf_of_mem (m : OpcodeMap) (hm : (m.map Prod.fst).Nodup) (b : Byte) (o : Mnemonic) (h : (b, o) ∈ m) :
    m.mnemonicOf b = some o := by
  induction m with
  | nil => simp at h
  | cons c rest ih =>
    obtain ⟨c, q⟩ := c
    simp only [List.map_cons, List.nodup_cons] at hm
    simp only [OpcodeMap.mnemonicOf]
    rcases List.mem_cons.mp h with h | hr
    · simp_all
    · rw [if_neg]
      · exact ih hm.2 hr
      · rintro rfl; exact hm.1 (List.mem_map_of_mem (f := Prod.fst) hr)

theorem byteOf_mem (m : OpcodeMap) (o : Mnemonic) (h : o ∈ m.map Prod.snd) : (m.byteOf o, o) ∈ m := by
  induction m with
  | nil => simp at h
  | cons c rest ih =>
    obtain ⟨c, q⟩ := c
    simp only [OpcodeMap.byteOf]
    split
    · simp_all
    · next hq =>
      simp only [List.map_cons, List.mem_cons] at h
      exact List.mem_cons_of_mem _ (ih (h.resolve_left hq))

theorem byteOf_of_mem (m : OpcodeMap) (hm : (m.map Prod.snd).Nodup) (b : Byte) (o : Mnemonic) (h : (b, o) ∈ m) :
    m.byteOf o = b := by
  induction m with
  | nil => simp at h
  | cons c rest ih =>
    obtain ⟨c, q⟩ := c
    simp only [List.map_cons, List.nodup_cons] at hm
    simp only [OpcodeMap.byteOf]
    rcases List.mem_cons.mp h with h | hr
    · simp_all
    · rw [if_neg]
      · exact ih hm.2 hr
      · rintro rfl; exact hm.1 (List.mem_map_of_mem (f := Prod.snd) hr)

/-- `Mnemonic.all` leaves none out. -/
theorem mem_all (o : Mnemonic) : o ∈ Mnemonic.all := by cases o <;> decide

/-- In an injective total map every mnemonic is read back from its byte (R62). -/
theorem mnemonicOf_byteOf (m : OpcodeMap) (hm : m.WellFormed) (o : Mnemonic) :
    m.mnemonicOf (m.byteOf o) = some o :=
  mnemonicOf_of_mem m hm.1 _ _ (byteOf_mem m o (hm.2.2 o (mem_all o)))

/-- In an injective total map a byte is the byte of the mnemonic it names (R62). -/
theorem byteOf_mnemonicOf (m : OpcodeMap) (hm : m.WellFormed) (b : Byte) (o : Mnemonic)
    (h : m.mnemonicOf b = some o) : m.byteOf o = b :=
  byteOf_of_mem m hm.2.1 _ _ (mnemonicOf_mem m b o h)

/-! ### NUM and ARR -/

/-- What NUM can encode (R58). -/
theorem wf_num {ds : List Byte} : (Instr.num ds).WellFormed ↔ ds.length ≤ 255 := by
  simp [Instr.WellFormed, Instr.wellFormed]

/-- What ARR can encode (R58). -/
theorem wf_arr {w : Byte} {gs : List (List Byte)} :
    (Instr.arr w gs).WellFormed ↔ gs.length ≤ 255 ∧ ∀ g ∈ gs, g.length = w.toNat := by
  simp [Instr.WellFormed, Instr.wellFormed]

/-- Cutting the joined groups gives the groups. -/
theorem takeGroups_flatten (w : Nat) (gs : List (List Byte)) (rest : List Byte) (h : ∀ g ∈ gs, g.length = w) :
    takeGroups w gs.length (gs.flatten ++ rest) = gs := by
  induction gs with
  | nil => rfl
  | cons g gs ih =>
    have hg := h g (by simp)
    simp only [List.length_cons, takeGroups, List.flatten_cons, List.append_assoc]
    rw [List.take_append_of_le_length (by omega), List.take_of_length_le (by omega),
      List.drop_append_of_le_length (by omega), List.drop_of_length_le (by omega), List.nil_append,
      ih (fun g hg => h g (List.mem_cons_of_mem _ hg))]

theorem flatten_length (w : Nat) (gs : List (List Byte)) (h : ∀ g ∈ gs, g.length = w) :
    gs.flatten.length = w * gs.length := by
  induction gs with
  | nil => rfl
  | cons g gs ih =>
    simp only [List.flatten_cons, List.length_append, List.length_cons, h g (by simp),
      ih (fun g hg => h g (List.mem_cons_of_mem _ hg)), Nat.mul_succ]
    omega

theorem takeGroups_length (w c : Nat) (bs : List Byte) : (takeGroups w c bs).length = c := by
  induction c generalizing bs with
  | zero => rfl
  | succ c ih => simp [takeGroups, ih]

/-- Everything that cutting bytes into groups does. -/
theorem takeGroups_spec (w c : Nat) (bs : List Byte) (h : w * c ≤ bs.length) :
    (takeGroups w c bs).flatten = bs.take (w * c) ∧ ∀ g ∈ takeGroups w c bs, g.length = w := by
  induction c generalizing bs with
  | zero => simp [takeGroups]
  | succ c ih =>
    rw [Nat.mul_succ] at h
    have := ih (bs.drop w) (by simp; omega)
    simp only [takeGroups, List.flatten_cons, this.1, List.mem_cons]
    refine ⟨?_, ?_⟩
    · rw [Nat.mul_succ, Nat.add_comm, List.take_add]
    · rintro g (rfl | hg)
      · simp; omega
      · exact this.2 g hg

/-! ### Operand bytes -/

/-- The operand bytes of a well-formed instruction are read back. -/
theorem decodeOperands_operandBytes (i : Instr) (rest : List Byte) (hi : i.WellFormed) :
    decodeOperands i.mnemonic (i.operandBytes ++ rest) = .ok (i, rest) := by
  cases i with
  | num ds =>
    have h := wf_num.mp hi
    simp only [Instr.mnemonic, Instr.operandBytes, List.cons_append, decodeOperands, BitVec.toNat_ofNat]
    rw [Nat.mod_eq_of_lt (by omega)]
    simp
  | arr w gs =>
    obtain ⟨h, hg⟩ := wf_arr.mp hi
    simp only [Instr.mnemonic, Instr.operandBytes, List.cons_append, decodeOperands, BitVec.toNat_ofNat]
    rw [Nat.mod_eq_of_lt (by omega), ← flatten_length _ _ hg, takeGroups_flatten _ _ _ hg]
    simp
  | _ => rfl

/-- Everything that reading operand bytes can answer. -/
theorem decodeOperands_inv (o : Mnemonic) (bs rest : List Byte) (i : Instr)
    (h : decodeOperands o bs = .ok (i, rest)) : i.mnemonic = o ∧ bs = i.operandBytes ++ rest ∧ i.WellFormed := by
  cases o
  case num =>
    cases bs with
    | nil => simp [decodeOperands] at h
    | cons n r =>
      simp only [decodeOperands] at h
      split at h
      · simp at h
      · next hl =>
        simp only [Except.ok.injEq, Prod.mk.injEq] at h
        obtain ⟨rfl, rfl⟩ := h
        have := n.isLt
        refine ⟨rfl, ?_, ?_⟩
        · simp only [Instr.operandBytes, List.cons_append, List.take_append_drop, List.cons.injEq, and_true]
          apply BitVec.eq_of_toNat_eq
          simp; omega
        · rw [wf_num]; simp; omega
  case arr =>
    match bs with
    | [] => simp [decodeOperands] at h
    | [_] => simp [decodeOperands] at h
    | w :: c :: r =>
      simp only [decodeOperands] at h
      split at h
      · simp at h
      · next hl =>
        simp only [Except.ok.injEq, Prod.mk.injEq] at h
        obtain ⟨rfl, rfl⟩ := h
        have := c.isLt
        have hs := takeGroups_spec w.toNat c.toNat r (by omega)
        refine ⟨rfl, ?_, ?_⟩
        · simp only [Instr.operandBytes, List.cons_append, takeGroups_length, hs.1, List.take_append_drop]
          simp
        · rw [wf_arr, takeGroups_length]; exact ⟨by omega, hs.2⟩
  case int => cases bs <;> simp [decodeOperands] at h; obtain ⟨rfl, rfl⟩ := h; exact ⟨rfl, rfl, rfl⟩
  case reg => cases bs <;> simp [decodeOperands] at h; obtain ⟨rfl, rfl⟩ := h; exact ⟨rfl, rfl, rfl⟩
  all_goals (simp only [decodeOperands, Except.ok.injEq, Prod.mk.injEq] at h; obtain ⟨rfl, rfl⟩ := h; exact ⟨rfl,
    rfl, rfl⟩)

/-- `Instr.size` is the length of the encoding. -/
theorem encode_length (m : OpcodeMap) (i : Instr) : (encode m i).length = i.size := by
  cases i <;> simp [encode, Instr.operandBytes, Instr.size] <;> omega

/-! ### Bytes read ahead -/

theorem bytesFrom_length (rd : Nat → Byte) (i n : Nat) : (bytesFrom rd i n).length = n := by
  induction n generalizing i with
  | zero => rfl
  | succ n ih => simp [bytesFrom, ih]

theorem bytesFrom_congr {rd rd' : Nat → Byte} {i j n : Nat} (h : ∀ k < n, rd (i + k) = rd' (j + k)) :
    bytesFrom rd i n = bytesFrom rd' j n := by
  induction n generalizing i j with
  | zero => rfl
  | succ n ih =>
    simp only [bytesFrom]
    rw [show rd i = rd' j from h 0 (by omega), ih]
    intro k hk
    have := h (k + 1) (by omega)
    rw [show i + 1 + k = i + (k + 1) by omega, show j + 1 + k = j + (k + 1) by omega]; exact this

/-- The first three bytes of an encoding give its length (R59). -/
theorem instrLength_of_bytes (m : OpcodeMap) (hm : m.WellFormed) (i : Instr) (hi : i.WellFormed) (rd : Nat → Byte)
    (h : bytesFrom rd 0 i.size = encode m i) : instrLength m (rd 0) (rd 1) (rd 2) = i.size := by
  cases i with
  | num ds =>
    have hl := wf_num.mp hi
    rw [show (Instr.num ds).size = ds.length + 1 + 1 by simp [Instr.size]; omega] at h
    simp only [bytesFrom, encode, Instr.operandBytes, Instr.mnemonic, List.cons.injEq] at h
    simp only [h.1, h.2.1, instrLength, mnemonicOf_byteOf m hm, Instr.size, BitVec.toNat_ofNat]
    omega
  | arr w gs =>
    obtain ⟨hl, hg⟩ := wf_arr.mp hi
    rw [show (Instr.arr w gs).size = gs.flatten.length + 1 + 1 + 1 by simp only [Instr.size]; omega] at h
    simp only [bytesFrom, encode, Instr.operandBytes, Instr.mnemonic, List.cons.injEq] at h
    simp only [h.1, h.2.1, h.2.2.1, instrLength, mnemonicOf_byteOf m hm, Instr.size, BitVec.toNat_ofNat]
    rw [Nat.mod_eq_of_lt (by omega), flatten_length _ _ hg]
  | _ =>
    simp only [Instr.size, bytesFrom, encode, Instr.operandBytes, Instr.mnemonic, List.cons.injEq] at h
    simp only [h.1, instrLength, mnemonicOf_byteOf m hm, Instr.size]

/-- A byte that is no opcode has no operand bytes (R64). -/
theorem instrLength_unmapped (m : OpcodeMap) (b b1 b2 : Byte) (h : m.mnemonicOf b = none) :
    instrLength m b b1 b2 = 1 := by
  simp [instrLength, h]

/-- A mapped opcode always decodes, whatever bytes follow it, to an instruction of the length they give. -/
theorem decodeFrom_mapped (m : OpcodeMap) (rd : Nat → Byte) (o : Mnemonic) (h : m.mnemonicOf (rd 0) = some o) :
    ∃ i, decodeFrom m rd = .ok i ∧ i.mnemonic = o ∧ i.size = instrLength m (rd 0) (rd 1) (rd 2) := by
  unfold decodeFrom
  cases o
  case num =>
    simp only [instrLength, h]
    rw [show 2 + (rd 1).toNat = (rd 1).toNat + 1 + 1 by omega]
    simp only [bytesFrom, decode, h, decodeOperands, bytesFrom_length, Nat.zero_add, Nat.reduceAdd]
    rw [if_neg (by omega)]
    exact ⟨_, rfl, rfl, by simp [Instr.size, bytesFrom_length]; omega⟩
  case arr =>
    simp only [instrLength, h]
    rw [show 3 + (rd 1).toNat * (rd 2).toNat = (rd 1).toNat * (rd 2).toNat + 1 + 1 + 1 by omega]
    simp only [bytesFrom, decode, h, decodeOperands, bytesFrom_length, Nat.zero_add, Nat.reduceAdd]
    rw [if_neg (by omega)]
    refine ⟨_, rfl, rfl, ?_⟩
    simp only [Instr.size]
    rw [(takeGroups_spec _ _ _ (by rw [bytesFrom_length])).1]
    simp [bytesFrom_length]; omega
  all_goals (simp only [instrLength, h, bytesFrom, decode, decodeOperands]; exact ⟨_, rfl, rfl, rfl⟩)

theorem bytesFrom_add (rd : Nat → Byte) (i a b : Nat) :
    bytesFrom rd i (a + b) = bytesFrom rd i a ++ bytesFrom rd (i + a) b := by
  induction a generalizing i with
  | zero => simp [bytesFrom]
  | succ a ih =>
    rw [Nat.succ_add, bytesFrom, bytesFrom, ih, List.cons_append, show i + 1 + a = i + (a + 1) by omega]

/-- The groups of bytes in a row are the bytes in a row from each group's place on. -/
theorem takeGroups_bytesFrom (rd : Nat → Byte) (w c i : Nat) :
    takeGroups w c (bytesFrom rd i (w * c)) = (List.range c).map fun j => bytesFrom rd (i + j * w) w := by
  induction c generalizing i with
  | zero => rfl
  | succ c ih =>
    have hl := bytesFrom_length rd i w
    rw [show w * (c + 1) = w + w * c by ring, bytesFrom_add, takeGroups, List.take_left' hl, List.drop_left' hl, ih,
      List.range_succ_eq_map, List.map_cons, List.map_map, Nat.zero_mul, Nat.add_zero]
    congr 1
    apply List.map_congr_left
    intro j _
    simp only [Function.comp_apply, Nat.succ_mul]
    rw [show i + w + j * w = i + (j * w + w) by omega]

/-- What ARR's opcode decodes to, wherever the program ends (R58). -/
theorem decodeFrom_arr (m : OpcodeMap) (rd : Nat → Byte) (h : m.mnemonicOf (rd 0) = some .arr) :
    decodeFrom m rd = .ok (.arr (rd 1)
      ((List.range (rd 2).toNat).map fun j => bytesFrom rd (3 + j * (rd 1).toNat) (rd 1).toNat)) := by
  unfold decodeFrom
  simp only [instrLength, h]
  rw [show 3 + (rd 1).toNat * (rd 2).toNat = (rd 1).toNat * (rd 2).toNat + 1 + 1 + 1 by omega]
  simp only [bytesFrom, decode, h, decodeOperands, bytesFrom_length, Nat.zero_add, Nat.reduceAdd]
  rw [if_neg (by omega)]
  simp only [takeGroups_bytesFrom]

/-- Below PROG_LEN the decoder looks at the program's own bytes. -/
theorem Machine.State.lookahead_eq (s : Machine.State) (k : Nat) (h : s.pc.toNat + k < s.progLen.toNat) :
    s.lookahead k = s.progByte (s.pc.toNat + k) := by
  unfold Machine.State.lookahead; rw [if_pos h]

end Sys2Proof
end

