-- ==== Sys2Proof/Laws/Shapes.lean ====
section
/-! SUPPORT. What the shapes that instructions share do: several pops in a row, the templates of R94 and R100, and the
loops of ARR, INC and DEC. Proofs cite these instead of unfolding the shape. -/

namespace Sys2Proof.Machine

/-- An order of 32-bit values, as numbers. -/
theorem le_toNat {a b : BitVec 32} (h : a ≤ b) : a.toNat ≤ b.toNat := h

/-- Nothing written keeps the host side. -/
theorem keepsHostSide_refl (s : State) : KeepsHostSide s s := ⟨fun _ => rfl, rfl, rfl, rfl, rfl, rfl⟩

/-- Two parts that keep the host side keep it together. -/
theorem keepsHostSide_trans {a b c : State} (h1 : KeepsHostSide a b) (h2 : KeepsHostSide b c) : KeepsHostSide a c :=
  ⟨fun x => (h2.1 x).trans (h1.1 x), h2.2.1.trans h1.2.1, h2.2.2.1.trans h1.2.2.1,
    h2.2.2.2.1.trans h1.2.2.2.1, h2.2.2.2.2.1.trans h1.2.2.2.2.1,
    h2.2.2.2.2.2.trans h1.2.2.2.2.2⟩

/-! ### Pops in a row -/

/-- SP after two pops. -/
theorem sp2 {s : State} (h : 2 ≤ s.sp.toNat) : (s.sp - 1 - 1).toNat = s.sp.toNat - 2 := by
  have h1 := sp_pred_toNat (s := s) (by omega)
  have := sp_pred_toNat (s := s.setSp (s.sp - 1)) (by simp only [State.setSp_sp, h1]; omega)
  simp only [State.setSp_sp, h1] at this; omega

/-- SP after three pops. -/
theorem sp3 {s : State} (h : 3 ≤ s.sp.toNat) : (s.sp - 1 - 1 - 1).toNat = s.sp.toNat - 3 := by
  have h1 := sp2 (s := s) (by omega)
  have := sp_pred_toNat (s := s.setSp (s.sp - 1 - 1)) (by simp only [State.setSp_sp, h1]; omega)
  simp only [State.setSp_sp, h1] at this; omega

/-- Two pops from a stack that holds two words. -/
theorem pop2 {β : Type} {s : State} (h2 : 2 ≤ s.sp.toNat) (hc : s.sp.toNat ≤ s.stackCap.toNat)
    (k : Word → Word → State → Res β) :
    ((pop s).andThen fun b s => (pop s).andThen fun a s => k a b s) =
      k (s.slot (s.sp.toNat - 2)) (s.slot (s.sp.toNat - 1)) (s.setSp (s.sp - 1 - 1)) := by
  have h1 := sp_pred_toNat (s := s) (by omega)
  rw [pop_ok (by omega) hc, Res.ok_andThen,
    pop_ok (by simp only [State.setSp_sp, h1]; omega)
      (by simp only [State.setSp_sp, State.setSp_stackCap, h1]; omega), Res.ok_andThen]
  simp only [State.setSp_sp, h1, State.setSp_slot, show s.sp.toNat - 1 - 1 = s.sp.toNat - 2 by omega]; rfl

/-- Three pops from a stack that holds three words. -/
theorem pop3 {β : Type} {s : State} (h2 : 3 ≤ s.sp.toNat) (hc : s.sp.toNat ≤ s.stackCap.toNat)
    (k : Word → Word → Word → State → Res β) :
    ((pop s).andThen fun t s => (pop s).andThen fun b s => (pop s).andThen fun a s => k a b t s) =
      k (s.slot (s.sp.toNat - 3)) (s.slot (s.sp.toNat - 2)) (s.slot (s.sp.toNat - 1)) (s.setSp (s.sp - 1 - 1 - 1)) := by
  have h1 := sp_pred_toNat (s := s) (by omega)
  rw [pop_ok (by omega) hc, Res.ok_andThen,
    pop2 (by simp only [State.setSp_sp, h1]; omega)
      (by simp only [State.setSp_sp, State.setSp_stackCap, h1]; omega)]
  simp only [State.setSp_sp, h1, State.setSp_slot, show s.sp.toNat - 1 - 2 = s.sp.toNat - 3 by omega,
    show s.sp.toNat - 1 - 1 = s.sp.toNat - 2 by omega]
  rfl

/-! ### The templates -/

/-- R100: what the template does once it is ready and holds two words. -/
theorem binop_ready (f : Word → Word → Word) (s : State) (hr : s.Ready 1) (h2 : 2 ≤ s.sp.toNat) :
    ∃ t, (binop f).run s = .ok () t ∧ Leaves s t (s.pc.toNat + 1) (s.sp.toNat - 1) 0 ∧
        t.written (s.sp.toNat - 2) = some (f (s.slot (s.sp.toNat - 2)) (s.slot (s.sp.toNat - 1))) ∧
        KeepsSlots s t (· = s.sp.toNat - 2) := by
  obtain ⟨hic, h, hsp⟩ := hr
  have hsp := le_toNat hsp
  have e2 := sp2 h2
  rw [binop, fetches_ok h]; simp only [Script.run_op, Script.run_lastly, Res.andThen_ok]
  rw [pop2 (s := s.setPc (s.pc + BitVec.ofNat 32 1)) h2 hsp (fun a b s => push (f a b) s),
    push_ok (by simp only [State.setSp_sp, State.setPc_sp, e2, State.setSp_stackCap, State.setPc_stackCap]; omega)]
  have e3 := sp_succ_toNat (s := s.setSp (s.sp - 1 - 1))
    (by simp only [State.setSp_sp, e2, State.setSp_stackCap]; omega)
  simp only [State.setSp_sp, e2] at e3
  refine ⟨_, rfl, ⟨pc_add_toNat h, ?_, hic, keepsHostSide_refl s⟩, ?_, ?_⟩
  · show (s.sp - 1 - 1 + 1).toNat = _; omega
  · simp only [State.setSp_written, State.setSlot_written, State.setSp_sp, State.setPc_sp, e2]; simp
  · intro i hi
    simp only [State.setSp_written, State.setSlot_written, State.setSp_sp, State.setPc_sp, e2, if_neg hi]; rfl

/-- R94: what the template does once it is ready and holds three words. -/
theorem condJump_ready (bw : BitWidth) (cond : Word → Word → Bool) (s : State) (hr : s.Ready 1) (h3 : 3 ≤ s.sp.toNat) :
    (condJump bw cond).run s = if cond (s.slot (s.sp.toNat - 3)) (s.slot (s.sp.toNat - 2)) then
      jumpTo (toU bw (s.slot (s.sp.toNat - 1))) ((s.setPc (s.pc + 1)).setSp (s.sp - 3))
    else .ok () ((s.setPc (s.pc + 1)).setSp (s.sp - 3)) := by
  obtain ⟨hic, h, hsp⟩ := hr
  have hsp := le_toNat hsp
  rw [condJump, fetches_ok h]; simp only [Script.run_op]
  rw [pop3 (s := s.setPc (s.pc + BitVec.ofNat 32 1)) h3 hsp
    (fun a b t s => (if cond a b then lastly (jumpTo (toU bw t)) else Script.done).run s),
    show s.sp - 3 = s.sp - 1 - 1 - 1 by bv_omega]
  by_cases hc : cond (s.slot (s.sp.toNat - 3)) (s.slot (s.sp.toNat - 2))
  · rw [if_pos hc]; exact (congrArg (fun c => Script.run c _) (if_pos hc)).trans (Res.andThen_ok _)
  · rw [if_neg hc]; exact congrArg (fun c => Script.run c _) (if_neg hc)

/-! ### The loops -/

/-- R86: groups that the program holds and that fit are all pushed, the first one deepest. -/
theorem pushGroups_ok (conv : NumConv) (w : Nat) (gs : List (List Byte)) (s : State) (hg : ∀ g ∈ gs, g.length = w)
    (hp : s.pc.toNat + w * gs.length ≤ s.progLen.toNat) (hs : s.sp.toNat + gs.length ≤ s.stackCap.toNat) :
    ∃ t, (pushGroups conv gs).run s = .ok () t ∧ Leaves s t (s.pc.toNat + w * gs.length) (s.sp.toNat + gs.length) s.ic ∧
      (∀ k, ∀ h : k < gs.length, t.written (s.sp.toNat + k) = some (i2w conv gs[k])) ∧
      KeepsSlots s t (fun i => s.sp.toNat ≤ i ∧ i < s.sp.toNat + gs.length) := by
  induction gs generalizing s with
  | nil => exact ⟨s, rfl, ⟨rfl, rfl, rfl, keepsHostSide_refl s⟩, by simp, fun _ _ => rfl⟩
  | cons g gs ih =>
    simp only [List.length_cons, Nat.mul_succ] at hp hs
    have hgl := hg g (by simp)
    have hpc := pc_add_toNat (s := s) (n := w) (by omega)
    have hsp : (s.sp + 1).toNat = _ := sp_succ_toNat (s := s) (by omega)
    rw [pushGroups, hgl, fetches_ok (by omega), Script.run_op,
      push_ok (by simp only [State.setPc_sp, State.setPc_stackCap]; omega), Res.ok_andThen]
    obtain ⟨t, ht, hl, hw, hk⟩ := ih
      (((s.setPc (s.pc + BitVec.ofNat 32 w)).setSlot s.sp.toNat (i2w conv g)).setSp (s.sp + 1))
      (fun g hg' => hg g (List.mem_cons_of_mem _ hg'))
      (by simp only [State.setSp_pc, State.setSlot_pc, State.setPc_pc, State.setSp_progLen,
            State.setSlot_progLen, State.setPc_progLen, hpc]
          omega)
      (by simp only [State.setSp_sp, State.setSp_stackCap, State.setSlot_stackCap, State.setPc_stackCap, hsp]; omega)
    refine ⟨t, ht, ?_, ?_, ?_⟩
    · obtain ⟨h1, h2, h3, h4⟩ := hl
      refine ⟨?_, ?_, h3, ?_⟩
      · rw [h1]
        simp only [State.setSp_pc, State.setSlot_pc, State.setPc_pc, hpc, List.length_cons, Nat.mul_succ]; omega
      · rw [h2]; simp only [State.setSp_sp, hsp, List.length_cons]; omega
      · exact h4
    · intro k hkl
      cases k with
      | zero =>
        rw [hk _ (by simp only [State.setSp_sp, hsp]; omega)]
        simp
      | succ k =>
        have := hw k (by simpa using hkl)
        simp only [State.setSp_sp, hsp] at this
        rw [show s.sp.toNat + (k + 1) = s.sp.toNat + 1 + k by omega, this]; simp
    · intro i hi
      simp only [List.length_cons] at hi
      rw [hk i (by simp only [State.setSp_sp, hsp]; omega)]
      simp; omega

/-- R86 goes through its groups in order. -/
theorem pushGroups_append (conv : NumConv) (a b : List (List Byte)) (s : State) :
    (pushGroups conv (a ++ b)).run s =
      ((pushGroups conv a).run s).andThen fun _ s => (pushGroups conv b).run s := by
  induction a generalizing s with
  | nil => rfl
  | cons g a ih =>
    rw [List.cons_append, pushGroups, pushGroups, fetches_run, fetches_run g.length (.op _ _)]
    simp only [Script.run_op, ih, Res.andThen_assoc]

/-- R89: zeros that fit are all pushed. -/
theorem pushZeros_ok (n : Nat) (s : State) (h : s.sp.toNat + n ≤ s.stackCap.toNat) :
    ∃ t, (pushZeros n).run s = .ok () t ∧ Leaves s t s.pc.toNat (s.sp.toNat + n) s.ic ∧
      (∀ i, s.sp.toNat ≤ i → i < s.sp.toNat + n → t.written i = some plusZero) ∧
      KeepsSlots s t (fun i => s.sp.toNat ≤ i ∧ i < s.sp.toNat + n) := by
  induction n generalizing s with
  | zero => exact ⟨s, rfl, ⟨rfl, rfl, rfl, keepsHostSide_refl s⟩, by intro i; omega, fun _ _ => rfl⟩
  | succ n ih =>
    have hsp : (s.sp + 1).toNat = _ := sp_succ_toNat (s := s) (by omega)
    obtain ⟨t, ht, ⟨h1, h2, h3, h4⟩, hw, hk⟩ := ih ((s.setSlot s.sp.toNat plusZero).setSp (s.sp + 1))
      (by simp only [State.setSp_sp, hsp, State.setSp_stackCap, State.setSlot_stackCap]; omega)
    simp only [State.setSp_sp, hsp] at h2 hw hk
    refine ⟨t, ?_, ⟨h1, by omega, h3, h4⟩, ?_, ?_⟩
    · rw [pushZeros, Script.run_op, push_ok (by omega), Res.ok_andThen, ht]
    · intro i hi hi2
      by_cases he : i = s.sp.toNat
      · rw [hk i (by omega), he]; simp
      · exact hw i (by omega) (by omega)
    · intro i hi
      rw [hk i (by omega)]; simp; omega

/-- Pushes of zeros in two parts. -/
theorem pushZeros_add (m n : Nat) (s : State) :
    (pushZeros (m + n)).run s = ((pushZeros m).run s).andThen fun _ s => (pushZeros n).run s := by
  induction m generalizing s with
  | zero => simp [pushZeros]
  | succ m ih => rw [Nat.succ_add]; simp only [pushZeros, Script.run_op, ih, Res.andThen_assoc]

/-- R90: words that are there are all popped. -/
theorem popMany_ok (n : Nat) (s : State) (h : n ≤ s.sp.toNat) (hc : s.sp.toNat ≤ s.stackCap.toNat) :
    (popMany n).run s = .ok () (s.setSp (BitVec.ofNat 32 (s.sp.toNat - n))) := by
  induction n generalizing s with
  | zero => simp [popMany, State.setSp]
  | succ n ih =>
    have e1 := sp_pred_toNat (s := s) (by omega)
    rw [popMany, Script.run_op, pop_ok (by omega) hc, Res.ok_andThen, ih _ (by simp only [State.setSp_sp, e1]; omega)
      (by simp only [State.setSp_sp, e1, State.setSp_stackCap]; omega)]
    simp only [State.setSp_sp, e1, show s.sp.toNat - 1 - n = s.sp.toNat - (n + 1) by omega]; rfl

/-- Pops in two parts. -/
theorem popMany_add (m n : Nat) (s : State) :
    (popMany (m + n)).run s = ((popMany m).run s).andThen fun _ s => (popMany n).run s := by
  induction m generalizing s with
  | zero => simp [popMany]
  | succ m ih => rw [Nat.succ_add]; simp only [popMany, Script.run_op, ih, Res.andThen_assoc]

theorem be_append (bs : List Byte) (b : Byte) : be (bs ++ [b]) = be bs * 256 + b.toNat := by simp [be]

end Sys2Proof.Machine
end

