-- ==== Sys2Proof/Laws/Binary64.lean ====
section
/-! SUPPORT. The laws of binary64 as `Machine/Binary64.lean` computes it: the fields of a word, which values a word can
hold, what one rounding does, and the integers. -/

namespace Sys2Proof.Machine

/-! ### Words and their fields -/

theorem signed_true (n : Nat) : signed true n = -(n : Int) := rfl

theorem signed_false (n : Nat) : signed false n = (n : Int) := rfl

/-- The value of a word whose fields are known (R29). -/
theorem ofWord_fields (w : Word) (s : Bool) (e f : Nat) (he : e < 2048) (hf : f < 2 ^ 52)
    (hw : w.toNat = signBit s + (e * 2 ^ 52 + f)) :
    Fp.ofWord w = if e = 2047 then (if f = 0 then .inf s else .nan)
      else if e = 0 then .fin s f else .fin s ((2 ^ 52 + f) * 2 ^ (e - 1)) := by
  have h1 : (w.extractLsb' 52 11).toNat = e := by
    rw [BitVec.extractLsb'_toNat, hw, Nat.shiftRight_eq_div_pow]
    unfold signBit; split <;> omega
  have h2 : (w.extractLsb' 0 52).toNat = f := by
    rw [BitVec.extractLsb'_toNat, hw, Nat.shiftRight_zero]
    unfold signBit; split <;> omega
  have h3 : w.getLsbD 63 = s := by
    rw [BitVec.getLsbD, hw, Nat.testBit_eq_decide_div_mod_eq]
    unfold signBit
    cases s
    · simp only [Bool.false_eq_true, if_false]; rw [decide_eq_false_iff_not]; omega
    · simp only [if_true]; rw [decide_eq_true_iff]; omega
  unfold Fp.ofWord
  simp only [h1, h2, h3]

/-- Every word has a sign, an exponent and a fraction (R29). -/
theorem word_fields (w : Word) : ∃ s e f, e < 2048 ∧ f < 2 ^ 52 ∧ w.toNat = signBit s + (e * 2 ^ 52 + f) := by
  have := w.isLt
  refine ⟨decide (2^63 ≤ w.toNat), w.toNat / 2^52 % 2048, w.toNat % 2^52, by omega, by omega, ?_⟩
  unfold signBit
  by_cases h : 2^63 ≤ w.toNat
  · simp only [h, decide_true, if_true]; omega
  · simp only [h, decide_false, Bool.false_eq_true, if_false]; omega

/-- The two readings of "NaN" agree (R29). -/
theorem isNaN_iff (w : Word) : Word.IsNaN w ↔ Fp.ofWord w = .nan := by
  unfold Word.IsNaN Fp.ofWord
  have e1 : (w.extractLsb' 52 11 = 0x7FF) ↔ (w.extractLsb' 52 11).toNat = 0x7FF :=
    ⟨fun h => by rw [h]; rfl, fun h => BitVec.eq_of_toNat_eq h⟩
  have e2 : (w.extractLsb' 0 52 = 0) ↔ (w.extractLsb' 0 52).toNat = 0 :=
    ⟨fun h => by rw [h]; rfl, fun h => BitVec.eq_of_toNat_eq h⟩
  rw [e1, ne_eq, e2]
  simp only
  split
  · split <;> simp_all
  · split <;> simp_all

theorem unitsPerOne_pos : 0 < unitsPerOne := by unfold unitsPerOne; positivity

/-! ### Which magnitudes are binary64 values -/

/-- `u` units are the magnitude of a finite binary64 value. -/
def Representable (u : Nat) : Prop := u < overflowUnits ∧ 2 ^ spacing u ∣ u

theorem representable_zero : Representable 0 := ⟨by unfold overflowUnits; positivity, by simp⟩

theorem log2_spec {u : Nat} (h : u ≠ 0) : 2 ^ u.log2 ≤ u ∧ u < 2 ^ (u.log2 + 1) :=
  ⟨Nat.log2_self_le h, Nat.lt_log2_self⟩

/-- Subnormals and the first normals are one unit apart. -/
theorem spacing_zero {u : Nat} (h : u < 2 ^ 53) : spacing u = 0 := by
  unfold spacing
  by_cases h0 : u = 0
  · subst h0; decide
  · have := (Nat.log2_lt h0).mpr h; omega

/-- A larger magnitude has a significand of exactly 53 bits. -/
theorem spacing_pos {u : Nat} (h : 2 ^ 53 ≤ u) :
    2 ^ 52 * 2 ^ spacing u ≤ u ∧ u < 2 ^ 53 * 2 ^ spacing u ∧ 1 ≤ spacing u := by
  have h0 : u ≠ 0 := by intro h'; rw [h'] at h; simp at h
  have h1 := log2_spec h0
  have h2 : 53 ≤ u.log2 := (Nat.le_log2 h0).mpr h
  have e : u.log2 = 52 + spacing u := by unfold spacing; omega
  rw [← Nat.pow_add, ← Nat.pow_add, ← e, show 53 + spacing u = u.log2 + 1 by omega]
  exact ⟨h1.1, h1.2, by omega⟩

/-- No significand has more than 53 bits. -/
theorem spacing_bounds (u : Nat) : u < 2 ^ 53 * 2 ^ spacing u ∧ (spacing u = 0 ∨ 2 ^ 52 * 2 ^ spacing u ≤ u) := by
  by_cases h : u < 2 ^ 53
  · rw [spacing_zero h]; exact ⟨by omega, .inl rfl⟩
  · have := spacing_pos (u := u) (by omega); exact ⟨this.2.1, .inr this.1⟩

/-- The spacing from the place of the leading bit. -/
theorem spacing_eq {u k : Nat} (h1 : 2 ^ 52 * 2 ^ k ≤ u) (h2 : u < 2 ^ 53 * 2 ^ k) : spacing u = k := by
  have h0 : u ≠ 0 := by
    intro h; rw [h] at h1
    have : 0 < 2 ^ 52 * 2 ^ k := by positivity
    omega
  have : u.log2 = 52 + k := by
    rw [← Nat.pow_add] at h1 h2
    have a := (Nat.le_log2 h0).mpr h1
    have b := (Nat.log2_lt h0).mpr h2
    omega
  unfold spacing; omega

theorem spacing_lt {u : Nat} (h : u < overflowUnits) : spacing u ≤ 2045 := by
  by_cases h0 : u = 0
  · subst h0; decide
  · have := (Nat.log2_lt h0).mpr h
    unfold spacing; omega

/-- The exponent and the fraction of a representable magnitude. -/
theorem magnitude_fields {u : Nat} (h : Representable u) :
    ∃ e f, e < 2047 ∧ f < 2 ^ 52 ∧ magnitudeBits u = e * 2 ^ 52 + f ∧
    u = if e = 0 then f else (2 ^ 52 + f) * 2 ^ (e - 1) := by
  obtain ⟨hlt, m, hm⟩ := h
  have hk := spacing_lt hlt
  have hb := spacing_bounds u
  unfold magnitudeBits
  set k := spacing u with hkd
  have hp : 0 < 2 ^ k := by positivity
  have hdiv : u / 2 ^ k = m := by rw [hm, Nat.mul_div_cancel_left _ hp]
  have hm53 : m < 2 ^ 53 := by
    rw [hm, Nat.mul_comm] at hb; exact Nat.lt_of_mul_lt_mul_right hb.1
  rw [hdiv]
  by_cases hs : m < 2 ^ 52
  · have hk0 : k = 0 := by
      rcases hb.2 with h | h
      · exact h
      · exfalso; rw [hm, Nat.mul_comm (2^k)] at h; have := Nat.le_of_mul_le_mul_right h hp; omega
    exact ⟨0, m, by omega, hs, by rw [hk0], by rw [if_pos rfl, hm, hk0]; omega⟩
  · refine ⟨k + 1, m - 2 ^ 52, by omega, by omega, by rw [Nat.succ_mul]; omega, ?_⟩
    rw [if_neg (by omega), Nat.add_sub_cancel, show 2 ^ 52 + (m - 2 ^ 52) = m by omega, Nat.mul_comm, ← hm]

theorem toWord_fin_toNat (q : Word) (s : Bool) {u : Nat} (h : Representable u) :
    ((Fp.fin s u).toWord q).toNat = signBit s + magnitudeBits u := by
  obtain ⟨e, f, he, hf, hmag, -⟩ := magnitude_fields h
  simp only [Fp.toWord, BitVec.toNat_ofNat, hmag]
  apply Nat.mod_eq_of_lt
  unfold signBit; split <;> omega

/-- A representable finite value is read back from its word. -/
theorem ofWord_toWord_fin (q : Word) (s : Bool) {u : Nat} (h : Representable u) :
    Fp.ofWord ((Fp.fin s u).toWord q) = .fin s u := by
  obtain ⟨e, f, he, hf, hmag, hu⟩ := magnitude_fields h
  rw [ofWord_fields _ s e f (by omega) hf (by rw [toWord_fin_toNat q s h, hmag]), if_neg (by omega)]
  split
  · next h0 => rw [if_pos h0] at hu; rw [← hu]
  · next h0 => rw [if_neg h0] at hu; rw [← hu]

/-- An infinity is read back from its word. -/
theorem ofWord_toWord_inf (q : Word) (s : Bool) : Fp.ofWord ((Fp.inf s).toWord q) = .inf s := by
  rw [ofWord_fields _ s 2047 0 (by omega) (by omega)]
  · rfl
  · simp only [Fp.toWord, BitVec.toNat_ofNat]
    unfold signBit; split <;> omega

/-- A finite word has a representable magnitude. -/
theorem representable_ofWord {w : Word} {s : Bool} {u : Nat} (h : Fp.ofWord w = .fin s u) : Representable u := by
  obtain ⟨t, e, f, he, hf, hw⟩ := word_fields w
  rw [ofWord_fields w t e f he hf hw] at h
  split at h
  · split at h <;> cases h
  · split at h
    · cases h
      refine ⟨?_, ?_⟩
      · calc u < 2 ^ 52 := hf
          _ ≤ overflowUnits := Nat.pow_le_pow_right (by omega) (by omega)
      · rw [spacing_zero (by omega)]; exact one_dvd _
    · next h1 h2 =>
      cases h
      have hp : 0 < 2 ^ (e - 1) := by positivity
      have hs : spacing ((2 ^ 52 + f) * 2 ^ (e - 1)) = e - 1 :=
        spacing_eq (Nat.mul_le_mul_right _ (by omega)) (Nat.mul_lt_mul_of_pos_right (by omega) hp)
      refine ⟨?_, ?_⟩
      · calc (2 ^ 52 + f) * 2 ^ (e - 1) < 2 ^ 53 * 2 ^ (e - 1) := Nat.mul_lt_mul_of_pos_right (by omega) hp
          _ ≤ 2 ^ 53 * 2 ^ 2045 := Nat.mul_le_mul_left _ (Nat.pow_le_pow_right (by omega) (by omega))
          _ = overflowUnits := by rw [← Nat.pow_add]; rfl
      · rw [hs]; exact dvd_mul_left _ _

/-- A significand of at most 53 bits at any exponent below the overflow is representable. -/
theorem representable_of_mul {m k : Nat} (hm : m ≤ 2 ^ 53) (hlt : m * 2 ^ k < overflowUnits) :
    Representable (m * 2 ^ k) := by
  refine ⟨hlt, ?_⟩
  by_cases h0 : m = 0
  · subst h0; simp
  have hp : 0 < 2 ^ k := by positivity
  rcases (spacing_bounds (m * 2 ^ k)).2 with h | h
  · rw [h]; exact one_dvd _
  · -- 2^52 * 2^j ≤ m * 2^k ≤ 2^53*2^k, so j ≤ k+1, and if j = k+1 then m = 2^53
    set j := spacing (m * 2 ^ k)
    by_cases hj : j ≤ k
    · exact Dvd.dvd.mul_left (pow_dvd_pow 2 hj) m
    · have h2 : 2 ^ 52 * 2 ^ (k + 1) ≤ 2 ^ 52 * 2 ^ j := Nat.mul_le_mul_left _ (Nat.pow_le_pow_right (by omega)
        (by omega))
      have h3 : 2 ^ 53 * 2 ^ k ≤ m * 2 ^ k := by
        calc 2 ^ 53 * 2 ^ k = 2 ^ 52 * 2 ^ (k + 1) := by rw [← Nat.pow_add, ← Nat.pow_add]; congr 1; omega
          _ ≤ _ := h2.trans h
      have h4 : 2 ^ 53 ≤ m := Nat.le_of_mul_le_mul_right h3 hp
      have hm' : m = 2 ^ 53 := by omega
      have h5 : 2 ^ (52 + j) ≤ 2 ^ (53 + k) := by rw [Nat.pow_add, Nat.pow_add, ← hm']; exact h
      have h6 := (Nat.pow_le_pow_iff_right (by omega : 1 < 2)).mp h5
      rw [hm', ← Nat.pow_add]; exact pow_dvd_pow 2 (by omega)

/-! ### Rounding -/

theorem divNearestEven_le {n d b : Nat} (hd : 0 < d) (h : n < b * d) : divNearestEven n d ≤ b := by
  have : n / d < b := (Nat.div_lt_iff_lt_mul hd).mpr h
  unfold divNearestEven; split <;> omega

/-- The nearest integer does not depend on a common factor. -/
theorem divNearestEven_scale (n d c : Nat) (hc : 0 < c) : divNearestEven (n * c) (d * c) = divNearestEven n d := by
  unfold divNearestEven
  rw [Nat.mul_mod_mul_right, Nat.mul_div_mul_right _ _ hc]
  have e1 : (d * c < 2 * (n % d * c)) ↔ d < 2 * (n % d) := by
    rw [← Nat.mul_assoc]; exact Nat.mul_lt_mul_right hc
  have e2 : (2 * (n % d * c) = d * c) ↔ 2 * (n % d) = d := by
    rw [← Nat.mul_assoc]; exact Nat.mul_left_inj (by omega)
  simp only [e1, e2]

/-- The nearest integer is the nearest, and even on a tie. -/
theorem divNearestEven_spec (n d : Nat) (hd : 0 < d) (j : Int) :
    ((n : Int) - divNearestEven n d * d).natAbs ≤ ((n : Int) - j * d).natAbs ∧
    (((n : Int) - divNearestEven n d * d).natAbs = ((n : Int) - j * d).natAbs → j ≠ divNearestEven n d →
      divNearestEven n d % 2 = 0) := by
  have hn := Nat.div_add_mod n d
  have hr := Nat.mod_lt n hd
  unfold divNearestEven
  set a := n / d with ha
  set r := n % d with hr'
  have hnI : (n : Int) = a * d + r := by rw [← hn]; push_cast; ring
  rw [hnI]
  -- c = j - a
  obtain ⟨c, hc⟩ : ∃ c : Int, j = a + c := ⟨j - a, by ring⟩
  subst hc
  have e : (a * d + r : Int) - (a + c) * d = r - c * d := by ring
  rw [e]
  have hcd : (c ≤ -1 ∧ c * d ≤ -(d : Int)) ∨ (c = 0 ∧ c * d = 0) ∨ (c = 1 ∧ c * d = d) ∨
      (2 ≤ c ∧ 2 * (d : Int) ≤ c * d) := by
    rcases lt_trichotomy c 0 with h | h | h
    · left; exact ⟨by omega, by nlinarith⟩
    · right; left; exact ⟨h, by rw [h]; ring⟩
    · rcases (show c = 1 ∨ 2 ≤ c by omega) with h | h
      · right; right; left; exact ⟨h, by rw [h]; ring⟩
      · right; right; right; exact ⟨h, by nlinarith⟩
  generalize c * (d : Int) = cd at hcd ⊢
  split
  · next h =>
    have e2 : (a * d + r : Int) - ((a + 1 : Nat) : Int) * d = r - d := by push_cast; ring
    rw [e2]
    refine ⟨by omega, fun h1 h2 => ?_⟩
    have h2 : c ≠ 1 := by rintro rfl; exact h2 (by push_cast; ring)
    omega
  · next h =>
    have e2 : (a * d + r : Int) - (a : Int) * d = r := by ring
    rw [e2]
    refine ⟨by omega, fun h1 h2 => ?_⟩
    have h2 : c ≠ 0 := by rintro rfl; exact h2 (by ring)
    omega

/-- At a coarser spacing a representable magnitude is a multiple of it or below its first significand. -/
theorem representable_split {v k : Nat} (h : Representable v) : 2 ^ k ∣ v ∨ v < 2 ^ 52 * 2 ^ k := by
  by_cases hk : k ≤ spacing v
  · exact .inl (dvd_trans (pow_dvd_pow 2 hk) h.2)
  · right
    calc v < 2 ^ 53 * 2 ^ spacing v := (spacing_bounds v).1
      _ ≤ 2 ^ 53 * 2 ^ (k - 1) := Nat.mul_le_mul_left _ (Nat.pow_le_pow_right (by omega) (by omega))
      _ = 2 ^ 52 * 2 ^ k := by rw [← Nat.pow_add, ← Nat.pow_add]; congr 1; omega

/-- Everything that a rounding can answer. -/
theorem round_cases (s : Bool) (p q : Nat) (hq : 0 < q) :
    Fp.round s p q = .inf s ∨ ∃ u, Fp.round s p q = .fin s u ∧ Representable u := by
  unfold Fp.round
  split
  · exact .inr ⟨0, rfl, representable_zero⟩
  · simp only
    set k := spacing (p * unitsPerOne / q) with hk
    split
    · exact .inl rfl
    · next h =>
      refine .inr ⟨_, rfl, representable_of_mul ?_ (by omega)⟩
      have hb := (spacing_bounds (p * unitsPerOne / q)).1
      rw [← hk, Nat.div_lt_iff_lt_mul hq] at hb
      apply divNearestEven_le (by positivity)
      calc _ < _ := hb
        _ = _ := by ring

theorem round_eq (neg : Bool) (p q : Nat) (hp : p ≠ 0) : Fp.round neg p q =
    (if overflowUnits ≤ divNearestEven (p * unitsPerOne)
      (q * 2 ^ spacing (p * unitsPerOne / q)) * 2 ^ spacing (p * unitsPerOne / q) then Fp.inf neg
      else Fp.fin neg (divNearestEven (p * unitsPerOne)
        (q * 2 ^ spacing (p * unitsPerOne / q)) * 2 ^ spacing (p * unitsPerOne / q))) := by
  unfold Fp.round; rw [if_neg hp]

/-- A representable fraction rounds to itself. -/
theorem round_exact (s : Bool) (p q u : Nat) (hq : 0 < q) (hu : Representable u) (h : p * unitsPerOne = u * q) :
    Fp.round s p q = .fin s u := by
  unfold Fp.round
  split
  · next h0 =>
    rw [h0, Nat.zero_mul] at h
    rcases Nat.mul_eq_zero.mp h.symm with h | h
    · rw [h]
    · omega
  · have e : p * unitsPerOne / q = u := by rw [h, Nat.mul_div_cancel _ hq]
    simp only [e]
    obtain ⟨m, hm⟩ := hu.2
    have hd : 0 < q * 2 ^ spacing u := by positivity
    have e2 : p * unitsPerOne = m * (q * 2 ^ spacing u) := by
      rw [h]; conv => lhs; rw [hm]
      ring
    have : divNearestEven (p * unitsPerOne) (q * 2 ^ spacing u) = m := by
      unfold divNearestEven
      rw [e2, Nat.mul_mod_left, Nat.mul_div_cancel _ hd, if_neg (by omega)]
    rw [this]
    have e3 : m * 2 ^ spacing u = u := by rw [Nat.mul_comm]; exact hm.symm
    rw [e3, if_neg (by have := hu.1; omega)]

/-- A rounding does not depend on a common factor. -/
theorem round_scale (s : Bool) (p q k : Nat) (hk : 0 < k) : Fp.round s (p * k) (q * k) = Fp.round s p q := by
  unfold Fp.round
  have e0 : p * k = 0 ↔ p = 0 := by simp [Nat.mul_eq_zero]; omega
  have e1 : p * k * unitsPerOne / (q * k) = p * unitsPerOne / q := by
    rw [show p * k * unitsPerOne = p * unitsPerOne * k by ring, Nat.mul_div_mul_right _ _ hk]
  have e2 : ∀ z, divNearestEven (p * k * unitsPerOne) (q * k * z) = divNearestEven (p * unitsPerOne) (q * z) := by
    intro z
    rw [show p * k * unitsPerOne = p * unitsPerOne * k by ring, show q * k * z = q * z * k by ring,
      divNearestEven_scale _ _ _ hk]
  simp only [e0, e1, e2]

/-- The overflow overflow_threshold 2^1024 - 2^970 in units. -/
theorem overflow_threshold : (2 ^ 1024 - 2 ^ 970) * unitsPerOne = (2 ^ 54 - 1) * 2 ^ 2044 := by
  rw [show (2 ^ 1024 - 2 ^ 970 : Nat) = (2 ^ 54 - 1) * 2 ^ 970 by decide +kernel, unitsPerOne, Nat.mul_assoc,
    ← Nat.pow_add]

/-- A rounding overflows from the overflow_threshold on. -/
theorem round_overflow_iff (n q : Nat) (hq : 0 < q) :
    overflowUnits ≤ divNearestEven n (q * 2 ^ spacing (n / q)) * 2 ^ spacing (n / q) ↔
      (2 ^ 54 - 1) * 2 ^ 2044 * q ≤ n := by
  set k := spacing (n / q) with hk
  have hb := spacing_bounds (n / q)
  rw [← hk] at hb
  have hp : 0 < 2 ^ k := by positivity
  have hd : 0 < q * 2 ^ k := by positivity
  have hup : n < 2 ^ 53 * (q * 2 ^ k) := by
    have := (Nat.div_lt_iff_lt_mul hq).mp hb.1
    calc n < _ := this
      _ = _ := by ring
  have hov : overflowUnits = 2 ^ 53 * 2 ^ 2045 := by rw [← Nat.pow_add]; rfl
  have h45 : (2 : Nat) ^ 2045 = 2 * 2 ^ 2044 := by rw [show 2045 = 2044 + 1 from rfl, Nat.pow_succ]; ring
  have hm53 := divNearestEven_le hd hup
  rcases Nat.lt_trichotomy k 2045 with h | h | h
  · have hpk : 2 ^ k ≤ 2 ^ 2044 := Nat.pow_le_pow_right (by omega) (by omega)
    constructor
    · intro h1
      exfalso
      have : divNearestEven n (q * 2 ^ k) * 2 ^ k ≤ 2 ^ 53 * 2 ^ 2044 := Nat.mul_le_mul hm53 hpk
      have h3 : (0:Nat) < 2 ^ 2044 := by positivity
      omega
    · intro h1
      exfalso
      have h2 : 2 ^ 53 * (q * 2 ^ k) ≤ 2 ^ 53 * 2 ^ 2044 * q := by
        calc _ = 2 ^ 53 * q * 2 ^ k := by ring
          _ ≤ 2 ^ 53 * q * 2 ^ 2044 := Nat.mul_le_mul_left _ hpk
          _ = _ := by ring
      have h3 : 2 ^ 53 * 2 ^ 2044 * q ≤ (2 ^ 54 - 1) * 2 ^ 2044 * q :=
        Nat.mul_le_mul_right _ (Nat.mul_le_mul_right _ (by norm_num))
      omega
  · rw [h, hov]
    rw [h] at hup hm53 hd
    have e1 : (2 ^ 54 - 1) * 2 ^ 2044 * q ≤ n ↔ (2 ^ 54 - 1) * (q * 2 ^ 2045) ≤ 2 * n := by
      rw [h45]
      generalize (2:Nat) ^ 2044 = z
      rw [show (2 ^ 54 - 1) * (q * (2 * z)) = 2 * ((2 ^ 54 - 1) * z * q) by ring]
      omega
    rw [e1]
    have e2 : 2 ^ 53 * 2 ^ 2045 ≤ divNearestEven n (q * 2 ^ 2045) * 2 ^ 2045 ↔
      2 ^ 53 ≤ divNearestEven n (q * 2 ^ 2045) :=
      ⟨fun h => Nat.le_of_mul_le_mul_right h (by positivity), fun h => Nat.mul_le_mul_right _ h⟩
    rw [e2]
    generalize q * 2 ^ 2045 = d at *
    have hn := Nat.div_add_mod n d
    have hr := Nat.mod_lt n hd
    have ha : n / d < 2 ^ 53 := (Nat.div_lt_iff_lt_mul hd).mpr hup
    unfold divNearestEven
    rw [Nat.mul_comm] at hn
    by_cases hmax : n / d = 2 ^ 53 - 1
    · rw [hmax] at hn ⊢
      constructor
      · intro h; split at h <;> omega
      · intro h; rw [if_pos]
        · omega
        · omega
    · have hle : n / d * d ≤ (2 ^ 53 - 2) * d := Nat.mul_le_mul_right _ (by omega)
      constructor
      · intro h; split at h <;> omega
      · intro h; omega
  · constructor
    · intro _
      rcases hb.2 with h0 | h0
      · omega
      · have := (Nat.le_div_iff_mul_le hq).mp h0
        have h2 : 2 ^ 2046 ≤ 2 ^ k := Nat.pow_le_pow_right (by omega) (by omega)
        calc (2 ^ 54 - 1) * 2 ^ 2044 * q ≤ 2 ^ 54 * 2 ^ 2044 * q := Nat.mul_le_mul_right _ (Nat.mul_le_mul_right _
          (by norm_num))
          _ = 2 ^ 52 * 2 ^ 2046 * q := by rw [← Nat.pow_add, ← Nat.pow_add]
          _ ≤ 2 ^ 52 * 2 ^ k * q := Nat.mul_le_mul_right _ (Nat.mul_le_mul_left _ h2)
          _ ≤ n := this
    · intro _
      rcases hb.2 with h0 | h0
      · omega
      · have := (Nat.le_div_iff_mul_le hq).mp h0
        have h2 : 2 ^ 2046 ≤ 2 ^ k := Nat.pow_le_pow_right (by omega) (by omega)
        have hm : 2 ^ 52 ≤ divNearestEven n (q * 2 ^ k) := by
          have : 2 ^ 52 ≤ n / (q * 2 ^ k) := by
            rw [Nat.le_div_iff_mul_le hd]
            calc _ = 2 ^ 52 * 2 ^ k * q := by ring
              _ ≤ n := this
          unfold divNearestEven; split <;> omega
        calc overflowUnits = 2 ^ 52 * 2 ^ 2046 := by rw [← Nat.pow_add]; rfl
          _ ≤ _ := Nat.mul_le_mul hm h2

/-- A rounded value is read back from its word. -/
theorem ofWord_toWord_round (q : Word) (s : Bool) (p d : Nat) (hd : 0 < d) :
    Fp.ofWord ((Fp.round s p d).toWord q) = Fp.round s p d := by
  rcases round_cases s p d hd with h | ⟨u, h, hr⟩ <;> rw [h]
  · exact ofWord_toWord_inf q s
  · exact ofWord_toWord_fin q s hr

/-- The rounded quotient of two integers below 2^53 has the integer part of the exact one. -/
theorem round_int_quotient (s : Bool) (a b : Nat) (ha : a < 2 ^ 53) (hb : b < 2 ^ 53) (hb0 : 0 < b) :
    ∃ u, Fp.round s a b = .fin s u ∧ u / unitsPerOne = a / b := by
  unfold Fp.round
  split
  · next h => exact ⟨0, rfl, by rw [h]; simp⟩
  · have hU := unitsPerOne_pos
    set t0 := a * unitsPerOne / b with ht0
    set K := spacing t0 with hK
    have hbd := spacing_bounds t0
    have hKle : K ≤ 1074 := by
      by_contra h
      rcases hbd.2 with h0 | h0
      · omega
      · have h1 : t0 ≤ a * unitsPerOne := Nat.div_le_self _ _
        have h2 : a * unitsPerOne < 2 ^ 53 * unitsPerOne := Nat.mul_lt_mul_of_pos_right ha hU
        rw [← hK] at h0
        have h3 : 2 ^ 52 * 2 ^ 1075 ≤ 2 ^ 52 * 2 ^ K := Nat.mul_le_mul_left _ (Nat.pow_le_pow_right (by omega)
          (by omega))
        have h4 : (2:Nat) ^ 53 * unitsPerOne = 2 ^ 52 * 2 ^ 1075 := by
          rw [show unitsPerOne = 2 ^ 1074 from rfl, ← Nat.pow_add, ← Nat.pow_add]
        omega
    set c := 2 ^ (1074 - K) with hc
    have hcpos : 0 < c := by positivity
    have hUc : unitsPerOne = c * 2 ^ K := (pow_sub_mul_pow 2 hKle).symm
    have hpK : 0 < 2 ^ K := by positivity
    have h2c : b < 2 * c := by
      rcases hbd.2 with h0 | h0
      · rw [← hK] at h0
        rw [hc, h0]
        calc b < 2 ^ 53 := hb
          _ ≤ 2 ^ 1074 := Nat.pow_le_pow_right (by omega) (by omega)
          _ ≤ _ := by omega
      · rw [← hK, ht0, Nat.le_div_iff_mul_le hb0, hUc] at h0
        have h1 : 2 ^ 52 * b * 2 ^ K ≤ a * c * 2 ^ K := by
          calc _ = 2 ^ 52 * 2 ^ K * b := by ring
            _ ≤ _ := h0
            _ = _ := by ring
        have h2 := Nat.le_of_mul_le_mul_right h1 hpK
        have h3 : a * c < 2 ^ 53 * c := Nat.mul_lt_mul_of_pos_right ha hcpos
        omega
    have hm : divNearestEven (a * unitsPerOne) (b * 2 ^ K) = divNearestEven (a * c) b := by
      rw [hUc, ← Nat.mul_assoc]; exact divNearestEven_scale _ _ _ hpK
    have hab := Nat.div_add_mod a b
    have hr := Nat.mod_lt a hb0
    have hlow : a / b * c ≤ divNearestEven (a * c) b := by
      have : a / b * c ≤ a * c / b := by
        rw [Nat.le_div_iff_mul_le hb0]
        calc _ = b * (a / b) * c := by ring
          _ ≤ _ := Nat.mul_le_mul_right _ (by omega)
      unfold divNearestEven; split <;> omega
    have hhigh : divNearestEven (a * c) b < (a / b + 1) * c := by
      have hsp := (divNearestEven_spec (a * c) b hb0 ((a * c / b : Nat) : Int)).1
      by_contra h
      have h := Nat.not_lt.mp h
      have hdef : divNearestEven (a * c) b = a * c / b + 1 ∨ divNearestEven (a * c) b = a * c / b := by
        unfold divNearestEven; split <;> simp
      have hlt : a * c / b < (a / b + 1) * c := by
        rw [Nat.div_lt_iff_lt_mul hb0]
        calc a * c < (b * (a / b) + b) * c := Nat.mul_lt_mul_of_pos_right (by omega) hcpos
          _ = _ := by ring
      have heq : divNearestEven (a * c) b = (a / b + 1) * c := by omega
      -- then the remainder is at least half
      have hup : b ≤ 2 * (a * c % b) := by
        by_contra hh
        have : divNearestEven (a * c) b = a * c / b := by
          unfold divNearestEven; rw [if_neg (by omega)]
        omega
      have hN := Nat.div_add_mod (a * c) b
      have h1 : a * c / b + 1 = (a / b + 1) * c := by omega
      have h2 : b * (a * c / b + 1) = b * ((a / b + 1) * c) := by rw [h1]
      have h3 : b * ((a / b + 1) * c) = (b * (a / b) + b) * c := by ring
      have h4 : (b * (a / b) + b) * c = (a + (b - a % b)) * c := by
        rw [show b * (a / b) + b = a + (b - a % b) by omega]
      have h5 : (a + (b - a % b)) * c = a * c + (b - a % b) * c := by ring
      have h6 : c ≤ (b - a % b) * c := Nat.le_mul_of_pos_left _ (by omega)
      rw [Nat.mul_add, Nat.mul_one] at h2
      omega
    set m := divNearestEven (a * unitsPerOne) (b * 2 ^ K) with hmd
    rw [hm.symm] at hlow hhigh
    have hu : m * 2 ^ K / unitsPerOne = a / b := by
      rw [hUc, Nat.mul_div_mul_right _ _ hpK]
      have h1 := (Nat.le_div_iff_mul_le hcpos).mpr hlow
      have h2 := (Nat.div_lt_iff_lt_mul hcpos).mpr hhigh
      omega
    simp only
    rw [if_neg]
    · exact ⟨_, rfl, hu⟩
    · intro hov
      have h1 := Nat.div_le_div_right (c := unitsPerOne) hov
      rw [hu] at h1
      have h2 : overflowUnits / unitsPerOne = 2 ^ 1024 := by
        rw [show overflowUnits = 2 ^ 1024 * unitsPerOne by
          rw [show overflowUnits = 2 ^ 2098 from rfl, show unitsPerOne = 2 ^ 1074 from rfl, ← Nat.pow_add],
            Nat.mul_div_cancel _ hU]
      have h3 : a / b ≤ a := Nat.div_le_self _ _
      have h4 : (2:Nat) ^ 53 ≤ 2 ^ 1024 := Nat.pow_le_pow_right (by omega) (by omega)
      rw [h2] at h1
      have h5 := (h4.trans h1).trans h3
      omega

/-! ### Signs -/

theorem natAbs_signed (s : Bool) (n : Nat) : (signed s n).natAbs = n := by unfold signed; split <;> simp

/-- same-sign differences -/
theorem signed_sub (s : Bool) (a b : Nat) : (signed s a - signed s b).natAbs = ((a : Int) - b).natAbs := by
  unfold signed; split <;> omega

theorem signed_mul_nat (s : Bool) (a b : Nat) : signed s a * (b : Int) = signed s (a * b) := by
  unfold signed; split <;> push_cast <;> ring

theorem signed_eta (x : Int) : signed (decide (x < 0)) x.natAbs = x := by
  unfold signed; by_cases h : x < 0
  · rw [if_pos (by simp [h])]; omega
  · rw [if_neg (by simp [h])]; omega

theorem signed_not (s : Bool) (u : Nat) : signed (!s) u = - signed s u := by
  cases s <;> simp [signed]

theorem xor_signed (s t : Bool) (u v : Nat) : signed s u * signed t v = signed (s != t) (u * v) := by
  cases s <;> cases t <;> simp [signed]

theorem signed_lt_overflow {s : Bool} {u : Nat} (h : u < overflowUnits) :
    -(overflowUnits : Int) < signed s u ∧ signed s u < overflowUnits := by
  unfold signed; split <;> omega

theorem overflow_pos : 0 < overflowUnits := by unfold overflowUnits; positivity

/-! ### Operations whose results a word holds -/

/-- A NaN, an infinity, or a finite value that a word holds. -/
def Fp.Storable : Fp → Prop
  | .nan => True
  | .inf _ => True
  | .fin _ u => Representable u

theorem storable_ofWord (w : Word) : Fp.Storable (Fp.ofWord w) := by
  cases h : Fp.ofWord w with
  | nan => trivial
  | inf s => trivial
  | fin s u => exact representable_ofWord h

theorem storable_round (s p q) (hq : 0 < q) : Fp.Storable (Fp.round s p q) := by
  rcases round_cases s p q hq with h | ⟨u, h, hr⟩ <;> rw [h]
  · exact True.intro
  · exact hr

theorem storable_add (a b : Fp) (ha : Fp.Storable a) (hb : Fp.Storable b) : Fp.Storable (Fp.add a b) := by
  cases a <;> cases b <;> simp only [Fp.add] <;> (try exact True.intro)
  · split <;> exact True.intro
  · split
    · exact representable_zero
    · exact storable_round _ _ _ unitsPerOne_pos

theorem storable_neg (a : Fp) (ha : Fp.Storable a) : Fp.Storable (Fp.neg a) := by cases a <;> exact ha

theorem storable_mul (a b : Fp) : Fp.Storable (Fp.mul a b) := by
  cases a <;> cases b <;> simp only [Fp.mul] <;> (try exact True.intro)
  · split <;> exact True.intro
  · split <;> exact True.intro
  · exact storable_round _ _ _ (Nat.mul_pos unitsPerOne_pos unitsPerOne_pos)

theorem storable_div (a b : Fp) : Fp.Storable (Fp.div a b) := by
  cases a <;> cases b <;> simp only [Fp.div] <;> (try exact True.intro)
  · exact representable_zero
  · split
    · split <;> exact True.intro
    · exact storable_round _ _ _ (by omega)

/-- The five operations answer values that a word holds. -/
theorem storable_arith (f : Fp → Fp → Fp) (hf : f ∈ [Fp.add, Fp.sub, Fp.mul, Fp.div, Fp.mod]) (a b : Fp) (ha :
    Fp.Storable a) (hb : Fp.Storable b) : Fp.Storable (f a b) := by
  fin_cases hf
  · exact storable_add a b ha hb
  · exact storable_add a _ ha (storable_neg b hb)
  · exact storable_mul a b
  · exact storable_div a b
  · exact storable_add a _ ha (storable_neg _ (storable_mul _ _))

/-- Such a value is read back from its word, or is the one NaN (R107). -/
theorem storable_toWord (f : Fp) (q : Word) (h : Fp.Storable f) :
    (Fp.ofWord (f.toWord q) = f ∧ f ≠ .nan) ∨ (f = .nan ∧ f.toWord q = q) := by
  cases f with
  | nan => exact .inr ⟨rfl, rfl⟩
  | inf s => exact .inl ⟨ofWord_toWord_inf q s, by simp⟩
  | fin s u => exact .inl ⟨ofWord_toWord_fin q s h, by simp⟩

/-- The value of the word that an operation pushes. -/
theorem ofWord_onWords (f : Fp → Fp → Fp) (q a b : Word) (h : Fp.Storable (f (Fp.ofWord a) (Fp.ofWord b)))
    (hn : f (Fp.ofWord a) (Fp.ofWord b) ≠ .nan) : Fp.ofWord (onWords f q a b) = f (Fp.ofWord a) (Fp.ofWord b) := by
  unfold onWords
  rcases storable_toWord _ q h with ⟨h1, _⟩ | ⟨h1, _⟩
  · exact h1
  · exact absurd h1 hn

theorem place_none (a : Fp) : a.place = none ↔ a = .nan := by cases a <;> simp [Fp.place]

/-! ### Integers -/

/-- Integers up to 2^53 are binary64 values (R106). -/
theorem representable_int {n : Nat} (h : n ≤ 2 ^ 53) : Representable (n * unitsPerOne) := by
  apply representable_of_mul h
  calc n * 2 ^ 1074 ≤ 2 ^ 53 * 2 ^ 1074 := Nat.mul_le_mul_right _ h
    _ < overflowUnits := by rw [← Nat.pow_add]; exact Nat.pow_lt_pow_right (by omega) (by omega)

theorem ofWord_intWord {z : Int} (h : z.natAbs ≤ 2 ^ 53) :
    Fp.ofWord (intWord z) = .fin (decide (z < 0)) (z.natAbs * unitsPerOne) :=
  ofWord_toWord_fin 0 _ (representable_int h)

theorem signed_int (z : Int) : signed (decide (z < 0)) (z.natAbs * unitsPerOne) = z * unitsPerOne := by
  rw [← signed_mul_nat, signed_eta]

/-- QNAN plays no part in a finite word. -/
theorem toWord_fin_q (q q' : Word) (s u) : (Fp.fin s u).toWord q = (Fp.fin s u).toWord q' := rfl

/-- A sum of integers within 2^53 is exact, and +0.0 when it is zero (R101, R106). -/
theorem add_int (x y : Int) (h : (x + y).natAbs ≤ 2 ^ 53) (s t : Bool) (u v : Nat)
    (hx : signed s u = x * unitsPerOne) (hy : signed t v = y * unitsPerOne) (hst : (s && t) = true → x + y ≠ 0) :
    Fp.add (.fin s u) (.fin t v) = .fin (decide (x + y < 0)) ((x + y).natAbs * unitsPerOne) := by
  have hpos := unitsPerOne_pos
  have hposI : (0 : Int) < unitsPerOne := by exact_mod_cast hpos
  have e : signed s u + signed t v = (x + y) * unitsPerOne := by rw [hx, hy]; ring
  simp only [Fp.add, e]
  split
  · next h0 =>
    have h1 : x + y = 0 := by
      rcases Int.mul_eq_zero.mp h0 with h | h
      · exact h
      · omega
    rw [h1]
    have : (s && t) = false := by
      by_contra h'; exact hst (by simpa using h') h1
    rw [this]; simp
  · next h0 =>
    have e1 : decide ((x + y) * unitsPerOne < 0) = decide (x + y < 0) := by
      congr 1; apply propext; constructor
      · intro h; by_contra h'; have : 0 ≤ (x+y) * unitsPerOne := mul_nonneg (by omega) hposI.le; omega
      · intro h; exact mul_neg_of_neg_of_pos h hposI
    rw [e1]
    apply round_exact _ _ _ _ hpos (representable_int h)
    rw [Int.natAbs_mul, Int.natAbs_natCast]

theorem xor_neg {x y : Int} (hx : x ≠ 0) (hy : y ≠ 0) : (decide (x < 0) != decide (y < 0)) = decide (x * y < 0) := by
  rcases lt_or_gt_of_ne hx with h1 | h1 <;> rcases lt_or_gt_of_ne hy with h2 | h2
  · have := mul_pos_of_neg_of_neg h1 h2; simp [h1, h2]; omega
  · have := mul_neg_of_neg_of_pos h1 h2; simp [h1, h2, this]; omega
  · have := mul_neg_of_pos_of_neg h1 h2; simp [h1, h2, this]; omega
  · have := mul_pos h1 h2
    rw [decide_eq_false (by omega), decide_eq_false (by omega), decide_eq_false (by omega)]; rfl

theorem mod_eq (a b : Fp) : Fp.mod a b = Fp.add a (Fp.neg (Fp.mul (Fp.trunc (Fp.div a b)) b)) := rfl

theorem trunc_fin (s u) : Fp.trunc (.fin s u) = .fin s (u / unitsPerOne * unitsPerOne) := rfl

theorem neg_fin (s u) : Fp.neg (.fin s u) = .fin (!s) u := rfl

theorem add_nat (m n : Nat) (h : m + n ≤ 2 ^ 53) :
    Fp.add (.fin false (m * unitsPerOne)) (.fin false (n * unitsPerOne)) = .fin false ((m + n) * unitsPerOne) := by
  have := add_int m n (by omega) false false (m * unitsPerOne) (n * unitsPerOne) (Nat.cast_mul _ _) (Nat.cast_mul _ _)
    (by intro h; cases h)
  have e : decide ((m : Int) + n < 0) = false := decide_eq_false (by omega)
  rw [this, e, ← Nat.cast_add, Int.natAbs_natCast]

theorem mul_nat (m n : Nat) (h : m * n ≤ 2 ^ 53) :
    Fp.mul (.fin false (m * unitsPerOne)) (.fin false (n * unitsPerOne)) = .fin false (m * n * unitsPerOne) := by
  simp only [Fp.mul]
  rw [round_exact _ _ _ _ (Nat.mul_pos unitsPerOne_pos unitsPerOne_pos) (representable_int h) (by ring)]
  rfl

/-- R77: integers up to 2^53 convert exactly. -/
theorem u2w_exact {u : Nat} (h : u ≤ 2 ^ 53) : Fp.ofWord (u2w u) = .fin false (u * unitsPerOne) := by
  unfold u2w
  rw [ofWord_toWord_round _ _ _ _ (by omega), round_exact _ _ _ _ (by omega) (representable_int h)
    (by rw [Nat.mul_one])]

theorem be_foldl (bs : List Byte) (n : Nat) : n ≤ bs.foldl (fun n b => n * 256 + b.toNat) n := by
  induction bs generalizing n with
  | nil => exact Nat.le_refl _
  | cons b bs ih => exact Nat.le_trans (by show n ≤ n * 256 + b.toNat; omega) (ih _)

theorem accumulate_foldl (bs : List Byte) (n : Nat) (h : bs.foldl (fun n b => n * 256 + b.toNat) n ≤ 2 ^ 53) :
    bs.foldl (fun v b => Fp.add (Fp.mul v (.fin false (256 * unitsPerOne))) (Fp.ofByte b))
      (.fin false (n * unitsPerOne))
      = .fin false (bs.foldl (fun n b => n * 256 + b.toNat) n * unitsPerOne) := by
  induction bs generalizing n with
  | nil => rw [List.foldl_nil, List.foldl_nil]
  | cons b bs ih =>
    simp only [List.foldl_cons] at h ⊢
    have h1 := (be_foldl bs (n * 256 + b.toNat)).trans h
    have h2 : n * 256 ≤ 2 ^ 53 := (Nat.le_add_right _ _).trans h1
    rw [mul_nat n 256 h2, Fp.ofByte, add_nat _ _ h1]
    exact ih _ h

/-- R79: below 2^53 no step of the accumulation rounds. -/
theorem accumulate_exact (bs : List Byte) (h : be bs ≤ 2 ^ 53) : accumulate bs = .fin false (be bs * unitsPerOne) := by
  unfold accumulate be
  have := accumulate_foldl bs 0 h
  rwa [Nat.zero_mul] at this

/-! ### What is never a NaN -/

theorem not_nan_toWord {q : Word} {f : Fp} (hok : Fp.Storable f) (hn : f ≠ .nan) : ¬ Word.IsNaN (f.toWord q) := by
  rw [isNaN_iff]
  rcases storable_toWord f q hok with ⟨h, _⟩ | ⟨h, _⟩
  · rw [h]; exact hn
  · exact absurd h hn

theorem round_ne_nan (s p q) (hq : 0 < q) : Fp.round s p q ≠ .nan := by
  rcases round_cases s p q hq with h | ⟨u, h, _⟩ <;> rw [h] <;> simp

/-- R107: U2W gives no NaN. -/
theorem not_nan_u2w (u : Nat) :
    ¬ Word.IsNaN (u2w u) := not_nan_toWord (storable_round _ _ _ (by omega)) (round_ne_nan _ _ _ (by omega))

/-- A value with a clear sign that is no NaN. -/
def Fp.NonNeg : Fp → Prop
  | .nan => False
  | .inf s => s = false
  | .fin s u => s = false ∧ Representable u

theorem nonNeg_round (p q : Nat) (hq : 0 < q) : Fp.NonNeg (Fp.round false p q) := by
  rcases round_cases false p q hq with h | ⟨u, h, hr⟩ <;> rw [h]
  · rfl
  · exact ⟨rfl, hr⟩

theorem nonNeg_mul (v : Fp) (n : Nat) (hn : n ≠ 0) (h : Fp.NonNeg v) : Fp.NonNeg (Fp.mul v (.fin false n)) := by
  cases v with
  | nan => exact h
  | inf s => cases h; simp [Fp.mul, hn, Fp.NonNeg]
  | fin s u => obtain ⟨rfl, _⟩ := h; exact nonNeg_round _ _ (Nat.mul_pos unitsPerOne_pos unitsPerOne_pos)

theorem nonNeg_add (v : Fp) (n : Nat) (h : Fp.NonNeg v) : Fp.NonNeg (Fp.add v (.fin false n)) := by
  cases v with
  | nan => exact h
  | inf s => exact h
  | fin s u =>
    obtain ⟨rfl, _⟩ := h
    rw [Fp.add]
    split
    · exact ⟨rfl, representable_zero⟩
    · rw [decide_eq_false (by rw [signed_false, signed_false]; omega)]
      exact nonNeg_round _ _ unitsPerOne_pos

theorem nonNeg_accumulate (bs : List Byte) (v : Fp) (h : Fp.NonNeg v) :
    Fp.NonNeg (bs.foldl (fun v b => Fp.add (Fp.mul v (.fin false (256 * unitsPerOne))) (Fp.ofByte b)) v) := by
  induction bs generalizing v with
  | nil => exact h
  | cons b bs ih =>
    have hn : 256 * unitsPerOne ≠ 0 := by have := unitsPerOne_pos; omega
    exact ih _ (nonNeg_add _ _ (nonNeg_mul v _ hn h))

theorem Fp.NonNeg.not_nan {q : Word} {f : Fp} (h : Fp.NonNeg f) : ¬ Word.IsNaN (f.toWord q) := by
  cases f with
  | nan => exact h.elim
  | inf s => exact not_nan_toWord (f := .inf s) trivial (by simp)
  | fin s u => exact not_nan_toWord (f := .fin s u) h.2 (by simp)

/-- R107: I2W gives no NaN. -/
theorem not_nan_i2w (c : NumConv) (bs : List Byte) : ¬ Word.IsNaN (i2w c bs) := by
  cases c with
  | accumulate => exact (nonNeg_accumulate bs (.fin false 0) ⟨rfl, representable_zero⟩).not_nan
  | roundOnce => exact (nonNeg_round _ _ (by omega)).not_nan

end Sys2Proof.Machine
end

