-- ==== Sys2Proof/Laws/Invariance.lean ====
section
/-! SUPPORT. One induction for every property that holds of all runs: a property of states (and one of the words that
go through the stack) that the primitives keep is kept by every instruction. -/

namespace Sys2Proof.Machine

/-- However `r` ends, its state has `P` and its result has `G`; it stops only if `B`. -/
def Res.Ends {α : Type} (B : Prop) (P : State → Prop) (G : α → Prop) : Res α → Prop
  | .ok a s => P s ∧ G a
  | .raised s => P s
  | .stopped _ => B

theorem Res.Ends.andThen {α β : Type} {B : Prop} {P : State → Prop} {G : α → Prop} {H : β → Prop} {r : Res α}
    {k : α → State → Res β} (hr : Res.Ends B P G r) (hk : ∀ a s, P s → G a → Res.Ends B P H (k a s)) : Res.Ends B P H (r.andThen k) := by
  cases r with
  | ok a s => exact hk a s hr.1 hr.2
  | raised s => exact hr
  | stopped f => exact hr

theorem Res.Ends.weaken {α : Type} {B : Prop} {P : State → Prop} {G H : α → Prop} {r : Res α} (hr : Res.Ends B P G r)
    (h : ∀ a, G a → H a) : Res.Ends B P H r := by
  cases r with
  | ok a s => exact ⟨hr.1, h a hr.2⟩
  | raised s => exact hr
  | stopped f => exact hr

theorem Res.Ends.outcome {α : Type} {B : Prop} {P : State → Prop} {G : α → Prop} {r : Res α} (hr : Res.Ends B P G r) :
    (∃ t, r.outcome = .next t ∧ P t) ∨ (B ∧ ∃ f, r.outcome = .fault f) := by
  cases r with
  | ok a s => exact .inl ⟨s, rfl, hr.1⟩
  | raised s => exact .inl ⟨s, rfl, hr⟩
  | stopped f => exact .inr ⟨hr, f, rfl⟩

/-- The primitives, INT and the illegal-instruction fault keep `P`, and every word that they hand on, or that an
instruction computes, has `G`. `q` is the pattern QNAN; stops are allowed if `B`. -/
structure PrimitivesKeep (B : Prop) (P : State → Prop) (G : Word → Prop) (q : Word) : Prop where
  qn : ∀ s, P s → s.params.qnan = q
  fetch : ∀ s, P s → Res.Ends B P (fun _ => True) (fetch s)
  push : ∀ v s, P s → G v → Res.Ends B P (fun _ => True) (push v s)
  pop : ∀ s, P s → Res.Ends B P G (pop s)
  readAt : ∀ i s, P s → Res.Ends B P G (readAt i s)
  writeAt : ∀ i v s, P s → G v → Res.Ends B P (fun _ => True) (writeAt i v s)
  jumpTo : ∀ i s, P s → Res.Ends B P (fun _ => True) (jumpTo i s)
  illegal : ∀ s, P s → P (s.requestFault illegalInstruction)
  int : ∀ (v : Byte) s, P s → P (s.setIc (v.setWidth 16))
  gzero : G plusZero
  gu : ∀ u, G (u2w u)
  gi : ∀ c b, G (i2w c b)
  gf : ∀ f ∈ [Fp.add, Fp.sub, Fp.mul, Fp.div, Fp.mod], ∀ a b, G (onWords f q a b)

variable {B : Prop} {P : State → Prop} {G : Word → Prop} {q : Word}

/-- A script whose every operation keeps `P`, wherever it is reached. -/
inductive Script.Keeps (B : Prop) (P : State → Prop) : Script → Prop where
  | done : Script.Keeps B P .done
  | op {β : Type} {p : State → Res β} {k : β → State → Script} (H : β → Prop)
      (hp : ∀ s, P s → Res.Ends B P H (p s)) (hk : ∀ b s, P s → H b → Script.Keeps B P (k b s)) :
      Script.Keeps B P (.op p k)

theorem Script.Keeps.run {c : Script} (h : c.Keeps B P) (s : State) (hs : P s) :
    Res.Ends B P (fun _ => True) (c.run s) := by
  induction h generalizing s with
  | done => exact ⟨hs, trivial⟩
  | op H hp _ ih => exact (hp s hs).andThen fun b t ht hb => ih b t ht hb t ht

/-- A part of a script keeps what all of it keeps. -/
theorem Script.Keeps.runFirst {c : Script} (h : c.Keeps B P) (n : Nat) (s : State) (hs : P s) :
    P (Script.runFirst n c s) := by
  induction h generalizing s n with
  | done => rw [Script.runFirst_done]; exact hs
  | @op _ p k H hp _ ih =>
    cases n with
    | zero => exact hs
    | succ n =>
      have h := hp s hs
      simp only [Script.runFirst]
      cases hq : p s with
      | ok b t => rw [hq] at h; exact ih b t h.1 h.2 n t h.1
      | raised t => rw [hq] at h; exact h
      | stopped f => exact hs

theorem Script.Keeps.exec {c : Script} (h : c.Keeps B P) (s : State) (hs : P s) :
    (∃ t, c.exec s = .next t ∧ P t) ∨ (B ∧ ∃ f, c.exec s = .fault f) := (h.run s hs).outcome

theorem Script.Keeps.last {β : Type} {p : State → Res β} {H : β → Prop} (hp : ∀ s, P s → Res.Ends B P H (p s)) :
    (lastly p).Keeps B P := .op H hp fun _ _ _ _ => .done

theorem PrimitivesKeep.fetches (h : PrimitivesKeep B P G q) (n : Nat) {k : Script} (hk : k.Keeps B P) :
    (fetches n k).Keeps B P := by
  induction n with
  | zero => exact hk
  | succ n ih => exact .op _ h.fetch fun _ _ _ _ => ih

theorem PrimitivesKeep.pushGroups (h : PrimitivesKeep B P G q) (conv : NumConv) (gs : List (List Byte)) :
    (pushGroups conv gs).Keeps B P := by
  induction gs with
  | nil => exact .done
  | cons g gs ih => exact h.fetches _ (.op _ (fun s hs => h.push _ s hs (h.gi _ _)) fun _ _ _ _ => ih)

theorem PrimitivesKeep.pushZeros (h : PrimitivesKeep B P G q) (n : Nat) : (pushZeros n).Keeps B P := by
  induction n with
  | zero => exact .done
  | succ n ih => exact .op _ (fun s hs => h.push _ s hs h.gzero) fun _ _ _ _ => ih

theorem PrimitivesKeep.popMany (h : PrimitivesKeep B P G q) (n : Nat) : (popMany n).Keeps B P := by
  induction n with
  | zero => exact .done
  | succ n ih => exact .op _ h.pop fun _ _ _ _ => ih

theorem PrimitivesKeep.binop (h : PrimitivesKeep B P G q) (f : Word → Word → Word) (hf : ∀ a b, G (f a b)) :
    (binop f).Keeps B P :=
  h.fetches 1 (.op _ h.pop fun _ _ _ _ => .op _ h.pop fun _ _ _ _ => .last fun s hs => h.push _ s hs (hf _ _))

theorem PrimitivesKeep.bitop (h : PrimitivesKeep B P G q) (bw : BitWidth) (f : Nat → Nat → Nat) :
    (bitop bw f).Keeps B P :=
  h.binop _ fun _ _ => h.gu _

theorem PrimitivesKeep.condJump (h : PrimitivesKeep B P G q) (bw : BitWidth) (c : Word → Word → Bool) :
    (condJump bw c).Keeps B P :=
  h.fetches 1 (.op _ h.pop fun _ _ _ _ => .op _ h.pop fun _ _ _ _ => .op _ h.pop fun _ _ _ _ => by
    split
    · exact .last fun s hs => h.jumpTo _ s hs
    · exact .done)

/-- Every instruction is made of what the primitives keep. -/
theorem PrimitivesKeep.scriptOf (h : PrimitivesKeep B P G q) (p : Params) (hq : p.qnan = q) (i : Instr) :
    (scriptOf p i).Keeps B P := by
  have hg : ∀ f ∈ [Fp.add, Fp.sub, Fp.mul, Fp.div, Fp.mod], ∀ a b, G (onWords f p.qnan a b) := by
    rw [hq]; exact h.gf
  cases i with
  | nop => exact h.fetches 1 .done
  | int v => exact h.fetches 2 (.last (H := fun _ => True) fun s hs => ⟨h.int v s hs, trivial⟩)
  | num ds => exact h.fetches _ (.last fun s hs => h.push _ s hs (h.gi _ _))
  | arr w gs => exact h.fetches _ (h.pushGroups _ gs)
  | set => exact h.fetches 1 (.op _ h.pop fun _ _ _ _ => .op _ h.pop fun _ _ _ hv =>
      .last fun s hs => h.writeAt _ _ s hs hv)
  | get => exact h.fetches 1 (.op _ h.pop fun _ _ _ _ => .op _ (h.readAt _) fun _ _ _ hv =>
      .last fun s hs => h.push _ s hs hv)
  | inc => exact h.fetches 1 (.op _ h.pop fun _ _ _ _ => h.pushZeros _)
  | dec => exact h.fetches 1 (.op _ h.pop fun _ _ _ _ => h.popMany _)
  | dup =>
    refine .op _ h.fetch fun _ s hs _ => ?_
    split
    · exact .done
    · exact .op _ (h.readAt _) fun _ _ _ hv => .last fun s hs => h.push _ s hs hv
  | pop => exact h.fetches 1 (.last h.pop)
  | rot =>
    refine .op _ h.fetch fun _ s hs _ => ?_
    split
    · exact .done
    · exact .op _ (h.readAt _) fun _ _ _ hx => .op _ (h.readAt _) fun _ _ _ hy =>
        .op _ (fun s hs => h.writeAt _ _ s hs hy) fun _ _ _ _ => .last fun s hs => h.writeAt _ _ s hs hx
  | jmp => exact h.fetches 1 (.op _ h.pop fun _ _ _ _ => .last (h.jumpTo _))
  | jeq => exact h.condJump _ _
  | jne => exact h.condJump _ _
  | jls => exact h.condJump _ _
  | jle => exact h.condJump _ _
  | add => exact h.binop _ (hg _ (by simp))
  | sub => exact h.binop _ (hg _ (by simp))
  | mul => exact h.binop _ (hg _ (by simp))
  | div => exact h.binop _ (hg _ (by simp))
  | mod => exact h.binop _ (hg _ (by simp))
  | not => exact h.fetches 1 (.op _ h.pop fun _ _ _ _ => .last fun s hs => h.push _ s hs (h.gu _))
  | and => exact h.bitop _ _
  | bor => exact h.bitop _ _
  | xor => exact h.bitop _ _
  | lsh => exact h.bitop _ _
  | rsh => exact h.bitop _ _
  | reg sel =>
    refine .op _ h.fetch fun _ _ _ _ => .op _ h.fetch fun _ s hs _ => ?_
    split
    · exact .last fun s hs => h.push _ s hs (h.gu _)
    · exact .last (H := fun _ => True) h.illegal

/-- A meaning runs the whole script of its instruction. -/
theorem exec_eq_scriptOf (i : Instr) (s : State) : exec i s = (scriptOf s.params i).exec s := by
  cases i <;> rfl

/-- Every instruction keeps what the primitives keep. -/
theorem PrimitivesKeep.exec (h : PrimitivesKeep B P G q) (i : Instr) (s : State) (hs : P s) :
    (∃ t, exec i s = .next t ∧ P t) ∨ (B ∧ ∃ f, exec i s = .fault f) := by
  rw [exec_eq_scriptOf]; exact (h.scriptOf _ (h.qn s hs) i).exec s hs

/-- A step that reset abandons keeps what the primitives keep. -/
theorem PrimitivesKeep.abandon (h : PrimitivesKeep B P G q) (s : State) (ops : Nat) (hs : P s) :
    P (s.abandon ops) := by
  have hn : Res.Ends True P (fun _ => True) (nextInstr s) := by
    unfold nextInstr
    have hf := h.fetch s hs
    cases hq : Machine.fetch s with
    | ok b t =>
      rw [hq] at hf
      simp only [Res.ok_andThen]
      split
      · exact ⟨hs, trivial⟩
      · exact h.illegal t hf.1
    | raised t => rw [hq] at hf; exact hf
    | stopped f => trivial
  unfold State.abandon
  split
  · split
    · next i t he => rw [he] at hn; exact (h.scriptOf _ (h.qn t hn.1) i).runFirst ops t hn.1
    · next t he => rw [he] at hn; exact hn
    · exact hs
  · exact hs

end Sys2Proof.Machine
end

