-- ==== Sys2Proof/Laws/Abandon.lean ====
section
/-! SUPPORT. What the first primitives of an instruction do, for a step that reset abandons (R141). -/

namespace Sys2Proof.Machine

/-- The stack slots that the first operations of INC's loop have written: as many as fit, from SP upward (R89). -/
theorem runFirst_pushZeros (n ops : Nat) (s : State) (h : s.sp.toNat ≤ s.stackCap.toNat) (k : Nat)
    (hk : k = min (min ops n) (s.stackCap.toNat - s.sp.toNat)) :
    (∀ a, s.sp.toNat ≤ a → a < s.sp.toNat + k →
      (Script.runFirst ops (pushZeros n) s).written a = some plusZero) ∧
    KeepsSlots s (Script.runFirst ops (pushZeros n) s) (fun a => s.sp.toNat ≤ a ∧ a < s.sp.toNat + k) := by
  induction n generalizing ops s k with
  | zero =>
    rw [pushZeros, Script.runFirst_done]
    exact ⟨fun a => by omega, fun _ _ => rfl⟩
  | succ n ih =>
    cases ops with
    | zero => exact ⟨fun a => by omega, fun _ _ => rfl⟩
    | succ ops =>
      rw [pushZeros]
      by_cases hf : s.sp.toNat = s.stackCap.toNat
      · rw [Script.runFirst_raised (push_full (BitVec.eq_of_toNat_eq hf))]
        exact ⟨fun a => by omega, fun a _ => State.requestFault_written s _ a⟩
      · have e := sp_succ_toNat (s := s) (by omega)
        rw [Script.runFirst_ok (push_ok (by omega))]
        obtain ⟨h1, h2⟩ := ih ops ((s.setSlot s.sp.toNat plusZero).setSp (s.sp + 1))
          (by simp only [State.setSp_sp, e, State.setSp_stackCap, State.setSlot_stackCap]; omega) (k - 1)
          (by simp only [State.setSp_sp, e, State.setSp_stackCap, State.setSlot_stackCap]; omega)
        simp only [State.setSp_sp, e] at h1 h2
        refine ⟨fun a ha hb => ?_, fun a ha => ?_⟩
        · by_cases he : a = s.sp.toNat
          · rw [h2 a (by omega), he]; simp
          · exact h1 a (by omega) (by omega)
        · rw [h2 a (by omega)]; simp; omega

/-- The stack slots that the first operations of ARR's loop have written: one for each group whose `w` Fetches and
whose Push are among them, as many as fit, from SP upward (R86). -/
theorem runFirst_pushGroups (conv : NumConv) (w ops : Nat) (gs : List (List Byte)) (s : State)
    (hg : ∀ g ∈ gs, g.length = w) (hp : s.pc.toNat + w * gs.length ≤ s.progLen.toNat)
    (h : s.sp.toNat ≤ s.stackCap.toNat) (k : Nat)
    (hk : k = min (min (ops / (w + 1)) gs.length) (s.stackCap.toNat - s.sp.toNat)) :
    (∀ j, j < k → ∀ hj : j < gs.length,
      (Script.runFirst ops (pushGroups conv gs) s).written (s.sp.toNat + j) = some (i2w conv gs[j])) ∧
    KeepsSlots s (Script.runFirst ops (pushGroups conv gs) s)
      (fun a => s.sp.toNat ≤ a ∧ a < s.sp.toNat + k) := by
  induction gs generalizing ops s k with
  | nil =>
    rw [pushGroups, Script.runFirst_done]
    exact ⟨fun j hj h => absurd h (by simp), fun _ _ => rfl⟩
  | cons g gs ih =>
    simp only [List.length_cons, Nat.mul_succ] at hp hk
    rw [pushGroups, hg g (by simp)]
    by_cases ho : ops ≤ w
    · rw [Nat.div_eq_of_lt (by omega)] at hk
      rw [runFirst_few_fetches (by omega) ho]
      exact ⟨fun j hj => by omega, fun _ _ => rfl⟩
    · obtain ⟨m, rfl⟩ : ∃ m, ops = w + (m + 1) := ⟨ops - w - 1, by omega⟩
      rw [show w + (m + 1) = m + (w + 1) by omega, Nat.add_div_right _ (by omega)] at hk
      generalize hq : m / (w + 1) = q at hk
      rw [runFirst_fetches (by omega)]
      by_cases hf : s.sp.toNat = s.stackCap.toNat
      · rw [Script.runFirst_raised (push_full (s := s.setPc (s.pc + BitVec.ofNat 32 w)) (BitVec.eq_of_toNat_eq hf))]
        exact ⟨fun j hj => by omega, fun a _ => State.requestFault_written _ _ a⟩
      · have hpc := pc_add_toNat (s := s) (n := w) (by omega)
        have e : (s.sp + 1).toNat = _ := sp_succ_toNat (s := s) (by omega)
        rw [Script.runFirst_ok (push_ok (s := s.setPc (s.pc + BitVec.ofNat 32 w)) (by simp only [State.setPc_sp, State.setPc_stackCap]; omega))]
        obtain ⟨h1, h2⟩ := ih m
          (((s.setPc (s.pc + BitVec.ofNat 32 w)).setSlot s.sp.toNat (i2w conv g)).setSp (s.sp + 1))
          (fun g hg' => hg g (List.mem_cons_of_mem _ hg'))
          (by simp only [State.setSp_pc, State.setSlot_pc, State.setPc_pc, State.setSp_progLen,
                State.setSlot_progLen, State.setPc_progLen, hpc]
              omega)
          (by simp only [State.setSp_sp, e, State.setSp_stackCap, State.setSlot_stackCap, State.setPc_stackCap]
              omega) (k - 1)
          (by simp only [hq, State.setSp_sp, e, State.setSp_stackCap, State.setSlot_stackCap, State.setPc_stackCap]
              omega)
        simp only [State.setSp_sp, e] at h1 h2
        refine ⟨fun j hj hjl => ?_, fun a ha => ?_⟩
        · cases j with
          | zero => rw [Nat.add_zero]; exact (h2 _ (by omega)).trans (by simp)
          | succ j =>
            rw [show s.sp.toNat + (j + 1) = s.sp.toNat + 1 + j by omega]
            exact h1 j (by omega) (by simpa using hjl)
        · exact (h2 a (by omega)).trans (by simp; omega)

/-! ### Instructions that store one word at most -/

/-- Operation `p` leaves STK as it is, also where it faults. -/
abbrev KeepsStk {β : Type} (p : State → Res β) : Prop :=
  ∀ s, Res.Ends True (fun t => t.stk = s.stk) (fun _ => True) (p s)

/-- Every operation leaves STK as it is. -/
inductive Script.StoresNothing : Script → Prop where
  | done : Script.StoresNothing .done
  | op {β : Type} {p : State → Res β} {k : β → State → Script} (hp : KeepsStk p)
      (hk : ∀ b s, Script.StoresNothing (k b s)) : Script.StoresNothing (.op p k)

/-- Such a script, abandoned anywhere, has left STK as it was. -/
theorem Script.StoresNothing.runFirst {c : Script} (h : c.StoresNothing) (n : Nat) (s : State) :
    (Script.runFirst n c s).stk = s.stk := by
  induction h generalizing n s with
  | done => rw [Script.runFirst_done]
  | @op _ p k hp _ ih =>
    cases n with
    | zero => rfl
    | succ n =>
      have hq := hp s
      simp only [Script.runFirst]
      cases e : p s with
      | ok b u => rw [e] at hq; exact (ih b u n u).trans hq.1
      | raised u => rw [e] at hq; exact hq
      | stopped f => rfl

/-- At most operation `n`, counted from 0, stores, and nothing comes after it. -/
inductive Script.StoresAt : Nat → Script → Prop where
  | done (n : Nat) : Script.StoresAt n .done
  | quiet {n : Nat} {β : Type} {p : State → Res β} {k : β → State → Script} (hp : KeepsStk p)
      (hk : ∀ b s, Script.StoresAt n (k b s)) : Script.StoresAt (n + 1) (.op p k)
  | last {β : Type} (p : State → Res β) : Script.StoresAt 0 (lastly p)

/-- Such a script, abandoned after `ops` operations, has left STK as it was if the one that stores is not among them,
and else as the whole script leaves it. -/
theorem Script.StoresAt.runFirst {n : Nat} {c : Script} (h : c.StoresAt n) (ops : Nat) (s t : State)
    (ht : c.exec s = .next t) : (Script.runFirst ops c s).stk = if ops ≤ n then s.stk else t.stk := by
  induction h generalizing ops s with
  | done n => cases ht; rw [Script.runFirst_done, ite_self]
  | @quiet n _ p k hp _ ih =>
    cases ops with
    | zero => rfl
    | succ ops =>
      have hq := hp s
      simp only [Script.exec, Script.run_op] at ht
      simp only [Script.runFirst, Nat.add_le_add_iff_right]
      cases e : p s with
      | ok b u =>
        rw [e] at hq ht
        have hs : u.stk = s.stk := hq.1
        rw [← hs]; exact ih b u ops u ht
      | raised u => rw [e] at hq ht; cases ht; rw [show t.stk = s.stk from hq, ite_self]
      | stopped f => rw [e] at ht; cases ht
  | last p =>
    cases ops with
    | zero => rfl
    | succ ops =>
      simp only [Script.exec, Script.run_lastly] at ht
      simp only [lastly, Script.runFirst]
      cases e : p s with
      | ok b u => rw [e] at ht; cases ht; exact congrArg State.stk (Script.runFirst_done ops _)
      | raised u => rw [e] at ht; cases ht; rfl
      | stopped f => rw [e] at ht; cases ht

theorem fetch_keeps_stk : KeepsStk fetch := by
  intro s
  rcases fetch_cases s with ⟨_, e⟩ | ⟨_, e⟩ | ⟨_, e⟩ <;> rw [e]
  · exact ⟨rfl, trivial⟩
  · exact State.requestFault_stk s _
  · trivial

theorem pop_keeps_stk : KeepsStk pop := by
  intro s
  rcases pop_cases s with ⟨_, _, e⟩ | ⟨_, e⟩ | ⟨_, e⟩ <;> rw [e]
  · exact ⟨rfl, trivial⟩
  · exact State.requestFault_stk s _
  · trivial

theorem readAt_keeps_stk (i : Nat) : KeepsStk (readAt i) := by
  intro s
  rcases readAt_cases i s with ⟨_, _, e⟩ | ⟨_, e⟩ | ⟨_, _, e⟩ <;> rw [e]
  · exact ⟨rfl, trivial⟩
  · exact State.requestFault_stk s _
  · trivial

theorem jumpTo_keeps_stk (a : Nat) : KeepsStk (jumpTo a) := by
  intro s
  unfold jumpTo
  split
  · exact State.requestFault_stk s _
  · exact ⟨rfl, trivial⟩

theorem Script.StoresNothing.lastly {β : Type} {p : State → Res β} (h : KeepsStk p) : (lastly p).StoresNothing :=
  .op h fun _ _ => .done

theorem Script.StoresNothing.fetches (n : Nat) {k : Script} (h : k.StoresNothing) : (fetches n k).StoresNothing := by
  induction n with
  | zero => exact h
  | succ n ih => exact .op fetch_keeps_stk fun _ _ => ih

theorem Script.StoresAt.fetches (n : Nat) {m : Nat} {k : Script} (h : k.StoresAt m) :
    (fetches n k).StoresAt (m + n) := by
  induction n with
  | zero => exact h
  | succ n ih => exact .quiet fetch_keeps_stk fun _ _ => ih

theorem storesAt_binop (f : Word → Word → Word) : (binop f).StoresAt 3 :=
  .fetches 1 (.quiet pop_keeps_stk fun _ _ => .quiet pop_keeps_stk fun _ _ => .last _)

theorem storesNothing_condJump (bw : BitWidth) (c : Word → Word → Bool) : (condJump bw c).StoresNothing :=
  .fetches 1 (.op pop_keeps_stk fun _ _ => .op pop_keeps_stk fun _ _ => .op pop_keeps_stk fun _ _ => by
    split
    · exact .lastly (jumpTo_keeps_stk _)
    · exact .done)

theorem storesNothing_popMany (n : Nat) : (popMany n).StoresNothing := by
  induction n with
  | zero => exact .done
  | succ n ih => exact .op pop_keeps_stk fun _ _ => ih

/-- Where `opsBeforeStore` gives a number, at most the operation after so many stores. -/
theorem storesAt_scriptOf (p : Params) (i : Instr) (n : Nat) (h : opsBeforeStore i = some n) :
    (scriptOf p i).StoresAt n := by
  cases i <;> cases h
  case num ds => exact Nat.zero_add (2 + ds.length) ▸ .fetches (2 + ds.length) (.last _)
  case set => exact .fetches 1 (.quiet pop_keeps_stk fun _ _ => .quiet pop_keeps_stk fun _ _ => .last _)
  case get => exact .fetches 1 (.quiet pop_keeps_stk fun _ _ => .quiet (readAt_keeps_stk _) fun _ _ => .last _)
  case dup =>
    refine .quiet fetch_keeps_stk fun _ s => ?_
    split
    · exact .done _
    · exact .quiet (readAt_keeps_stk _) fun _ _ => .last _
  case not => exact .fetches 1 (.quiet pop_keeps_stk fun _ _ => .last _)
  case reg sel =>
    refine .quiet fetch_keeps_stk fun _ _ => .quiet fetch_keeps_stk fun _ s => ?_
    split <;> exact .last _
  all_goals exact storesAt_binop _

/-- Where it gives none, the instruction is ARR, INC or ROT, or stores nothing. -/
theorem storesNothing_scriptOf (p : Params) (i : Instr) (h : opsBeforeStore i = none) (ha : ∀ w gs, i ≠ .arr w gs)
    (hi : i ≠ .inc) (hr : i ≠ .rot) : (scriptOf p i).StoresNothing := by
  cases i with
  | arr w gs => exact absurd rfl (ha w gs)
  | inc => exact absurd rfl hi
  | rot => exact absurd rfl hr
  | nop => exact .fetches 1 .done
  | int v => exact .fetches 2 (.lastly fun _ => ⟨rfl, trivial⟩)
  | dec => exact .fetches 1 (.op pop_keeps_stk fun _ _ => storesNothing_popMany _)
  | pop => exact .fetches 1 (.lastly pop_keeps_stk)
  | jmp => exact .fetches 1 (.op pop_keeps_stk fun _ _ => .lastly (jumpTo_keeps_stk _))
  | jeq => exact storesNothing_condJump _ _
  | jne => exact storesNothing_condJump _ _
  | jls => exact storesNothing_condJump _ _
  | jle => exact storesNothing_condJump _ _
  | _ => cases h

end Sys2Proof.Machine
end

