-- ==== Sys2Proof/Laws/PerInstr.lean ====
section
/-! SUPPORT. Statements about every instruction as syntax, one lemma per constructor. -/

namespace Sys2Proof.Laws

/-- R57 to R59: the encoding of a well-formed instruction has the instruction's size, and no instruction is empty or
longer than 65028 bytes. -/
def EncodeLength.Statement (i : Instr) : Prop :=
  ∀ m : OpcodeMap, i.WellFormed → (encode m i).length = i.size ∧ 1 ≤ i.size ∧ i.size ≤ maxInstrLength

theorem EncodeLength.nop : EncodeLength.Statement .nop :=
  fun m _ => ⟨encode_length m _, by simp [Instr.size], by simp [Instr.size, maxInstrLength]⟩
theorem EncodeLength.int (v : Byte) : EncodeLength.Statement (.int v) :=
  fun m _ => ⟨encode_length m _, by simp [Instr.size], by simp [Instr.size, maxInstrLength]⟩
theorem EncodeLength.num (ds : List Byte) : EncodeLength.Statement (.num ds) := by
  intro m h
  have := wf_num.mp h
  refine ⟨encode_length m _, ?_, ?_⟩ <;> simp only [Instr.size, maxInstrLength] <;> omega
theorem EncodeLength.arr (w : Byte) (groups : List (List Byte)) : EncodeLength.Statement (.arr w groups) := by
  intro m h
  obtain ⟨hl, hg⟩ := wf_arr.mp h
  have := Nat.mul_le_mul (Nat.le_of_lt_succ w.isLt : w.toNat ≤ 255) hl
  refine ⟨encode_length m _, ?_, ?_⟩ <;> simp only [Instr.size, maxInstrLength, flatten_length _ _ hg] <;> omega
theorem EncodeLength.set : EncodeLength.Statement .set :=
  fun m _ => ⟨encode_length m _, by simp [Instr.size], by simp [Instr.size, maxInstrLength]⟩
theorem EncodeLength.get : EncodeLength.Statement .get :=
  fun m _ => ⟨encode_length m _, by simp [Instr.size], by simp [Instr.size, maxInstrLength]⟩
theorem EncodeLength.inc : EncodeLength.Statement .inc :=
  fun m _ => ⟨encode_length m _, by simp [Instr.size], by simp [Instr.size, maxInstrLength]⟩
theorem EncodeLength.dec : EncodeLength.Statement .dec :=
  fun m _ => ⟨encode_length m _, by simp [Instr.size], by simp [Instr.size, maxInstrLength]⟩
theorem EncodeLength.dup : EncodeLength.Statement .dup :=
  fun m _ => ⟨encode_length m _, by simp [Instr.size], by simp [Instr.size, maxInstrLength]⟩
theorem EncodeLength.pop : EncodeLength.Statement .pop :=
  fun m _ => ⟨encode_length m _, by simp [Instr.size], by simp [Instr.size, maxInstrLength]⟩
theorem EncodeLength.rot : EncodeLength.Statement .rot :=
  fun m _ => ⟨encode_length m _, by simp [Instr.size], by simp [Instr.size, maxInstrLength]⟩
theorem EncodeLength.jmp : EncodeLength.Statement .jmp :=
  fun m _ => ⟨encode_length m _, by simp [Instr.size], by simp [Instr.size, maxInstrLength]⟩
theorem EncodeLength.jeq : EncodeLength.Statement .jeq :=
  fun m _ => ⟨encode_length m _, by simp [Instr.size], by simp [Instr.size, maxInstrLength]⟩
theorem EncodeLength.jne : EncodeLength.Statement .jne :=
  fun m _ => ⟨encode_length m _, by simp [Instr.size], by simp [Instr.size, maxInstrLength]⟩
theorem EncodeLength.jls : EncodeLength.Statement .jls :=
  fun m _ => ⟨encode_length m _, by simp [Instr.size], by simp [Instr.size, maxInstrLength]⟩
theorem EncodeLength.jle : EncodeLength.Statement .jle :=
  fun m _ => ⟨encode_length m _, by simp [Instr.size], by simp [Instr.size, maxInstrLength]⟩
theorem EncodeLength.add : EncodeLength.Statement .add :=
  fun m _ => ⟨encode_length m _, by simp [Instr.size], by simp [Instr.size, maxInstrLength]⟩
theorem EncodeLength.sub : EncodeLength.Statement .sub :=
  fun m _ => ⟨encode_length m _, by simp [Instr.size], by simp [Instr.size, maxInstrLength]⟩
theorem EncodeLength.mul : EncodeLength.Statement .mul :=
  fun m _ => ⟨encode_length m _, by simp [Instr.size], by simp [Instr.size, maxInstrLength]⟩
theorem EncodeLength.div : EncodeLength.Statement .div :=
  fun m _ => ⟨encode_length m _, by simp [Instr.size], by simp [Instr.size, maxInstrLength]⟩
theorem EncodeLength.mod : EncodeLength.Statement .mod :=
  fun m _ => ⟨encode_length m _, by simp [Instr.size], by simp [Instr.size, maxInstrLength]⟩
theorem EncodeLength.not : EncodeLength.Statement .not :=
  fun m _ => ⟨encode_length m _, by simp [Instr.size], by simp [Instr.size, maxInstrLength]⟩
theorem EncodeLength.and : EncodeLength.Statement .and :=
  fun m _ => ⟨encode_length m _, by simp [Instr.size], by simp [Instr.size, maxInstrLength]⟩
theorem EncodeLength.bor : EncodeLength.Statement .bor :=
  fun m _ => ⟨encode_length m _, by simp [Instr.size], by simp [Instr.size, maxInstrLength]⟩
theorem EncodeLength.xor : EncodeLength.Statement .xor :=
  fun m _ => ⟨encode_length m _, by simp [Instr.size], by simp [Instr.size, maxInstrLength]⟩
theorem EncodeLength.lsh : EncodeLength.Statement .lsh :=
  fun m _ => ⟨encode_length m _, by simp [Instr.size], by simp [Instr.size, maxInstrLength]⟩
theorem EncodeLength.rsh : EncodeLength.Statement .rsh :=
  fun m _ => ⟨encode_length m _, by simp [Instr.size], by simp [Instr.size, maxInstrLength]⟩
theorem EncodeLength.reg (v : Byte) : EncodeLength.Statement (.reg v) :=
  fun m _ => ⟨encode_length m _, by simp [Instr.size], by simp [Instr.size, maxInstrLength]⟩

end Sys2Proof.Laws
end

