-- ==== Sys2Proof/Tests/Slice0.lean ====
section
/-! SUPPORT. The author's own tests. Expected results are the vectors of spec/95_test_vectors.md (V-…), the encodings
of spec/30_encoding.md, and hand calculation from them. The theorems witness_… show that the hypotheses of the
statements in Certificates/Slice0/Obligations.lean can be met, clause by clause. -/

namespace Sys2Proof.Tests

open Sys2Proof.Machine

-- One theorem at a time: the kernel evaluations below would otherwise all hold a thread each.
set_option Elab.async false

/-- A Running machine under the default parameters: a program, a stack written bottom first, a capacity and a PC. -/
def start (program : List Byte) (stack : List Word) (cap : BitVec 32 := 16) (pc : BitVec 32 := 0) : State :=
  { ic := 0
    pc := pc
    sp := BitVec.ofNat 32 stack.length
    prog := Memory.writeList progUnlisted 0 program []
    progLen := BitVec.ofNat 32 program.length
    stk := stack.zipIdx.map (fun c => (c.2, c.1))
    stackCap := cap
    params := Params.default
    activity := .idle }

/-- The family 44 vectors: ten bytes, the jump opcode at 5, PC = 5. -/
def startJump (op : Byte) (stack : List Word) : State := start [0, 0, 0, 0, 0, op, 0, 0, 0, 0] stack 16 5

/-- The same machine with W = 64. -/
def wide (s : State) : State := { s with params := { s.params with bitw := .w64 } }

/-- The same machine with `NUM_CONV` set to `accumulate`. -/
def accumulating (s : State) : State := { s with params := { s.params with numConv := .accumulate } }

/-- The same machine with a request in progress. -/
def during (a : Activity) (s : State) : State := s.setActivity a

/-- Whether a step ended with these registers and this live stack. -/
def endsWith (o : Host.Outcome State Fault Refusal) (ic : BitVec 16) (pc : BitVec 32) (stack : List Word) : Bool :=
  match o with
  | .next t => t.ic == ic && t.pc == pc && t.sp.toNat == stack.length &&
      (List.range stack.length).all (fun i => t.written i == stack[i]?)
  | _ => false

/-! ### WellFormed refuses what the formats and R6 do not allow -/

theorem test_wellFormed_accepts_the_longest_num : (Instr.num (List.replicate 255 0)).WellFormed := by decide +kernel
theorem test_wellFormed_refuses_num_of_256_bytes : ¬ (Instr.num (List.replicate 256 0)).WellFormed := by decide +kernel
theorem test_wellFormed_refuses_arr_of_256_groups : ¬ (Instr.arr 0 (List.replicate 256 [])).WellFormed := by
  decide +kernel
theorem test_wellFormed_refuses_a_group_of_another_width : ¬ (Instr.arr 2 [[0x01, 0x02], [0x03]]).WellFormed := by
  decide
theorem test_wellFormed_refuses_one_byte_for_two_opcodes :
    ¬ OpcodeMap.WellFormed ((0x00, .int) :: OpcodeMap.default.tail) := by decide
theorem test_wellFormed_refuses_two_bytes_for_one_opcode :
    ¬ OpcodeMap.WellFormed ((0x40, .reg) :: OpcodeMap.default) := by decide
theorem test_wellFormed_refuses_a_missing_opcode : ¬ OpcodeMap.WellFormed OpcodeMap.default.tail := by decide
theorem test_wellFormed_refuses_one_selector_for_two_registers :
    ¬ RegSelMap.WellFormed { ic := 0, pc := 1, sp := 1 } := by decide
theorem test_wellFormed_refuses_a_qnan_that_is_infinite :
    ¬ Params.WellFormed { Params.default with qnan := 0x7FF0000000000000 } := by decide

/-! ### Decoding: the bytes of R58 and R61, written out -/

theorem test_decode_nop : decode OpcodeMap.default [0x00, 0x55] = .ok (.nop, [0x55]) := by decide
theorem test_decode_int : decode OpcodeMap.default [0x01, 0x2A, 0x55] = .ok (.int 0x2A, [0x55]) := by decide
theorem test_decode_num :
    decode OpcodeMap.default [0x02, 0x03, 0x12, 0x34, 0x56, 0x55] =
      .ok (.num [0x12, 0x34, 0x56], [0x55]) := by decide
theorem test_decode_arr :
    decode OpcodeMap.default [0x03, 0x02, 0x02, 0x12, 0x34, 0x56, 0x78, 0x55] =
      .ok (.arr 2 [[0x12, 0x34], [0x56, 0x78]], [0x55]) := by decide
theorem test_decode_set : decode OpcodeMap.default [0x04, 0x55] = .ok (.set, [0x55]) := by decide
theorem test_decode_get : decode OpcodeMap.default [0x05, 0x55] = .ok (.get, [0x55]) := by decide
theorem test_decode_inc : decode OpcodeMap.default [0x06, 0x55] = .ok (.inc, [0x55]) := by decide
theorem test_decode_dec : decode OpcodeMap.default [0x07, 0x55] = .ok (.dec, [0x55]) := by decide
theorem test_decode_dup : decode OpcodeMap.default [0x08, 0x55] = .ok (.dup, [0x55]) := by decide
theorem test_decode_pop : decode OpcodeMap.default [0x09, 0x55] = .ok (.pop, [0x55]) := by decide
theorem test_decode_rot : decode OpcodeMap.default [0x0A, 0x55] = .ok (.rot, [0x55]) := by decide
theorem test_decode_jmp : decode OpcodeMap.default [0x0B, 0x55] = .ok (.jmp, [0x55]) := by decide
theorem test_decode_jeq : decode OpcodeMap.default [0x0C, 0x55] = .ok (.jeq, [0x55]) := by decide
theorem test_decode_jne : decode OpcodeMap.default [0x0D, 0x55] = .ok (.jne, [0x55]) := by decide
theorem test_decode_jls : decode OpcodeMap.default [0x0E, 0x55] = .ok (.jls, [0x55]) := by decide
theorem test_decode_jle : decode OpcodeMap.default [0x0F, 0x55] = .ok (.jle, [0x55]) := by decide
theorem test_decode_add : decode OpcodeMap.default [0x10, 0x55] = .ok (.add, [0x55]) := by decide
theorem test_decode_sub : decode OpcodeMap.default [0x11, 0x55] = .ok (.sub, [0x55]) := by decide
theorem test_decode_mul : decode OpcodeMap.default [0x12, 0x55] = .ok (.mul, [0x55]) := by decide
theorem test_decode_div : decode OpcodeMap.default [0x13, 0x55] = .ok (.div, [0x55]) := by decide
theorem test_decode_mod : decode OpcodeMap.default [0x14, 0x55] = .ok (.mod, [0x55]) := by decide
theorem test_decode_not : decode OpcodeMap.default [0x15, 0x55] = .ok (.not, [0x55]) := by decide
theorem test_decode_and : decode OpcodeMap.default [0x16, 0x55] = .ok (.and, [0x55]) := by decide
theorem test_decode_bor : decode OpcodeMap.default [0x17, 0x55] = .ok (.bor, [0x55]) := by decide
theorem test_decode_xor : decode OpcodeMap.default [0x18, 0x55] = .ok (.xor, [0x55]) := by decide
theorem test_decode_lsh : decode OpcodeMap.default [0x19, 0x55] = .ok (.lsh, [0x55]) := by decide
theorem test_decode_rsh : decode OpcodeMap.default [0x1A, 0x55] = .ok (.rsh, [0x55]) := by decide
theorem test_decode_reg : decode OpcodeMap.default [0x1B, 0x02, 0x55] = .ok (.reg 0x02, [0x55]) := by decide
theorem test_decode_first_unmapped_byte : decode OpcodeMap.default [0x1C, 0x55] = .error (.illegalOpcode 0x1C) := by
  decide
theorem test_decode_num_cut_short : decode OpcodeMap.default [0x02, 0x03, 0x12, 0x34] = .error .endOfBytes := by decide

/-! ### The host's two functions -/

theorem test_tableWord_int : decodeTableWord 16 0x2A01 = some (.int 0x2A) := by decide
theorem test_tableWord_num_without_operand_bits : decodeTableWord 16 0x0102 = some (.num [0x00]) := by decide
theorem test_tableWord_unmapped : decodeTableWord 8 0xFF = none := by decide
theorem test_fetchWord_runs_int : endsWith (step (State.reset.withFetchWord 16 0x2A01)) 0x002A 2 [] = true := by
  decide
theorem test_fetchWord_runs_reg :
    endsWith (step (State.reset.withFetchWord 16 0x011B)) 0 2 [0x4000000000000000] = true := by
  decide +kernel

/-! ### The host's side: R16, R141, R153, R155 -/

/-- R153's looping program, NUM 1 0x00, JMP: busy after `host_run` and two steps. -/
theorem test_run_stays_busy :
    (match serve (.wait 2) (during .running (start [0x02, 0x01, 0x00, 0x0B] [])) with
      | .next t => t.busy && t.pc == 0
      | _ => false) = true := by decide +kernel
/-- NOP, INT 7: a run that has halted is not busy (R16). -/
theorem test_run_that_halts_is_not_busy :
    (match serve (.wait 5) (during .running (start [0x00, 0x01, 0x07] [])) with
      | .next t => !t.busy && t.halted && t.activity == .idle
      | _ => false) = true := by decide +kernel
/-- A pulse while busy is ignored (R155). -/
theorem test_pulse_while_busy_is_ignored :
    serve .hostStep (during .running (start [0x00] [])) = .next (during .running (start [0x00] [])) := rfl
/-- R141: ARR of two groups of one byte, abandoned after its 3 control bytes, one group and one Push. -/
theorem test_reset_inside_arr_leaves_one_word :
    (match serve (.rst 5) (during .stepping (start [0x03, 0x01, 0x02, 0x07, 0x08] [])) with
      | .next t => t.pc == 0 && t.sp == 0 && !t.busy && t.stk == [(0, 0x401C000000000000)]
      | _ => false) = true := by decide +kernel
/-- R141: ROT abandoned between its two writes. -/
theorem test_reset_inside_rot_leaves_one_write :
    (match serve (.rst 4) (during .stepping (start [0x0A] [7, 8])) with
      | .next t => t.sp == 0 && t.stk == [(0, 7), (1, 7)]
      | _ => false) = true := by decide +kernel

/-! ### One step of each instruction -/

/-- V-NOP-1. -/
theorem test_nop :
    endsWith (step (start [0x00] [])) 0x0000 1 [] = true := by decide +kernel
/-- V-INT-2. -/
theorem test_int_zero_goes_on :
    endsWith (step (start [0x01, 0x00] [])) 0x0000 2 [] = true := by decide +kernel
/-- V-INT-5. -/
theorem test_int_leaves_the_stack :
    endsWith (step (start [0x01, 0x2A] [0x4008000000000000])) 0x002A 2 [0x4008000000000000] = true := by decide +kernel
/-- V-NUM-6, round_once. -/
theorem test_num_rounds_once :
    endsWith (step (start [0x02, 0x08, 0x20, 0x00, 0x00, 0x00, 0x00, 0x00, 0x01, 0x01] []))
      0x0000 10 [0x43C0000000000001] = true := by
  decide +kernel
/-- V-NUM-6, accumulate. -/
theorem test_num_accumulates :
    endsWith (step (accumulating (start [0x02, 0x08, 0x20, 0x00, 0x00, 0x00, 0x00, 0x00, 0x01, 0x01] [])))
      0x0000 10 [0x43C0000000000000] = true := by
  decide +kernel
/-- V-ARR-1. -/
theorem test_arr :
    endsWith (step (start [0x03, 0x02, 0x03, 0x00, 0x07, 0xFF, 0xFF, 0x01, 0x00] []))
      0x0000 9 [0x401C000000000000, 0x40EFFFE000000000, 0x4070000000000000] = true := by
  decide +kernel
/-- V-ARR-5. -/
theorem test_arr_cut_short :
    endsWith (step (start [0x03, 0x02, 0x02, 0x00, 0x01, 0x00] [])) 0x0102 6 [0x3FF0000000000000] = true := by
  decide +kernel
/-- V-SET-1. -/
theorem test_set :
    endsWith (step (start [0x04] [0x4024000000000000, 0x4034000000000000, 0x4058C00000000000, 0x0000000000000000]))
      0x0000 1 [0x4058C00000000000, 0x4034000000000000] = true := by
  decide +kernel
/-- V-SET-5. -/
theorem test_set_out_of_bounds :
    endsWith (step (start [0x04] [0x3FF0000000000000, 0x4000000000000000, 0x4022000000000000, 0xBFF0000000000000]))
      0x0202 1 [0x3FF0000000000000, 0x4000000000000000] = true := by
  decide +kernel
/-- V-GET-1. -/
theorem test_get :
    endsWith (step (start [0x05] [0x4014000000000000, 0x401C000000000000, 0x0000000000000000]))
      0x0000 1 [0x4014000000000000, 0x401C000000000000, 0x4014000000000000] = true := by
  decide +kernel
/-- V-GET-3. -/
theorem test_get_out_of_bounds :
    endsWith (step (start [0x05] [0x4014000000000000, 0x401C000000000000, 0x4000000000000000]))
      0x0202 1 [0x4014000000000000, 0x401C000000000000] = true := by
  decide +kernel
/-- V-INC-3. -/
theorem test_inc_truncates_its_count :
    endsWith (step (start [0x06] [0x400599999999999A])) 0x0000 1 [0x0000000000000000, 0x0000000000000000] = true := by
  decide +kernel
/-- V-INC-5. -/
theorem test_inc_overflow :
    endsWith (step (start [0x06] [0x4014000000000000] 2)) 0x0200 1 [0x0000000000000000, 0x0000000000000000] = true := by
  decide +kernel
/-- V-DEC-1. -/
theorem test_dec :
    endsWith (step (start [0x07] [0x3FF0000000000000, 0x4000000000000000, 0x4008000000000000, 0x4000000000000000]))
      0x0000 1 [0x3FF0000000000000] = true := by
  decide +kernel
/-- V-DEC-3. -/
theorem test_dec_underflow :
    endsWith (step (start [0x07] [0x3FF0000000000000, 0x4014000000000000])) 0x0201 1 [] = true := by decide +kernel
/-- V-DUP-3. -/
theorem test_dup_full :
    endsWith (step (start [0x08] [0x4010000000000000] 1)) 0x0200 1 [0x4010000000000000] = true := by decide +kernel
/-- V-DUP-4. -/
theorem test_dup_copies_the_sign_of_zero :
    endsWith (step (start [0x08] [0x8000000000000000])) 0x0000 1 [0x8000000000000000, 0x8000000000000000] = true := by
  decide +kernel
/-- V-POP-1. -/
theorem test_pop :
    endsWith (step (start [0x09] [0x3FF0000000000000, 0x4000000000000000])) 0x0000 1 [0x3FF0000000000000] = true := by
  decide +kernel
/-- V-POP-2. -/
theorem test_pop_empty :
    endsWith (step (start [0x09] [])) 0x0201 1 [] = true := by decide +kernel
/-- V-ROT-1. -/
theorem test_rot :
    endsWith (step (start [0x0A] [0x3FF0000000000000, 0x4000000000000000, 0x4008000000000000]))
      0x0000 1 [0x3FF0000000000000, 0x4008000000000000, 0x4000000000000000] = true := by
  decide +kernel
/-- V-ROT-2. -/
theorem test_rot_of_one_word :
    endsWith (step (start [0x0A] [0x3FF0000000000000])) 0x0000 1 [0x3FF0000000000000] = true := by decide +kernel
/-- V-JMP-2. -/
theorem test_jmp :
    endsWith (step (startJump 0x0B [0x4023FAE147AE147B])) 0x0000 9 [] = true := by decide +kernel
/-- V-JMP-3. -/
theorem test_jmp_to_the_end :
    endsWith (step (startJump 0x0B [0x4024000000000000])) 0x0101 6 [] = true := by decide +kernel
/-- V-JEQ-3. -/
theorem test_jeq_of_the_two_zeros :
    endsWith (step (startJump 0x0C [0x0000000000000000, 0x8000000000000000, 0x4000000000000000]))
      0x0000 2 [] = true := by
  decide +kernel
/-- V-JEQ-4. -/
theorem test_jeq_of_nan :
    endsWith (step (startJump 0x0C [0x7FF8000000000000, 0x7FF8000000000000, 0x4000000000000000]))
      0x0000 6 [] = true := by
  decide +kernel
/-- V-JNE-1. -/
theorem test_jne_of_equal_words :
    endsWith (step (startJump 0x0D [0x3FF0000000000000, 0x3FF0000000000000, 0x4000000000000000]))
      0x0000 6 [] = true := by
  decide +kernel
/-- V-JNE-3. -/
theorem test_jne_of_nan :
    endsWith (step (startJump 0x0D [0x7FF8000000000000, 0x7FF8000000000000, 0x4000000000000000]))
      0x0000 2 [] = true := by
  decide +kernel
/-- V-JLS-3. -/
theorem test_jls_is_signed :
    endsWith (step (startJump 0x0E [0xBFF0000000000000, 0x0000000000000000, 0x401C000000000000]))
      0x0000 7 [] = true := by
  decide +kernel
/-- V-JLS-2. -/
theorem test_jls_of_equal_words :
    endsWith (step (startJump 0x0E [0x4000000000000000, 0x4000000000000000, 0x401C000000000000]))
      0x0000 6 [] = true := by
  decide +kernel
/-- V-JLE-1. -/
theorem test_jle_of_equal_words :
    endsWith (step (startJump 0x0F [0x4000000000000000, 0x4000000000000000, 0x401C000000000000]))
      0x0000 7 [] = true := by
  decide +kernel
/-- V-JLE-2. -/
theorem test_jle_of_greater :
    endsWith (step (startJump 0x0F [0x4008000000000000, 0x4000000000000000, 0x401C000000000000]))
      0x0000 6 [] = true := by
  decide +kernel
/-- V-ADD-1. -/
theorem test_add :
    endsWith (step (start [0x10] [0x4000000000000000, 0x4008000000000000])) 0x0000 1 [0x4014000000000000] = true := by
  decide +kernel
/-- V-ADD-6. -/
theorem test_add_ties_to_even :
    endsWith (step (start [0x10] [0x4340000000000000, 0x3FF0000000000000])) 0x0000 1 [0x4340000000000000] = true := by
  decide +kernel
/-- V-SUB-1. -/
theorem test_sub :
    endsWith (step (start [0x11] [0x4008000000000000, 0x4014000000000000])) 0x0000 1 [0xC000000000000000] = true := by
  decide +kernel
/-- V-SUB-3. -/
theorem test_sub_of_zeros :
    endsWith (step (start [0x11] [0x8000000000000000, 0x0000000000000000])) 0x0000 1 [0x8000000000000000] = true := by
  decide +kernel
/-- V-MUL-2. -/
theorem test_mul_sign_of_zero :
    endsWith (step (start [0x12] [0xBFF0000000000000, 0x0000000000000000])) 0x0000 1 [0x8000000000000000] = true := by
  decide +kernel
/-- V-MUL-4. -/
theorem test_mul_overflow :
    endsWith (step (start [0x12] [0x6974E718D7D7625A, 0x6974E718D7D7625A])) 0x0000 1 [0x7FF0000000000000] = true := by
  decide +kernel
/-- V-DIV-2. -/
theorem test_div_by_zero :
    endsWith (step (start [0x13] [0x406F000000000000, 0x0000000000000000])) 0x0000 1 [0x7FF0000000000000] = true := by
  decide +kernel
/-- V-DIV-7. -/
theorem test_div_underflows_gradually :
    endsWith (step (start [0x13] [0x0010000000000000, 0x4000000000000000])) 0x0000 1 [0x0008000000000000] = true := by
  decide +kernel
/-- V-MOD-5. -/
theorem test_mod_exact_zero :
    endsWith (step (start [0x14] [0xC018000000000000, 0x4008000000000000])) 0x0000 1 [0x0000000000000000] = true := by
  decide +kernel
/-- V-MOD-12. -/
theorem test_mod_rounds_in_four_steps :
    endsWith (step (start [0x14] [0x4376345785D8A000, 0x3FD3333333333333])) 0x0000 1 [0xC030000000000000] = true := by
  decide +kernel
/-- V-NOT-7. -/
theorem test_not_wraps_negative :
    endsWith (step (start [0x15] [0xC00F333333333333])) 0x0000 1 [0x4000000000000000] = true := by decide +kernel
/-- V-NOT-9. -/
theorem test_not_of_64_bits :
    endsWith (step (wide (start [0x15] [0x0000000000000000]))) 0x0000 1 [0x43F0000000000000] = true := by decide +kernel
/-- V-AND-1. -/
theorem test_and :
    endsWith (step (start [0x16] [0x4028000000000000, 0x4024000000000000])) 0x0000 1 [0x4020000000000000] = true := by
  decide +kernel
/-- V-AND-2. -/
theorem test_and_of_minus_one :
    endsWith (step (start [0x16] [0xBFF0000000000000, 0x406FE00000000000])) 0x0000 1 [0x406FE00000000000] = true := by
  decide +kernel
/-- V-BOR-1. -/
theorem test_bor :
    endsWith (step (start [0x17] [0x406E000000000000, 0x402E000000000000])) 0x0000 1 [0x406FE00000000000] = true := by
  decide +kernel
/-- V-BOR-2. -/
theorem test_bor_of_minus_one :
    endsWith (step (start [0x17] [0x4018000000000000, 0xBFF0000000000000])) 0x0000 1 [0x41EFFFFFFFE00000] = true := by
  decide +kernel
/-- V-XOR-1. -/
theorem test_xor :
    endsWith (step (start [0x18] [0x4014000000000000, 0x4008000000000000])) 0x0000 1 [0x4018000000000000] = true := by
  decide +kernel
/-- V-LSH-3. -/
theorem test_lsh_drops_high_bits :
    endsWith (step (start [0x19] [0x4008000000000000, 0x403F000000000000])) 0x0000 1 [0x41E0000000000000] = true := by
  decide +kernel
/-- V-LSH-4. -/
theorem test_lsh_by_the_width :
    endsWith (step (start [0x19] [0x3FF0000000000000, 0x4040000000000000])) 0x0000 1 [0x0000000000000000] = true := by
  decide +kernel
/-- V-RSH-2. -/
theorem test_rsh_is_logical :
    endsWith (step (start [0x1A] [0xBFF0000000000000, 0x403C000000000000])) 0x0000 1 [0x402E000000000000] = true := by
  decide +kernel
/-- V-RSH-3. -/
theorem test_rsh_by_the_width :
    endsWith (step (start [0x1A] [0x4014000000000000, 0x4040000000000000])) 0x0000 1 [0x0000000000000000] = true := by
  decide +kernel
/-- V-REG-3. -/
theorem test_reg_pc :
    endsWith (step (start [0x1B, 0x01] [])) 0x0000 2 [0x4000000000000000] = true := by decide +kernel
/-- V-REG-4. -/
theorem test_reg_bad_selector :
    endsWith (step (start [0x1B, 0x03] [])) 0x0100 2 [] = true := by decide +kernel

/-! ### The hypotheses of the statements can be met, clause by clause and at the ends of their ranges -/

theorem witness_DecodeOfEncodeIsTheInstruction :
    OpcodeMap.default.WellFormed ∧ (Instr.num (List.replicate 255 0)).WellFormed ∧
    (Instr.arr 0 (List.replicate 255 [])).WellFormed := by decide +kernel
theorem witness_DecodedBytesAreTheEncoding :
    OpcodeMap.default.WellFormed ∧
    decode OpcodeMap.default [0x03, 0x00, 0x01, 0x55] = .ok (.arr 0 [[]], [0x55]) := by decide
theorem witness_FirstBytesGiveTheLength :
    OpcodeMap.default.WellFormed ∧ (Instr.arr 1 [[7]]).WellFormed ∧
    encode OpcodeMap.default (.arr 1 [[7]]) ++ [] = 0x03 :: 0x01 :: 0x01 :: [0x07] := by decide
/-- The instruction ends exactly where the program does. -/
theorem witness_StepRunsTheDecodedInstruction :
    (start [0x02, 0x01, 0x05] []).ic = 0 ∧ (start [0x02, 0x01, 0x05] []).params.opcodeMap.WellFormed ∧
    (Instr.num [0x05]).WellFormed ∧ (start [0x02, 0x01, 0x05] []).Holds (.num [0x05]) := by decide
theorem witness_StepAtProgramEnd :
    (start [0x00] [] 16 1).ic = 0 ∧ (start [0x00] [] 16 1).pc = (start [0x00] [] 16 1).progLen := by decide
theorem witness_UnmappedOpcodeIsIllegal :
    (start [0x1C] []).ic = 0 ∧ (start [0x1C] []).pc < (start [0x1C] []).progLen ∧
    (start [0x1C] []).progByte 0 ∉ (start [0x1C] []).params.opcodeMap.map Prod.fst := by decide
/-- One byte short. -/
theorem witness_StepOfCutInstruction :
    (start [0x02, 0x02, 0x05] []).ic = 0 ∧ (start [0x02, 0x02, 0x05] []).pc < (start [0x02, 0x02, 0x05] []).progLen ∧
    OpcodeMap.default.mnemonicOf ((start [0x02, 0x02, 0x05] []).progByte 0) = some .num ∧
    (start [0x02, 0x02, 0x05] []).progLen.toNat < 0 + instrLength OpcodeMap.default 0x02 0x02 0x05 := by decide
/-- The count byte is missing; one group of one byte in the program and on the stack, then the second one is missing,
does not fit, or is there; no group at all. -/
theorem witness_StepOfArr :
    (start [0x03, 0x01] []).ic = 0 ∧ (start [0x03, 0x01] []).pc < (start [0x03, 0x01] []).progLen ∧
    (start [0x03, 0x01] []).sp ≤ (start [0x03, 0x01] []).stackCap ∧
    OpcodeMap.default.mnemonicOf ((start [0x03, 0x01] []).progByte 0) = some .arr ∧
    (start [0x03, 0x01] []).progLen.toNat < 0 + 3 ∧
    0 + 3 + 1 * 1 ≤ (start [0x03, 0x01, 0x02, 0x07] []).progLen.toNat ∧
    (start [0x03, 0x01, 0x02, 0x07] []).progLen.toNat < 0 + 3 + (1 + 1) * 1 ∧
    0 + 3 + (1 + 1) * 1 ≤ (start [0x03, 0x01, 0x02, 0x07, 0x08] [] 1).progLen.toNat ∧
    (start [0x03, 0x01, 0x02, 0x07, 0x08] [] 1).sp.toNat + 1 = 1 ∧
    ((start [0x03, 0x01, 0x02, 0x07, 0x08] [] 1).progByte (0 + 1)).toNat = 1 ∧
    ((start [0x03, 0x01, 0x02, 0x07, 0x08] [] 1).progByte (0 + 2)).toNat = 2 ∧
    ((start [0x03, 0x01, 0x00] []).progByte (0 + 2)).toNat = 0 := by decide
theorem witness_FetchesComeFirst :
    (start [0x01] []).ic = 0 ∧ (start [0x01] []).pc.toNat ≤ (start [0x01] []).progLen.toNat ∧
    (start [0x01] []).progLen.toNat < (start [0x01] []).pc.toNat + (Instr.int 5).size := by decide
theorem witness_HaltedMachineChangesNothing : ((start [0x00] []).setIc 0x0102).ic ≠ 0 := by decide
theorem witness_RunRepeatsStepUntilHalted :
    (start [0x01, 0x05] []).ic = 0 ∧ runSteps 2 (start [0x01, 0x05] []) = .next (((start [0x01, 0x05] []).setPc 2).setIc 5) ∧
    (((start [0x01, 0x05] []).setPc 2).setIc 5).ic ≠ 0 := ⟨rfl, rfl, by decide⟩
/-- The last byte and the end of the program; a full stack and one with room for a word; an empty stack and one of a
word; the indices and the targets on both sides of their bounds. -/
theorem witness_PrimitivesFollowTheirRules :
    (start [0x00] [] 0 1).ic = 0 ∧ (start [0x00] [] 0 1).Bounded ∧
    (start [0x00] [] 0 1).pc = (start [0x00] [] 0 1).progLen ∧ (start [0x00] [] 0 1).sp = 0 ∧
    (start [0x00] [] 0 1).sp = (start [0x00] [] 0 1).stackCap ∧
    (start [0x00] [7] 2).ic = 0 ∧ (start [0x00] [7] 2).Bounded ∧
    (start [0x00] [7] 2).pc ≠ (start [0x00] [7] 2).progLen ∧ (start [0x00] [7] 2).sp ≠ 0 ∧
    (start [0x00] [7] 2).sp ≠ (start [0x00] [7] 2).stackCap ∧
    (start [0x00] [7] 2).sp.toNat ≤ 1 ∧ 0 < (start [0x00] [7] 2).sp.toNat ∧
    (start [0x00] [7] 2).progLen.toNat ≤ 1 ∧ 0 < (start [0x00] [7] 2).progLen.toNat := by decide
theorem witness_NopOnlyAdvancesPc : (start [0x00] []).Ready 1 := by decide
theorem witness_IntWritesItsOperand : (start [0x01, 0x00] []).Ready 2 := by decide
/-- Room for one word, and none. -/
theorem witness_NumPushesItsLiteral :
    (Instr.num [0x05]).WellFormed ∧ (start [0x02, 0x01, 0x05] [0] 2).Ready 3 ∧
    (start [0x02, 0x01, 0x05] [0] 2).sp < (start [0x02, 0x01, 0x05] [0] 2).stackCap ∧
    (start [0x02, 0x01, 0x05] [0] 1).Ready 3 ∧
    (start [0x02, 0x01, 0x05] [0] 1).sp = (start [0x02, 0x01, 0x05] [0] 1).stackCap := by decide
/-- The groups just fit. -/
theorem witness_ArrPushesItsGroups :
    (Instr.arr 1 [[7], [8]]).WellFormed ∧ (start [0x03, 0x01, 0x02, 0x07, 0x08] [] 2).Ready (3 + 1 * 2) ∧
    (start [0x03, 0x01, 0x02, 0x07, 0x08] [] 2).sp.toNat + 2 ≤ 2 := by decide
/-- Full before the first group, and before the last. -/
theorem witness_ArrOverflowKeepsEarlierElements :
    (Instr.arr 1 [[7], [8]]).WellFormed ∧
    (start [0x03, 0x01, 0x02, 0x07, 0x08] [] 0).Ready (3 + (0 + 1) * 1) ∧
    (start [0x03, 0x01, 0x02, 0x07, 0x08] [] 0).sp.toNat + 0 = 0 ∧
    (start [0x03, 0x01, 0x02, 0x07, 0x08] [] 1).Ready (3 + (1 + 1) * 1) ∧
    (start [0x03, 0x01, 0x02, 0x07, 0x08] [] 1).sp.toNat + 1 = 1 := by decide
/-- The count byte is missing; the last group is one byte short. -/
theorem witness_ArrCutShortKeepsEarlierElements :
    (Instr.arr 2 [[0, 1], [0, 2]]).WellFormed ∧ (start [0x03, 0x02] []).ic = 0 ∧
    (start [0x03, 0x02] []).progLen.toNat < 0 + 3 ∧ (start [0x03, 0x02, 0x02, 0x00, 0x01, 0x00] []).ic = 0 ∧
    0 + (3 + 1 * 2) ≤ (start [0x03, 0x02, 0x02, 0x00, 0x01, 0x00] []).progLen.toNat ∧
    (start [0x03, 0x02, 0x02, 0x00, 0x01, 0x00] []).progLen.toNat < 0 + (3 + (1 + 1) * 2) := by decide
/-- V-NUM-10: 2^53 - 1. -/
theorem witness_NumConvRoundsOnceOrAtEachByte : be [0x1F, 0xFF, 0xFF, 0xFF, 0xFF, 0xFF, 0xFF] < 2 ^ 53 := by decide
/-- One word where ADD needs two, two where JEQ needs three. -/
theorem witness_PoppingTooManyUnderflows :
    (start [0x10] [0]).Ready 1 ∧ (start [0x10] [0]).sp.toNat < 2 ∧
    (start [0x0C] [0, 0]).Ready 1 ∧ (start [0x0C] [0, 0]).sp.toNat < 3 := by decide
/-- Index 1 and index 2 where two words are left. -/
theorem witness_SetStoresAtTheIndex :
    (start [0x04] [0, 0, 0, 0x3FF0000000000000]).Ready 1 ∧
    2 ≤ (start [0x04] [0, 0, 0, 0x3FF0000000000000]).sp.toNat ∧
    toU .w32 ((start [0x04] [0, 0, 0, 0x3FF0000000000000]).slot 3) < 4 - 2 ∧
    (start [0x04] [0, 0, 0, 0x4000000000000000]).Ready 1 ∧
    4 - 2 ≤ toU .w32 ((start [0x04] [0, 0, 0, 0x4000000000000000]).slot 3) := by decide +kernel
/-- V-GET-2 and V-GET-3. -/
theorem witness_GetLoadsFromTheIndex :
    (start [0x05] [0, 0, 0x3FF0000000000000]).Ready 1 ∧
    toU .w32 ((start [0x05] [0, 0, 0x3FF0000000000000]).slot 2) < 3 - 1 ∧
    (start [0x05] [0, 0, 0x4000000000000000]).Ready 1 ∧
    3 - 1 ≤ toU .w32 ((start [0x05] [0, 0, 0x4000000000000000]).slot 2) := by decide +kernel
/-- Two zeros where two fit, and where one does. -/
theorem witness_IncPushesZeros :
    (start [0x06] [0x4000000000000000] 2).Ready 1 ∧
    toU .w32 ((start [0x06] [0x4000000000000000] 2).slot 0) ≤ 2 - (1 - 1) ∧
    (start [0x06] [0x4000000000000000] 1).Ready 1 ∧
    1 - (1 - 1) < toU .w32 ((start [0x06] [0x4000000000000000] 1).slot 0) := by decide +kernel
/-- Two words where there are two, and where there is one. -/
theorem witness_DecPopsWords :
    (start [0x07] [0, 0, 0x4000000000000000]).Ready 1 ∧
    toU .w32 ((start [0x07] [0, 0, 0x4000000000000000]).slot 2) ≤ 3 - 1 ∧
    (start [0x07] [0, 0x4000000000000000]).Ready 1 ∧
    2 - 1 < toU .w32 ((start [0x07] [0, 0x4000000000000000]).slot 1) := by decide +kernel
theorem witness_DupCopiesTheTop :
    (start [0x08] [] 0).Ready 1 ∧ (start [0x08] [] 0).sp.toNat = 0 ∧
    (start [0x08] [7] 2).Ready 1 ∧ (start [0x08] [7] 2).sp < (start [0x08] [7] 2).stackCap ∧
    (start [0x08] [7] 1).Ready 1 ∧ (start [0x08] [7] 1).sp = (start [0x08] [7] 1).stackCap := by decide
theorem witness_PopDiscardsTheTop :
    (start [0x09] [7] 1).Ready 1 ∧ 1 ≤ (start [0x09] [7] 1).sp.toNat ∧
    (start [0x09] []).Ready 1 ∧ (start [0x09] []).sp.toNat = 0 := by decide
theorem witness_RotSwapsTheTwoTopWords :
    (start [0x0A] [7]).Ready 1 ∧ (start [0x0A] [7]).sp.toNat < 2 ∧
    (start [0x0A] [7, 8] 2).Ready 1 ∧ 2 ≤ (start [0x0A] [7, 8] 2).sp.toNat := by decide
theorem witness_PopReturnsThePushedWord : (start [] [7] 2).sp < (start [] [7] 2).stackCap := by decide
/-- Targets 9 and 10 in a program of ten bytes. -/
theorem witness_JmpGoesToItsTarget :
    (startJump 0x0B [0x4022000000000000]).Ready 1 ∧
    toU .w32 ((startJump 0x0B [0x4022000000000000]).slot 0) < (startJump 0x0B []).progLen.toNat ∧
    (startJump 0x0B [0x4024000000000000]).Ready 1 ∧
    (startJump 0x0B []).progLen.toNat ≤ toU .w32 ((startJump 0x0B [0x4024000000000000]).slot 0) := by decide +kernel
/-- Not taken; taken to 9; taken to 10 of ten bytes. -/
theorem witness_ConditionalJumpsFollowTheirCondition :
    (startJump 0x0D [0, 0, 0x4022000000000000]).Ready 1 ∧ condNe 0 0 = false ∧ condEq 0 0 = true ∧
    toU .w32 ((startJump 0x0C [0, 0, 0x4022000000000000]).slot 2) < (startJump 0x0C []).progLen.toNat ∧
    (startJump 0x0C []).progLen.toNat ≤ toU .w32 ((startJump 0x0C [0, 0, 0x4024000000000000]).slot 2) := by
  decide +kernel
/-- A NaN, the largest and the smallest finite values, and both infinities. -/
theorem witness_ComparisonsAreIeee :
    Word.IsNaN 0x7FF8000000000000 ∧ ¬ Word.IsNaN 0x7FEFFFFFFFFFFFFF ∧ ¬ Word.IsNaN 0x8000000000000001 ∧
    Fp.ofWord 0x7FEFFFFFFFFFFFFF = .fin false ((2 ^ 53 - 1) * 2 ^ 2045) ∧
    Fp.ofWord 0x8000000000000001 = .fin true 1 ∧
    Fp.ofWord 0x7FF0000000000000 = .inf false ∧ Fp.ofWord 0xFFF0000000000000 = .inf true := by decide +kernel
theorem witness_ArithmeticPushesItsResult :
    (start [0x10] [7, 8] 2).Ready 1 ∧ 2 ≤ (start [0x10] [7, 8] 2).sp.toNat := by decide
theorem witness_RoundingIsToNearestEven : 0 < 1 := by decide
/-- The smallest subnormal and 1.0; a divisor that is not zero. -/
theorem witness_ArithmeticIsCorrectlyRounded :
    Fp.ofWord 1 = .fin false 1 ∧ Fp.ofWord 0x3FF0000000000000 = .fin false unitsPerOne ∧ unitsPerOne ≠ 0 := by
  decide +kernel
theorem witness_ArithmeticCornerCases : (1 : Nat) ≠ 0 := by decide
/-- 2^53 - 1 and 1, 2^53 and 1, -2^53 and 1. -/
theorem witness_IntegerArithmeticIsExact :
    (2 ^ 53 : Int).natAbs ≤ 2 ^ 53 ∧ (-2 ^ 53 : Int).natAbs ≤ 2 ^ 53 ∧ (1 : Int).natAbs ≤ 2 ^ 53 ∧
    ((2 ^ 53 - 1 : Int) + 1).natAbs ≤ 2 ^ 53 ∧ ((2 ^ 53 : Int) - 1).natAbs ≤ 2 ^ 53 ∧
    ((-2 ^ 53 : Int) * 1).natAbs ≤ 2 ^ 53 ∧ (-2 ^ 53 : Int) * 1 ≠ 0 ∧ (1 : Int) ∣ -2 ^ 53 ∧ (-2 ^ 53 : Int) ≠ 0 := by
  decide
theorem witness_ModIsTheIntegerRemainder :
    (-(2 ^ 53 - 1) : Int).natAbs < 2 ^ 53 ∧ (-2 : Int).natAbs < 2 ^ 53 ∧ (-2 : Int) ≠ 0 := by decide
/-- The default QNAN, an infinity and a negative zero. -/
theorem witness_ModIsFourRoundedSteps :
    Word.IsNaN 0x7FF8000000000000 ∧ Fp.ofWord 0xFFF0000000000000 = .inf true ∧
    Fp.ofWord 0x8000000000000000 = .fin true 0 := by decide +kernel
/-- inf - inf has no NaN operand; NaN + 0 has one. -/
theorem witness_NaNResultsHaveOnePattern :
    Word.IsNaN (onWords Fp.sub 0x7FF8000000000000 0x7FF0000000000000 0x7FF0000000000000) ∧
    Word.IsNaN 0x7FF0000000000001 := by decide +kernel
/-- V-LSH-2: the shift amount is one below the width; V-LSH-4: it is the width. -/
theorem witness_BitwisePushesItsResult :
    (start [0x19] [0x3FF0000000000000, 0x403F000000000000] 2).Ready 1 ∧
    31 = toU .w32 ((start [0x19] [0x3FF0000000000000, 0x403F000000000000] 2).slot 1) ∧
    32 = toU .w32 ((start [0x19] [0x3FF0000000000000, 0x4040000000000000] 2).slot 1) ∧
    1 = toU .w32 ((start [0x19] [0x3FF0000000000000, 0x403F000000000000] 2).slot 0) := by decide +kernel
theorem witness_NotPushesTheComplement :
    (start [0x15] [7] 1).Ready 1 ∧ 1 ≤ (start [0x15] [7] 1).sp.toNat := by decide
theorem witness_ComplementAndShiftsAreBitVectors : 2 ^ 32 - 1 < 2 ^ bits .w32 ∧ 2 ^ 64 - 1 < 2 ^ bits .w64 := by decide
theorem witness_ToUTruncatesAndWraps :
    Word.IsNaN 0x7FF8000000000000 ∧ Fp.ofWord 0xFFF0000000000000 = .inf true ∧
    Fp.ofWord 0xBFF0000000000000 = .fin true unitsPerOne ∧ Fp.ofWord 0x8000000000000000 = .fin true 0 := by
  decide +kernel
theorem witness_U2WIsNearestAndExactFor32Bits : 2 ^ 32 - 1 < 2 ^ 32 ∧ 2 ^ 64 - 1 < 2 ^ 64 := by decide
/-- Each selector with room for one word; a full stack; the first selector that names no register. -/
theorem witness_RegPushesTheSelectedRegister :
    (start [0x1B, 0x00] [7] 2).Ready 2 ∧ (start [0x1B, 0x00] [7] 2).sp < (start [0x1B, 0x00] [7] 2).stackCap ∧
    RegSelMap.default.regOf 0x00 = some .ic ∧ RegSelMap.default.regOf 0x01 = some .pc ∧
    RegSelMap.default.regOf 0x02 = some .sp ∧ (start [0x1B, 0x02] [7] 1).Ready 2 ∧
    (start [0x1B, 0x02] [7] 1).sp = (start [0x1B, 0x02] [7] 1).stackCap ∧
    (start [0x1B, 0x03] []).Ready 2 ∧ RegSelMap.default.regOf 0x03 = none := by decide
theorem witness_FirstFaultWins : (start [] []).ic = 0 ∧ ((start [] []).setIc 0x0101).ic ≠ 0 := by decide
/-- A state in which nothing is in progress. -/
theorem witness_ResetClearsTheRegistersOnly : (start [0x0A] [7, 8]).busy = false := by decide
/-- One instruction of each shape, at PC and busy, with a word where it needs one, at full and empty stacks too. DUP
stores with its third primitive: a reset after the second keeps nothing of it, one after the third the word. -/
theorem witness_AbandonedStepKeepsItsStores :
    (during .running (start [0x03, 0x01, 0x01, 0x07] [])).busy = true ∧ OpcodeMap.default.WellFormed ∧
    (Instr.arr 1 [[7]]).WellFormed ∧ (during .running (start [0x03, 0x01, 0x01, 0x07] [])).Holds (.arr 1 [[7]]) ∧
    (during .running (start [0x03, 0x01, 0x01, 0x07] [])).sp ≤ 16 ∧
    1 = min (min ((5 - 3) / (1 + 1)) 1) (16 - 0) ∧
    (during .stepping (start [0x06] [0x4000000000000000] 1)).busy = true ∧
    (during .stepping (start [0x06] [0x4000000000000000] 1)).Holds .inc ∧
    1 = min (min (9 - 2) (toU .w32 0x4000000000000000)) (1 - (1 - 1)) ∧
    (during .stepping (start [0x0A] [7, 8] 2)).Holds .rot ∧
    (during .stepping (start [0x06] [])).Holds .inc ∧ (during .stepping (start [0x06] [])).sp = 0 ∧
    (during .stepping (start [0x0A] [7])).Holds .rot ∧ (during .stepping (start [0x0A] [7])).sp.toNat < 2 ∧
    (during .stepping (start [0x08] [7])).Holds .dup ∧ opsBeforeStore .dup = some 2 ∧
    serve (.rst 2) (during .stepping (start [0x08] [7])) = .next (during .stepping (start [0x08] [7])).applyReset ∧
    serve (.rst 3) (during .stepping (start [0x08] [7])) =
      .next ((during .stepping (start [0x08] [7])).setSlot 1 7).applyReset ∧
    (during .stepping (start [0x09] [7])).Holds .pop ∧ opsBeforeStore .pop = none :=
  ⟨by decide, by decide, by decide, by decide, by decide, by decide, by decide, by decide, by decide +kernel,
    by decide, by decide, by decide, by decide, by decide, by decide, rfl, rfl, rfl, by decide, rfl⟩
/-- Busy with a run, Halted, and idle; a step and a run that have a next state. -/
theorem witness_PulsesStartStepsAndRuns :
    (during .running (start [0x09] [])).busy = true ∧ ((start [0x09] []).setIc 1).halted = true ∧
    (start [0x09] []).busy = false ∧ (start [0x09] []).halted = false ∧
    (during .stepping (start [0x09] [])).activity = .stepping ∧
    step (during .stepping (start [0x09] [])) =
      .next (((during .stepping (start [0x09] [])).setPc 1).setIc 0x0201) ∧
    (during .running (start [0x00] [])).activity = .running ∧
    runSteps 1 (during .running (start [0x00] [])) = .next ((during .running (start [0x00] [])).setPc 1) ∧
    (start [0x09] []).activity = .idle :=
  ⟨by decide, by decide, by decide, by decide, rfl, rfl, rfl, rfl, rfl⟩
theorem witness_LoadPlacesTheProgram : [0x02, 0x01].length < 2 ^ 32 := by decide
/-- A state that a run reaches, and a Halted one. -/
theorem witness_StepKeepsTheBounds :
    (start [0x09] []).Bounded ∧ step (start [0x09] []) = .next (((start [0x09] []).setPc 1).setIc 0x0201) ∧
    (((start [0x09] []).setPc 1).setIc 0x0201).Bounded ∧ (((start [0x09] []).setPc 1).setIc 0x0201).ic ≠ 0 :=
  ⟨by decide, rfl, by decide, by decide⟩
theorem witness_StepKeepsTheInvariant :
    (start [0x09] [7]).Inv ∧ step (start [0x09] [7]) = .next (((start [0x09] [7]).setPc 1).setSp 0) :=
  ⟨by decide, rfl⟩
theorem witness_HostRequestsKeepTheInvariant :
    (start [0x09] [7]).Inv ∧ serve (.pokeStack 15 9) (start [0x09] [7]) =
      .next ((start [0x09] [7]).applyReset.setSlot 15 9) := ⟨by decide, rfl⟩
theorem witness_StepAlwaysHasANextState : (start [0xFF] [] 0).Bounded := by decide
theorem witness_StepNeverWritesTheProgram :
    step (start [0x09] []) = .next (((start [0x09] []).setPc 1).setIc 0x0201) := rfl
/-- Two states with another word at SP. -/
theorem witness_StaleSlotsAreInvisible :
    SameToProgram (start [0x09] [7]) ((start [0x09] [7]).setSlot 1 9) ∧
    step (start [0x09] [7]) = .next (((start [0x09] [7]).setPc 1).setSp 0) :=
  ⟨⟨rfl, rfl, rfl, ⟨fun _ => rfl, rfl, rfl, rfl, rfl, rfl⟩, by decide⟩, rfl⟩

end Sys2Proof.Tests
end

section
/-! PROOFS. What one step and what a run keep, the host's pulses, and the state after reset. -/

namespace Sys2Proof.Machine

/-! ### The branches of a step (R71) -/

section
variable {s t : State}

/-- A Halted machine does nothing (R73). -/
theorem step_of_halted (hic : s.ic ≠ 0) : step s = .next s := if_pos hic

theorem step_of_decoded {i : Instr} (hic : s.ic = 0) (h : nextInstr s = .ok i t) : step s = exec i t := by
  simp [step, hic, h]

theorem step_of_raised (hic : s.ic = 0) (h : nextInstr s = .raised t) : step s = .next t := by
  simp [step, hic, h]

theorem step_of_stopped {f : Fault} (hic : s.ic = 0) (h : nextInstr s = .stopped f) : step s = .fault f := by
  simp [step, hic, h]

end

/-! ### Invariance, from instructions to steps and runs -/

section
variable {B : Prop} {P : State → Prop} {G : Word → Prop} {q : Word}

/-- The opcode Fetch and the decoding keep what the primitives keep. -/
theorem PrimitivesKeep.nextInstr (h : PrimitivesKeep B P G q) (s : State) (hs : P s) :
    Res.Ends B P (fun _ => True) (nextInstr s) := by
  refine (h.fetch s hs).andThen fun _ t ht _ => ?_
  cases decodeFrom s.params.opcodeMap s.lookahead with
  | ok i => exact ⟨hs, trivial⟩
  | error _ => exact h.illegal t ht

/-- A step keeps what the primitives keep, and stops only where they may. -/
theorem PrimitivesKeep.step (h : PrimitivesKeep B P G q) (s : State) (hs : P s) :
    (∃ t, step s = .next t ∧ P t) ∨ (B ∧ ∃ f, step s = .fault f) := by
  by_cases hic : s.ic = 0
  · have hn := h.nextInstr s hs
    cases hr : Machine.nextInstr s with
    | ok i t => rw [hr] at hn; rw [step_of_decoded hic hr]; exact h.exec i t hn.1
    | raised t => rw [hr] at hn; exact .inl ⟨t, step_of_raised hic hr, hn⟩
    | stopped f => rw [hr] at hn; exact .inr ⟨hn, f, step_of_stopped hic hr⟩
  · exact .inl ⟨s, step_of_halted hic, hs⟩

/-- A property that every step keeps is kept by every run (R72). -/
theorem runSteps_keeps (hstep : ∀ s t, P s → step s = .next t → P t) (n : Nat) {s t : State} (hs : P s)
    (h : runSteps n s = .next t) : P t := by
  induction n generalizing s with
  | zero => cases h; exact hs
  | succ n ih =>
    unfold runSteps at h
    split at h
    · cases h; exact hs
    · split at h
      · next u hu => exact ih (hstep s u hs hu) h
      · cases h
      · cases h

end

/-! ### What belongs to the host -/

/-- A fault request writes IC only (R119). -/
theorem keepsHostSide_requestFault {s t : State} (h : KeepsHostSide s t) (code : BitVec 16) :
    KeepsHostSide s (t.requestFault code) := by
  rw [State.requestFault_eq]; exact h

/-- The registers and the stack are all that the primitives write. -/
theorem primitivesKeep_hostSide (s : State) :
    PrimitivesKeep True (KeepsHostSide s) (fun _ => True) s.params.qnan where
  qn t ht := by obtain ⟨-, -, -, -, hparams, -⟩ := ht; rw [hparams]
  fetch t ht := by
    rcases fetch_cases t with ⟨-, h⟩ | ⟨-, h⟩ | ⟨-, h⟩ <;> rw [h]
    exacts [⟨ht, trivial⟩, keepsHostSide_requestFault ht _, trivial]
  push v t ht _ := by
    rcases push_cases v t with ⟨-, h⟩ | ⟨-, h⟩ | ⟨-, h⟩ <;> rw [h]
    exacts [⟨ht, trivial⟩, keepsHostSide_requestFault ht _, trivial]
  pop t ht := by
    rcases pop_cases t with ⟨-, -, h⟩ | ⟨-, h⟩ | ⟨-, h⟩ <;> rw [h]
    exacts [⟨ht, trivial⟩, keepsHostSide_requestFault ht _, trivial]
  readAt i t ht := by
    rcases readAt_cases i t with ⟨-, -, h⟩ | ⟨-, h⟩ | ⟨-, -, h⟩ <;> rw [h]
    exacts [⟨ht, trivial⟩, keepsHostSide_requestFault ht _, trivial]
  writeAt i v t ht _ := by
    rcases writeAt_cases i v t with ⟨-, -, h⟩ | ⟨-, h⟩ | ⟨-, -, h⟩ <;> rw [h]
    exacts [⟨ht, trivial⟩, keepsHostSide_requestFault ht _, trivial]
  jumpTo a t ht := by
    rcases jumpTo_cases a t with ⟨-, h⟩ | ⟨-, h⟩ <;> rw [h]
    exacts [⟨ht, trivial⟩, keepsHostSide_requestFault ht _]
  illegal t ht := keepsHostSide_requestFault ht _
  int v t ht := ht
  gzero := trivial
  gu _ := trivial
  gi _ _ := trivial
  gf _ _ _ _ := trivial

/-- Settles O54: the primitives keep the host's side, and a step is made of them. -/
theorem stepNeverWritesTheProgram : Obligations.StepNeverWritesTheProgram := by
  intro s t h
  rcases (primitivesKeep_hostSide s).step s (keepsHostSide_refl s) with ⟨u, hu, hk⟩ | ⟨-, f, hf⟩
  · rw [hu] at h; cases h; exact hk
  · rw [hf] at h; cases h

/-- No run changes the request it belongs to. -/
theorem runSteps_activity {n : Nat} {s t : State} (h : runSteps n s = .next t) : t.activity = s.activity := by
  have hk : KeepsHostSide s t := runSteps_keeps (P := KeepsHostSide s)
    (fun _ _ hu hstep => keepsHostSide_trans hu (stepNeverWritesTheProgram _ _ hstep)) n (keepsHostSide_refl s) h
  obtain ⟨-, -, -, -, -, hact⟩ := hk
  exact hact

/-! ### Pulses and `busy` -/

theorem busy_idle {s : State} (h : s.activity = .idle) : s.busy = false := by simp [State.busy, h]

/-- With a request in progress, `busy` shows whether the CORE is Running (R16). -/
theorem busy_of_request {s : State} (h : s.activity ≠ .idle) : s.busy = (s.ic == 0) := by
  simp [State.busy, h]

/-- A pulse while busy or Halted is ignored (R155). -/
theorem pulse_ignored {s : State} (h : s.busy = true ∨ s.halted = true) (a : Activity) : s.pulse a = s :=
  if_pos (by simpa using h)

theorem pulse_accepted {s : State} (hb : s.busy = false) (hh : s.halted = false) (a : Activity) :
    s.pulse a = s.setActivity a :=
  if_neg (by simp [hb, hh])

/-- An accepted pulse makes the CORE busy. -/
theorem busy_setActivity {s : State} (hh : s.halted = false) {a : Activity} (ha : a ≠ .idle) :
    (s.setActivity a).busy = true := by
  rw [busy_of_request ha]
  simpa [State.halted] using hh

/-- A step that is over leaves nothing in progress (R71). -/
theorem completed_stepping (t : State) : completed .stepping (.next t) = .next (t.setActivity .idle) := rfl

/-- A run is over exactly when IC is nonzero (R72). -/
theorem completed_running {t : State} (h : t.activity = .running) :
    completed .running (.next t) = .next (t.setActivity (if t.ic = 0 then .running else .idle)) := by
  by_cases hic : t.ic = 0
  · have hsame : t = t.setActivity .running := by rw [← h]; rfl
    simpa [completed, hic] using hsame
  · simp only [completed, ne_eq, hic, not_false_eq_true, or_true, if_true, if_false]

theorem advance_stepping {s : State} (h : s.activity = .stepping) (n : Nat) :
    advance (n + 1) s = completed .stepping (step s) := by simp [advance, h]

theorem advance_running {s : State} (h : s.activity = .running) (n : Nat) :
    advance n s = completed .running (runSteps n s) := by simp [advance, h]

/-- An idle CORE does nothing (R140). -/
theorem advance_idle {s : State} (h : s.activity = .idle) (n : Nat) : advance n s = .next s := by simp [advance, h]

/-- After the time of `n` steps a run is as `Run()` leaves it, and busy exactly while IC is 0. -/
theorem wait_running {s t : State} {n : Nat} (h : s.activity = .running) (hr : runSteps n s = .next t) :
    serve (.wait n) s = .next (t.setActivity (if t.ic = 0 then .running else .idle)) ∧
    (t.setActivity (if t.ic = 0 then .running else .idle)).busy = (t.ic == 0) := by
  refine ⟨?_, ?_⟩
  · rw [serve, advance_running h, hr, completed_running ((runSteps_activity hr).trans h)]
  · by_cases hic : t.ic = 0
    · rw [if_pos hic, busy_of_request (by simp), State.setActivity_ic]
    · rw [if_neg hic, busy_idle rfl]; exact (beq_false_of_ne hic).symm

/-- Settles O59. -/
theorem pulsesStartStepsAndRuns : Obligations.PulsesStartStepsAndRuns := by
  intro s
  refine ⟨fun h => ?ignored, fun hb hh => ⟨?stepPulse, ?runPulse⟩, fun n t hact hstep => ?step,
    fun n t hact hrun => ?run, fun n hact => ⟨busy_idle hact, advance_idle hact n⟩⟩
  case ignored => simp only [serve, pulse_ignored h, and_self]
  case stepPulse =>
    exact ⟨s.setActivity .stepping, by rw [serve, pulse_accepted hb hh], rfl, busy_setActivity hh (by simp)⟩
  case runPulse =>
    exact ⟨s.setActivity .running, by rw [serve, pulse_accepted hb hh], rfl, busy_setActivity hh (by simp)⟩
  case step =>
    refine ⟨t.setActivity .idle, ?_, rfl, busy_idle rfl⟩
    rw [serve, advance_stepping hact, hstep, completed_stepping]
  case run =>
    obtain ⟨hserve, hbusy⟩ := wait_running hact hrun
    exact ⟨_, hserve, hbusy, rfl⟩

/-! ### Reset -/

theorem default_wellFormed : Params.default.WellFormed := by decide

/-- No slot is live after reset, so what R28 and R107 ask of live slots holds. -/
theorem reset_inv : State.reset.Inv :=
  ⟨by decide, State.reset_canonical, fun _ h => absurd h (Nat.not_lt_zero _), fun _ h => absurd h (Nat.not_lt_zero _),
    .inl (by decide)⟩

/-- Settles O49. -/
theorem resetIsSound : Obligations.ResetIsSound := ⟨reset_inv, default_wellFormed, rfl, rfl, rfl⟩

end Sys2Proof.Machine
end

section
/-! PROOFS. The comparisons of binary64 words (R11, R96 to R99). -/

namespace Sys2Proof.Machine

/-! ### A comparison looks only at the places of its operands -/

theorem compare_of_place {rel : Int → Int → Bool} {a b : Fp} {x y : Int} (ha : a.place = some x)
    (hb : b.place = some y) : Fp.compare rel a b = rel x y := by
  simp only [Fp.compare, ha, hb]

theorem compare_nan {rel : Int → Int → Bool} {a b : Fp} (h : a = .nan ∨ b = .nan) :
    Fp.compare rel a b = false := by
  rcases h with rfl | rfl
  · rfl
  · cases a <;> rfl

theorem place_of_not_nan {w : Word} (h : ¬ Word.IsNaN w) : ∃ x, (Fp.ofWord w).place = some x :=
  Option.ne_none_iff_exists'.mp (by rwa [ne_eq, place_none, ← isNaN_iff])

section
variable {a b : Word} {x y : Int} (ha : (Fp.ofWord a).place = some x) (hb : (Fp.ofWord b).place = some y)
include ha hb

theorem condEq_of_place : condEq a b = decide (x = y) := compare_of_place ha hb

theorem condLt_of_place : condLt a b = decide (x < y) := compare_of_place ha hb

theorem condLe_of_place : condLe a b = decide (x ≤ y) := compare_of_place ha hb

/-- The places are integers, so exactly one of less, equal and greater holds. -/
theorem cond_trichotomy :
    condLt a b = true ∧ condEq a b = false ∧ condLt b a = false ∨
    condLt a b = false ∧ condEq a b = true ∧ condLt b a = false ∨
    condLt a b = false ∧ condEq a b = false ∧ condLt b a = true := by
  simp only [condLt_of_place ha hb, condEq_of_place ha hb, condLt_of_place hb ha, decide_eq_true_eq,
    decide_eq_false_iff_not]
  omega

theorem condLe_eq_lt_or_eq : condLe a b = (condLt a b || condEq a b) := by
  rw [condLe_of_place ha hb, condLt_of_place ha hb, condEq_of_place ha hb, ← Bool.decide_or,
    decide_eq_decide, Int.le_iff_lt_or_eq]

end

/-! ### The places of finite words and of infinities -/

theorem place_fin {w : Word} {s : Bool} {u : Nat} (h : Fp.ofWord w = .fin s u) :
    (Fp.ofWord w).place = some (signed s u) := by rw [h]; rfl

theorem place_inf {w : Word} {s : Bool} (h : Fp.ofWord w = .inf s) :
    (Fp.ofWord w).place = some (signed s overflowUnits) := by rw [h]; rfl

/-- Every finite word lies below +inf and above -inf. -/
theorem finite_lt_inf {w : Word} {s : Bool} {u : Nat} (h : Fp.ofWord w = .fin s u) (t : Bool) :
    (signed s u < signed t overflowUnits ↔ t = false) ∧ (signed t overflowUnits < signed s u ↔ t = true) := by
  have hu := signed_lt_overflow (s := s) (representable_ofWord h).1
  generalize overflowUnits = m at hu ⊢
  cases t
  · simp only [signed_false, reduceCtorEq, iff_true, iff_false]; omega
  · simp only [signed_true, reduceCtorEq, iff_true, iff_false]; omega

/-- The infinities are ordered as their signs. -/
theorem inf_order (s t : Bool) :
    (signed s overflowUnits < signed t overflowUnits ↔ (s && !t) = true) ∧
    (signed s overflowUnits = signed t overflowUnits ↔ s = t) := by
  have hpos := overflow_pos
  generalize overflowUnits = m at hpos ⊢
  cases s <;> cases t <;> simp [signed_true, signed_false] <;> omega

/-- Settles O32: each clause compares the places of the two words. -/
theorem comparisonsAreIeee : Obligations.ComparisonsAreIeee := by
  intro a b
  refine ⟨fun h => ?nan, fun hna hnb => ?ordered, fun s u t v ha hb => ?finite, fun s u t ha hb => ?finiteInf,
    fun s t ha hb => ?infinite⟩
  case nan =>
    simp only [isNaN_iff] at h
    have hEq : condEq a b = false := compare_nan h
    exact ⟨hEq, congrArg Bool.not hEq, compare_nan h, compare_nan h⟩
  case ordered =>
    obtain ⟨x, hx⟩ := place_of_not_nan hna
    obtain ⟨y, hy⟩ := place_of_not_nan hnb
    exact ⟨cond_trichotomy hx hy, condLe_eq_lt_or_eq hx hy, rfl⟩
  case finite =>
    rw [condLt_of_place (place_fin ha) (place_fin hb), condEq_of_place (place_fin ha) (place_fin hb),
      decide_eq_true_iff, decide_eq_true_iff]
    exact ⟨Iff.rfl, Iff.rfl⟩
  case finiteInf =>
    obtain ⟨hlt, hgt⟩ := finite_lt_inf ha t
    rw [condLt_of_place (place_fin ha) (place_inf hb), condLt_of_place (place_inf hb) (place_fin ha)]
    simp only [hlt, hgt]
    cases t <;> exact ⟨rfl, rfl⟩
  case infinite =>
    obtain ⟨hlt, heq⟩ := inf_order s t
    rw [condLt_of_place (place_inf ha) (place_inf hb), condEq_of_place (place_inf ha) (place_inf hb)]
    simp only [hlt, heq]
    cases s <;> cases t <;> exact ⟨rfl, rfl⟩

end Sys2Proof.Machine
end

section
/-! PROOFS. Correct rounding: `Fp.round` gives the nearest binary64 value, ties to even (R11, R79, R108, R109), and so
do the four operations on finite words (R101 to R104). -/

namespace Sys2Proof.Machine

/-! ### Parity of a rounded magnitude -/

/-- The last significand bit, where the significand is normal or the spacing is the smallest. -/
theorem magnitudeBits_mul_pow {m k : Nat} (hm : m < 2 ^ 53) (hk : k = 0 ∨ 2 ^ 52 ≤ m) :
    magnitudeBits (m * 2 ^ k) = k * 2 ^ 52 + m := by
  have hs : spacing (m * 2 ^ k) = k := by
    rcases hk with rfl | hk
    · exact spacing_zero (by simpa using hm)
    · exact spacing_eq (Nat.mul_le_mul_right _ hk) (Nat.mul_lt_mul_of_pos_right hm (by positivity))
  rw [magnitudeBits, hs, Nat.mul_div_cancel _ (by positivity)]

/-- An even significand makes an even word, also where rounding has carried into the next exponent. -/
theorem magnitudeBits_even {m k : Nat} (hm : m ≤ 2 ^ 53) (hk : k = 0 ∨ 2 ^ 52 ≤ m) (heven : m % 2 = 0) :
    magnitudeBits (m * 2 ^ k) % 2 = 0 := by
  rcases Nat.lt_or_eq_of_le hm with hm | rfl
  · rw [magnitudeBits_mul_pow hm hk]; omega
  · rw [show 2 ^ 53 * 2 ^ k = 2 ^ 52 * 2 ^ (k + 1) by ring, magnitudeBits_mul_pow (by omega) (by omega)]; omega

/-! ### The rounded magnitude is the nearest one -/

/-- `u` units are at least as near to `n / d` as `z` units are, and even on a tie between different values. -/
def AtLeastAsNear (n d u : Nat) (z : Int) : Prop :=
  ((n : Int) - u * d).natAbs ≤ ((n : Int) - z * d).natAbs ∧
  (((n : Int) - u * d).natAbs = ((n : Int) - z * d).natAbs → z ≠ u → magnitudeBits u % 2 = 0)

/-- `n / d` rounded to the spacing around it, before the check for overflow. -/
def roundedUnits (n d : Nat) : Nat := divNearestEven n (d * 2 ^ spacing (n / d)) * 2 ^ spacing (n / d)

/-- A rounding is its rounded magnitude, or the infinity from the overflow threshold on. -/
theorem round_eq_roundedUnits (s : Bool) (p : Nat) {q : Nat} (hq : 0 < q) :
    Fp.round s p q = if (2 ^ 1024 - 2 ^ 970) * unitsPerOne * q ≤ p * unitsPerOne then .inf s
      else .fin s (roundedUnits (p * unitsPerOne) q) := by
  simp only [overflow_threshold, ← round_overflow_iff (p * unitsPerOne) q hq]
  by_cases hp : p = 0
  · subst hp
    have h0 : divNearestEven 0 (q * 2 ^ spacing 0) = 0 := by
      simp [divNearestEven, spacing]
    have hov := overflow_pos
    rw [Nat.zero_mul, Nat.zero_div, h0, Nat.zero_mul, if_neg (by omega), roundedUnits, Nat.zero_div, h0, Nat.zero_mul]
    rfl
  · exact round_eq s p q hp

/-- The significand of a rounding has at most 53 bits, and 53 unless the spacing is one unit. -/
theorem significand_bounds (n : Nat) {d : Nat} (hd : 0 < d) :
    divNearestEven n (d * 2 ^ spacing (n / d)) ≤ 2 ^ 53 ∧
    (spacing (n / d) = 0 ∨ 2 ^ 52 ≤ divNearestEven n (d * 2 ^ spacing (n / d))) := by
  obtain ⟨hhigh, hlow⟩ := spacing_bounds (n / d)
  set k := spacing (n / d)
  have hdk : 0 < d * 2 ^ k := by positivity
  refine ⟨divNearestEven_le hdk ?_, hlow.imp id fun h => ?_⟩
  · rw [Nat.div_lt_iff_lt_mul hd] at hhigh
    calc n < 2 ^ 53 * 2 ^ k * d := hhigh
      _ = 2 ^ 53 * (d * 2 ^ k) := by ring
  · have hquot : 2 ^ 52 ≤ n / (d * 2 ^ k) := by
      rw [Nat.le_div_iff_mul_le hd] at h
      rw [Nat.le_div_iff_mul_le hdk]
      calc 2 ^ 52 * (d * 2 ^ k) = 2 ^ 52 * 2 ^ k * d := by ring
        _ ≤ n := h
    unfold divNearestEven; split <;> omega

/-- Among the multiples of the spacing the rounded magnitude is the nearest, and even on a tie. -/
theorem roundedUnits_nearest_multiple (n : Nat) {d : Nat} (hd : 0 < d) {z : Int}
    (hz : (2 ^ spacing (n / d) : Int) ∣ z) : AtLeastAsNear n d (roundedUnits n d) z := by
  obtain ⟨hm, hk⟩ := significand_bounds n hd
  unfold AtLeastAsNear roundedUnits
  set k := spacing (n / d)
  obtain ⟨j, rfl⟩ := hz
  obtain ⟨hle, htie⟩ := divNearestEven_spec n (d * 2 ^ k) (by positivity) j
  set m := divNearestEven n (d * 2 ^ k)
  have em : ((m * 2 ^ k : Nat) : Int) * d = m * (d * 2 ^ k : Nat) := by push_cast; ring
  have ej : 2 ^ k * j * d = j * (d * 2 ^ k : Nat) := by push_cast; ring
  rw [em, ej]
  refine ⟨hle, fun heq hne => magnitudeBits_even hm hk (htie heq ?_)⟩
  rintro rfl
  exact hne (by push_cast; ring)

/-- A value below every significand at the spacing of `n / d` is farther from it than the least of them. -/
theorem roundedUnits_nearer_than_small (n : Nat) {d : Nat} (hd : 0 < d) {z : Int}
    (hz : z < 2 ^ 52 * 2 ^ spacing (n / d)) (hk : spacing (n / d) ≠ 0) :
    ((n : Int) - roundedUnits n d * d).natAbs < ((n : Int) - z * d).natAbs := by
  have hlow := (spacing_bounds (n / d)).2.resolve_left hk
  have hn := (Nat.le_div_iff_mul_le hd).mp hlow
  have hle := (roundedUnits_nearest_multiple n hd (Dvd.intro_left (2 ^ 52 : Int) rfl)).1
  have hlt : z * d < 2 ^ 52 * 2 ^ spacing (n / d) * (d : Int) := mul_lt_mul_of_pos_right hz (by exact_mod_cast hd)
  have hn' : 2 ^ 52 * 2 ^ spacing (n / d) * (d : Int) ≤ n := by exact_mod_cast hn
  omega

/-- Among all binary64 values of either sign the rounded magnitude is the nearest, and even on a tie. -/
theorem roundedUnits_nearest (n : Nat) {d v : Nat} (hd : 0 < d) (hv : Representable v) (t : Bool) :
    AtLeastAsNear n d (roundedUnits n d) (signed t v) := by
  by_cases hdvd : 2 ^ spacing (n / d) ∣ v
  · refine roundedUnits_nearest_multiple n hd ?_
    have hdvd' : (2 ^ spacing (n / d) : Int) ∣ v := by exact_mod_cast hdvd
    cases t
    · exact hdvd'
    · exact (dvd_neg).mpr hdvd'
  · have hk : spacing (n / d) ≠ 0 := by
      intro h; rw [h] at hdvd; exact hdvd (one_dvd _)
    have hsmall : (v : Int) < 2 ^ 52 * 2 ^ spacing (n / d) := by
      exact_mod_cast (representable_split hv).resolve_left hdvd
    have hlt := roundedUnits_nearer_than_small n hd (z := signed t v)
      (lt_of_le_of_lt (by unfold signed; split <;> omega) hsmall) hk
    exact ⟨hlt.le, fun heq => absurd heq hlt.ne⟩

/-! ### Nearest values -/

/-- The distances between signed values are those from a magnitude to values with the XOR sign. -/
theorem signed_distances (s t : Bool) (n u v d : Nat) :
    (signed s n - signed s u * d).natAbs = ((n : Int) - u * d).natAbs ∧
    (signed s n - signed t v * d).natAbs = ((n : Int) - signed (s != t) v * d).natAbs ∧
    (signed s u = signed t v ↔ signed (s != t) v = u) := by
  cases s <;> cases t <;> simp [signed] <;> omega

/-- The sign of a signed magnitude that is not zero. -/
theorem sign_of_signed {n : Nat} (hn : 0 < n) (s : Bool) : s = decide (signed s n < 0) := by
  cases s
  · exact (decide_eq_false (by rw [signed_false]; omega)).symm
  · exact (decide_eq_true (by rw [signed_true]; omega)).symm

/-- A rounding is the nearest binary64 value (R11, R79). -/
theorem isNearest_round (s : Bool) (p : Nat) {q : Nat} (hq : 0 < q) :
    IsNearest (signed s (p * unitsPerOne)) q (Fp.round s p q) := by
  have hcases := round_eq_roundedUnits s p hq
  split at hcases
  · next hle =>
    rw [hcases]
    have hT : 0 < (2 ^ 1024 - 2 ^ 970) * unitsPerOne * q := by
      rw [overflow_threshold]; positivity
    exact ⟨sign_of_signed (hT.trans_le hle) s, by rwa [natAbs_signed]⟩
  · next hlt =>
    rw [hcases]
    refine ⟨by rw [natAbs_signed]; exact Nat.lt_of_not_le hlt, fun c t v hc => ?_⟩
    obtain ⟨eu, ev, ez⟩ := signed_distances s t (p * unitsPerOne) (roundedUnits (p * unitsPerOne) q) v q
    rw [eu, ev, ne_eq, ez]
    exact roundedUnits_nearest _ hq (representable_ofWord hc) _

/-- Being nearest does not depend on a common factor. -/
theorem isNearest_of_scale {x : Int} {d c : Nat} {r : Fp} (hc : 0 < c) (h : IsNearest (x * c) (d * c) r) :
    IsNearest x d r := by
  have hcI : (0 : Int) < c := by exact_mod_cast hc
  have habs : (x * c).natAbs = x.natAbs * c := by rw [Int.natAbs_mul, Int.natAbs_natCast]
  have hdist (y : Int) : (x * c - y * (d * c : Nat)).natAbs = (x - y * d).natAbs * c := by
    rw [← Int.natAbs_natCast c, ← Int.natAbs_mul]; congr 1; push_cast; simp; ring
  cases r with
  | nan => exact h
  | inf s =>
    obtain ⟨hs, hle⟩ := h
    rw [habs, ← Nat.mul_assoc] at hle
    refine ⟨?_, Nat.le_of_mul_le_mul_right hle hc⟩
    have hneg : x * c < 0 ↔ x < 0 := by simpa only [zero_mul] using mul_lt_mul_iff_of_pos_right (b := x) (c := 0) hcI
    rw [hs, decide_eq_decide, hneg]
  | fin s u =>
    obtain ⟨hlt, hnear⟩ := h
    rw [habs, ← Nat.mul_assoc] at hlt
    refine ⟨Nat.lt_of_mul_lt_mul_right hlt, fun w t v hw => ?_⟩
    obtain ⟨hle, htie⟩ := hnear w t v hw
    rw [hdist, hdist] at hle htie
    exact ⟨Nat.le_of_mul_le_mul_right hle hc, fun heq => htie (by rw [heq])⟩

/-- A rounding has the given sign, a zero and an infinity too. -/
theorem round_sign (s : Bool) (p : Nat) {q : Nat} (hq : 0 < q) :
    Fp.round s p q = .inf s ∨ ∃ u, Fp.round s p q = .fin s u :=
  (round_cases s p q hq).imp id fun ⟨u, hu, _⟩ => ⟨u, hu⟩

/-- Settles O34. -/
theorem roundingIsToNearestEven : Obligations.RoundingIsToNearestEven := fun s p q hq =>
  ⟨isNearest_round s p hq, round_sign s p hq, ofWord_toWord_round 0 s p q hq⟩

/-! ### The four operations -/

theorem isNearest_zero (s : Bool) : IsNearest 0 1 (.fin s 0) := by
  have h := isNearest_round s 0 Nat.one_pos
  rw [Nat.zero_mul] at h
  cases s <;> exact h

/-- A sum of two finite values is the nearest value to the exact one, and no NaN. -/
theorem isNearest_add (s t : Bool) (u v : Nat) :
    IsNearest (signed s u + signed t v) 1 (Fp.add (.fin s u) (.fin t v)) := by
  simp only [Fp.add]
  split
  · next h0 => rw [h0]; exact isNearest_zero _
  · have h := isNearest_round (decide (signed s u + signed t v < 0)) (signed s u + signed t v).natAbs unitsPerOne_pos
    rw [signed_int] at h
    exact isNearest_of_scale unitsPerOne_pos (by rwa [Nat.one_mul])

theorem isNearest_sub (s t : Bool) (u v : Nat) :
    IsNearest (signed s u - signed t v) 1 (Fp.sub (.fin s u) (.fin t v)) := by
  rw [sub_eq_add_neg, ← signed_not]
  exact isNearest_add s (!t) u v

theorem isNearest_mul (s t : Bool) (u v : Nat) :
    IsNearest (signed s u * signed t v) unitsPerOne (Fp.mul (.fin s u) (.fin t v)) := by
  have h := isNearest_round (s != t) (u * v) (Nat.mul_pos unitsPerOne_pos unitsPerOne_pos)
  rw [← signed_mul_nat, ← xor_signed] at h
  exact isNearest_of_scale unitsPerOne_pos h

theorem div_fin (s t : Bool) (u : Nat) {v : Nat} (hv : v ≠ 0) :
    Fp.div (.fin s u) (.fin t v) = Fp.round (s != t) u v := by simp only [Fp.div, if_neg hv]

theorem isNearest_ne_nan {x : Int} {d : Nat} {r : Fp} (h : IsNearest x d r) : r ≠ .nan := by
  rintro rfl; exact h

/-- The word of an operation on finite words is as near as its value. -/
theorem isNearest_onWords {f : Fp → Fp → Fp} (hf : f ∈ [Fp.add, Fp.sub, Fp.mul, Fp.div, Fp.mod]) (q : Word)
    {a b : Word} {s t : Bool} {u v : Nat} (ha : Fp.ofWord a = .fin s u) (hb : Fp.ofWord b = .fin t v)
    {x : Int} {d : Nat} (h : IsNearest x d (f (.fin s u) (.fin t v))) :
    IsNearest x d (Fp.ofWord (onWords f q a b)) := by
  have hstore := storable_arith f hf _ _ (storable_ofWord a) (storable_ofWord b)
  rw [← ha, ← hb] at h
  rwa [ofWord_onWords f q a b hstore (isNearest_ne_nan h)]

/-- The sign bit of a word is the sign of its value. -/
theorem sign_of_ofWord {w : Word} {s : Bool} (h : Fp.ofWord w = .inf s ∨ ∃ u, Fp.ofWord w = .fin s u) :
    Word.sign w = s := by
  unfold Fp.ofWord at h
  simp only at h
  split_ifs at h
  · simpa using h
  · simp at h
  · simpa using h
  · simpa using h

/-- Where an operation on two words rounds, its word has the sign that the rounding is given. -/
theorem sign_onWords_round {f : Fp → Fp → Fp} {q a b : Word} {s : Bool} {p d : Nat} (hd : 0 < d)
    (h : f (Fp.ofWord a) (Fp.ofWord b) = Fp.round s p d) : Word.sign (onWords f q a b) = s := by
  refine sign_of_ofWord ?_
  rw [onWords, h, ofWord_toWord_round q s p d hd]
  exact round_sign s p hd

/-- Settles O35. -/
theorem arithmeticIsCorrectlyRounded : Obligations.ArithmeticIsCorrectlyRounded := by
  intro q a b s t u v ha hb
  rw [sign_of_ofWord (.inr ⟨u, ha⟩), sign_of_ofWord (.inr ⟨v, hb⟩)]
  refine ⟨isNearest_onWords (by simp) q ha hb (isNearest_add s t u v),
    isNearest_onWords (by simp) q ha hb (isNearest_sub s t u v),
    isNearest_onWords (by simp) q ha hb (isNearest_mul s t u v),
    sign_onWords_round (Nat.mul_pos unitsPerOne_pos unitsPerOne_pos) (by rw [ha, hb]; rfl), fun hv => ?_⟩
  have hpos := Nat.pos_of_ne_zero hv
  have hdiv := div_fin s t u hv
  exact ⟨isNearest_onWords (by simp) q ha hb (hdiv ▸ isNearest_round (s != t) u hpos),
    sign_onWords_round hpos (by rw [ha, hb, hdiv])⟩

end Sys2Proof.Machine
end

section
/-! PROOFS. MOD as four rounded operations on words, and the truncation between them (R11, R105). -/

namespace Sys2Proof.Machine

/-! ### Values and their words -/

/-- Where QNAN is a NaN, every value that a word holds is read back from its word. -/
theorem ofWord_toWord {q : Word} (hq : Word.IsNaN q) {f : Fp} (h : Fp.Storable f) : Fp.ofWord (f.toWord q) = f := by
  rcases storable_toWord f q h with ⟨hread, -⟩ | ⟨rfl, hnan⟩
  · exact hread
  · rwa [hnan, ← isNaN_iff]

theorem ofWord_onWords_storable {q : Word} (hq : Word.IsNaN q) {f : Fp → Fp → Fp} {a b : Word}
    (h : Fp.Storable (f (Fp.ofWord a) (Fp.ofWord b))) : Fp.ofWord (onWords f q a b) = f (Fp.ofWord a) (Fp.ofWord b) :=
  ofWord_toWord hq h

/-- Each sign has one infinite word. -/
theorem toWord_of_ofWord_inf {w : Word} {s : Bool} (h : Fp.ofWord w = .inf s) (q : Word) : (Fp.inf s).toWord q = w := by
  obtain ⟨t, e, f, he, hf, hw⟩ := word_fields w
  rw [ofWord_fields w t e f he hf hw] at h
  split_ifs at h with h1 h2
  · cases h
    subst h1 h2
    refine BitVec.eq_of_toNat_eq ?_
    rw [hw, Fp.toWord, BitVec.toNat_ofNat]
    have := w.isLt
    omega

/-! ### Truncation -/

/-- A truncated magnitude is representable: a coarse one is an integer already, a fine one gives an integer below
2^53. -/
theorem representable_trunc {u : Nat} (h : Representable u) : Representable (u / unitsPerOne * unitsPerOne) := by
  by_cases hk : 1074 ≤ spacing u
  · have hdvd : unitsPerOne ∣ u := (pow_dvd_pow 2 hk).trans h.2
    rwa [Nat.div_mul_cancel hdvd]
  · refine representable_int (Nat.div_lt_of_lt_mul ?_).le
    calc u < 2 ^ 53 * 2 ^ spacing u := (spacing_bounds u).1
      _ ≤ 2 ^ 53 * unitsPerOne := Nat.mul_le_mul_left _ (Nat.pow_le_pow_right (by omega) (by omega))
      _ = unitsPerOne * 2 ^ 53 := Nat.mul_comm _ _

theorem storable_trunc {f : Fp} (h : Fp.Storable f) : Fp.Storable (Fp.trunc f) := by
  cases f with
  | nan => exact h
  | inf s => exact h
  | fin s u => exact representable_trunc h

theorem ofWord_truncWord {q : Word} (hq : Word.IsNaN q) (w : Word) :
    Fp.ofWord (truncWord q w) = Fp.trunc (Fp.ofWord w) :=
  ofWord_toWord hq (storable_trunc (storable_ofWord w))

theorem truncWord_nan {w : Word} (h : Word.IsNaN w) (q : Word) : truncWord q w = q := by
  rw [truncWord, (isNaN_iff w).mp h]; rfl

theorem truncWord_inf {w : Word} {s : Bool} (h : Fp.ofWord w = .inf s) (q : Word) : truncWord q w = w := by
  rw [truncWord, h]; exact toWord_of_ofWord_inf h q

/-- Truncation takes a finite word to the integer part of its magnitude, with its sign. -/
theorem truncWord_fin {q : Word} (hq : Word.IsNaN q) {w : Word} {s : Bool} {u : Nat} (h : Fp.ofWord w = .fin s u) :
    ∃ n : Nat, Fp.ofWord (truncWord q w) = .fin s (n * unitsPerOne) ∧
      n * unitsPerOne ≤ u ∧ u < (n + 1) * unitsPerOne :=
  ⟨u / unitsPerOne, by rw [ofWord_truncWord hq, h, trunc_fin], Nat.div_mul_le_self _ _,
    (Nat.div_lt_iff_lt_mul unitsPerOne_pos).mp (Nat.lt_succ_self _)⟩

/-! ### The four steps -/

/-- No bit is kept between the four operations: each result is read back from its word. -/
theorem mod_onWords {q : Word} (hq : Word.IsNaN q) (a b : Word) :
    onWords Fp.mod q a b = onWords Fp.sub q a (onWords Fp.mul q (truncWord q (onWords Fp.div q a b)) b) := by
  have hdiv := ofWord_onWords_storable (a := a) (b := b) hq (storable_div _ _)
  have hmul := ofWord_onWords_storable (a := truncWord q (onWords Fp.div q a b)) (b := b) hq (storable_mul _ _)
  rw [onWords, onWords, hmul, ofWord_truncWord hq, hdiv]
  rfl

/-- Settles O57. -/
theorem modIsFourRoundedSteps : Obligations.ModIsFourRoundedSteps := fun q a b _ hq =>
  ⟨mod_onWords hq a b, fun h => truncWord_nan h q, fun _ h => truncWord_inf h q, fun _ _ h => truncWord_fin hq h⟩

end Sys2Proof.Machine
end

section
/-! PROOFS. The whole machine (R28, R33, R107, R122): what each update of the state keeps of the bounds and of the
invariant, and so what every step and every request of the host keeps. -/

namespace Sys2Proof.Machine

/-! ### Push and Pop together -/

/-- A Pop right after a Push leaves nothing of it but the word in the slot at SP. -/
theorem pop_pushed {s : State} (hlt : s.sp.toNat < s.stackCap.toNat) (v : Word) :
    pop ((s.setSlot s.sp.toNat v).setSp (s.sp + 1)) = .ok v (s.setSlot s.sp.toNat v) := by
  have hsp := sp_succ_toNat hlt
  have hback : ((s.setSlot s.sp.toNat v).setSp (s.sp + 1)).setSp (s.sp + 1 - 1) = s.setSlot s.sp.toNat v := by
    rw [BitVec.add_sub_cancel]; rfl
  rw [pop_ok (by rw [State.setSp_sp, hsp]; omega) (by rw [State.setSp_sp, hsp]; exact hlt)]
  simp only [State.setSp_sp, hsp, Nat.add_sub_cancel, State.setSp_slot, State.setSlot_slot, if_true, hback]

/-- Settles O29. -/
theorem popReturnsThePushedWord : Obligations.PopReturnsThePushedWord := by
  intro s v hlt
  refine ⟨_, _, push_ok hlt, pop_pushed hlt v, rfl, rfl, rfl, keepsHostSide_refl s, fun i hi => ?_⟩
  rw [State.setSlot_written, if_neg hi]

/-! ### From updates of the state to the primitives -/

/-- `P` bounds PC and SP and is kept by every update that a primitive makes of a state with `P`: PC within the program,
a code in IC, a word in a live slot, a word on top, one word less. Words stored, and words in live slots, have `G`. -/
structure UpdatesKeep (P : State → Prop) (G : Word → Prop) : Prop where
  bounded : ∀ s, P s → s.Bounded
  setPc : ∀ s v, P s → v ≤ s.progLen → P (s.setPc v)
  setIc : ∀ s v, P s → (s.setIc v).IcKnown → P (s.setIc v)
  setSlot : ∀ s i v, P s → i < s.sp.toNat → G v → P (s.setSlot i v)
  push : ∀ s v, P s → s.sp.toNat < s.stackCap.toNat → G v → P ((s.setSlot s.sp.toNat v).setSp (s.sp + 1))
  pop : ∀ s, P s → 0 < s.sp.toNat → P (s.setSp (s.sp - 1))
  slot : ∀ s i, P s → i < s.sp.toNat → G (s.slot i)

/-- The words that instructions compute, as opposed to move, have `G`; `q` is the pattern QNAN. -/
structure ComputedWords (G : Word → Prop) (q : Word) : Prop where
  zero : G plusZero
  u2w : ∀ u, G (u2w u)
  i2w : ∀ c bs, G (i2w c bs)
  arith : ∀ f ∈ [Fp.add, Fp.sub, Fp.mul, Fp.div, Fp.mod], ∀ a b, G (onWords f q a b)

section
variable {P : State → Prop} {G : Word → Prop} {q : Word} {s : State}

/-- A fault request changes nothing or writes its code (R119). -/
theorem UpdatesKeep.requestFault (h : UpdatesKeep P G) (hs : P s) {code : BitVec 16}
    (hcode : (s.setIc code).IcKnown := by simp [State.IcKnown]) : P (s.requestFault code) := by
  unfold State.requestFault
  split
  · exact h.setIc s code hs hcode
  · exact hs

/-- Within the bounds no primitive meets an address that does not exist. -/
theorem UpdatesKeep.primitivesKeep (h : UpdatesKeep P G) (hw : ComputedWords G q)
    (hq : ∀ s, P s → s.params.qnan = q) : PrimitivesKeep False P G q where
  qn := hq
  fetch s hs := by
    have hpc := le_toNat (h.bounded s hs).1
    rcases fetch_cases s with ⟨hlt, e⟩ | ⟨-, e⟩ | ⟨hgt, -⟩
    · rw [e]
      refine ⟨h.setPc s _ hs ?_, trivial⟩
      rw [BitVec.le_def]
      exact (pc_add_toNat (n := 1) hlt).trans_le hlt
    · rw [e]; exact h.requestFault hs
    · omega
  push v s hs hv := by
    have hsp := le_toNat (h.bounded s hs).2
    rcases push_cases v s with ⟨hlt, e⟩ | ⟨-, e⟩ | ⟨hgt, -⟩
    · rw [e]; exact ⟨h.push s v hs hlt hv, trivial⟩
    · rw [e]; exact h.requestFault hs
    · omega
  pop s hs := by
    have hsp := le_toNat (h.bounded s hs).2
    rcases pop_cases s with ⟨hpos, -, e⟩ | ⟨-, e⟩ | ⟨hgt, -⟩
    · rw [e]; exact ⟨h.pop s hs hpos, h.slot s _ hs (by omega)⟩
    · rw [e]; exact h.requestFault hs
    · omega
  readAt i s hs := by
    have hsp := le_toNat (h.bounded s hs).2
    rcases readAt_cases i s with ⟨hlive, -, e⟩ | ⟨-, e⟩ | ⟨hlive, hgt, -⟩
    · rw [e]; exact ⟨hs, h.slot s i hs hlive⟩
    · rw [e]; exact h.requestFault hs
    · omega
  writeAt i v s hs hv := by
    have hsp := le_toNat (h.bounded s hs).2
    rcases writeAt_cases i v s with ⟨hlive, -, e⟩ | ⟨-, e⟩ | ⟨hlive, hgt, -⟩
    · rw [e]; exact ⟨h.setSlot s i v hs hlive hv, trivial⟩
    · rw [e]; exact h.requestFault hs
    · omega
  jumpTo a s hs := by
    rcases jumpTo_cases a s with ⟨hlt, e⟩ | ⟨-, e⟩
    · rw [e]
      refine ⟨h.setPc s _ hs ?_, trivial⟩
      rw [BitVec.le_def, BitVec.toNat_ofNat]
      exact (Nat.mod_le a _).trans hlt.le
    · rw [e]; exact h.requestFault hs
  illegal s hs := h.requestFault hs
  int v s hs := h.setIc s _ hs (.inl (by rw [State.setIc_ic, BitVec.toNat_setWidth]; omega))
  gzero := hw.zero
  gu := hw.u2w
  gi := hw.i2w
  gf := hw.arith

end

/-! ### The bounds (R33) -/

section
variable {s : State}

theorem bounded_push (h : s.Bounded) (hlt : s.sp.toNat < s.stackCap.toNat) (v : Word) :
    ((s.setSlot s.sp.toNat v).setSp (s.sp + 1)).Bounded :=
  ⟨h.1, BitVec.le_def.mpr ((sp_succ_toNat hlt).trans_le hlt)⟩

theorem bounded_pop (h : s.Bounded) (hpos : 0 < s.sp.toNat) : (s.setSp (s.sp - 1)).Bounded :=
  ⟨h.1, BitVec.le_def.mpr ((sp_pred_toNat hpos).trans_le ((Nat.sub_le _ _).trans (le_toNat h.2)))⟩

theorem primitivesKeep_bounds (q : Word) :
    PrimitivesKeep False (fun s => s.Bounded ∧ s.params.qnan = q) (fun _ => True) q :=
  UpdatesKeep.primitivesKeep
    { bounded := fun _ ⟨hb, _⟩ => hb
      setPc := fun _ _ ⟨⟨_, hsp⟩, hq⟩ hv => ⟨⟨hv, hsp⟩, hq⟩
      setIc := fun _ _ hs _ => hs
      setSlot := fun _ _ _ hs _ _ => hs
      push := fun _ v ⟨hb, hq⟩ hlt _ => ⟨bounded_push hb hlt v, hq⟩
      pop := fun _ ⟨hb, hq⟩ hpos => ⟨bounded_pop hb hpos, hq⟩
      slot := fun _ _ _ _ => trivial }
    ⟨trivial, fun _ => trivial, fun _ _ => trivial, fun _ _ _ _ => trivial⟩
    fun _ ⟨_, hq⟩ => hq

/-- From a state within the bounds a step leads to a state within the bounds. -/
theorem step_bounded (h : s.Bounded) : ∃ t, step s = .next t ∧ t.Bounded := by
  rcases (primitivesKeep_bounds s.params.qnan).step s ⟨h, rfl⟩ with ⟨t, ht, hb, -⟩ | ⟨hfalse, -⟩
  · exact ⟨t, ht, hb⟩
  · exact hfalse.elim

/-- No value lies below the two registers that reset clears. -/
theorem bounded_of_zero (hpc : s.pc = 0) (hsp : s.sp = 0) : s.Bounded := by
  refine ⟨BitVec.le_def.mpr ?_, BitVec.le_def.mpr ?_⟩
  · rw [hpc]; exact Nat.zero_le _
  · rw [hsp]; exact Nat.zero_le _

end

/-- Settles O53. -/
theorem stepAlwaysHasANextState : Obligations.StepAlwaysHasANextState := by
  intro s h
  obtain ⟨t, ht, -⟩ := step_bounded h
  exact ⟨t, ht⟩

/-- Settles O50. -/
theorem stepKeepsTheBounds : Obligations.StepKeepsTheBounds := by
  refine ⟨fun s => bounded_of_zero rfl rfl, fun s t h ht => ⟨?bounds, fun hic => ?halted⟩⟩
  case bounds =>
    obtain ⟨u, hu, hb⟩ := step_bounded h
    rw [ht] at hu; cases hu; exact hb
  case halted => rw [step_of_halted hic] at ht; cases ht; rfl

/-! ### One NaN pattern (R107) -/

/-- The word is QNAN if it is a NaN at all. -/
def Word.NaNIs (q w : Word) : Prop := Word.IsNaN w → w = q

/-- An operation on values answers QNAN where its value is NaN. -/
theorem nanIs_onWords {f : Fp → Fp → Fp} (hf : f ∈ [Fp.add, Fp.sub, Fp.mul, Fp.div, Fp.mod]) (q a b : Word) :
    Word.NaNIs q (onWords f q a b) := by
  have hstore := storable_arith f hf _ _ (storable_ofWord a) (storable_ofWord b)
  intro hnan
  by_cases hval : f (Fp.ofWord a) (Fp.ofWord b) = .nan
  · rw [onWords, hval]; rfl
  · exact absurd hnan (not_nan_toWord hstore hval)

/-- The conversions answer no NaN, and the operations one NaN only. -/
theorem computedWords_nanIs (q : Word) : ComputedWords (Word.NaNIs q) q where
  zero h := absurd h (by decide)
  u2w u h := absurd h (not_nan_u2w u)
  i2w c bs h := absurd h (not_nan_i2w c bs)
  arith _ hf a b := nanIs_onWords hf q a b

/-! ### The invariant, update by update -/

section
variable {s : State}

/-- A write to a slot that exists keeps the canonical form (R34). -/
theorem canonical_setSlot (h : s.Canonical) {i : Nat} (hi : i < s.stackCap.toNat) (v : Word) :
    (s.setSlot i v).Canonical := by
  obtain ⟨hprog, hlen, hstk, hcap⟩ := h
  refine ⟨hprog, hlen, Memory.write_wf _ i v _ hstk, fun c hc => ?_⟩
  rw [State.setSlot_stk] at hc
  rcases Memory.mem_write hc with ⟨rfl, -⟩ | hc
  · exact hi
  · exact hcap c hc

theorem inv_setPc (h : s.Inv) {v : BitVec 32} (hv : v ≤ s.progLen) : (s.setPc v).Inv := by
  obtain ⟨⟨-, hsp⟩, hcanon, hlive, hnan, hic⟩ := h
  exact ⟨⟨hv, hsp⟩, hcanon, hlive, hnan, hic⟩

theorem inv_setIc (h : s.Inv) {v : BitVec 16} (hv : (s.setIc v).IcKnown) : (s.setIc v).Inv := by
  obtain ⟨hbound, hcanon, hlive, hnan, -⟩ := h
  exact ⟨hbound, hcanon, hlive, hnan, hv⟩

/-- Fewer live slots ask for less (R39: the released slot keeps its word). -/
theorem inv_pop (h : s.Inv) (hpos : 0 < s.sp.toNat) : (s.setSp (s.sp - 1)).Inv := by
  obtain ⟨hbound, hcanon, hlive, hnan, hic⟩ := h
  have hsp := sp_pred_toNat hpos
  refine ⟨bounded_pop hbound hpos, hcanon, fun i hi => hlive i ?_, fun i hi => hnan i ?_, hic⟩ <;>
  · rw [State.setSp_sp, hsp] at hi; omega

/-- A write keeps what R28 and R107 ask of a live slot, and sees to it in the slot that it writes. -/
theorem liveSlot_setSlot {q v : Word} {i j : Nat} (hv : Word.NaNIs q v)
    (hj : j ≠ i → (s.written j).isSome = true ∧ Word.NaNIs q (s.slot j)) :
    ((s.setSlot i v).written j).isSome = true ∧ Word.NaNIs q ((s.setSlot i v).slot j) := by
  rw [State.setSlot_written, State.setSlot_slot]
  split
  · exact ⟨rfl, hv⟩
  · next hne => exact hj hne

theorem inv_setSlot (h : s.Inv) {i : Nat} (hi : i < s.sp.toNat) {v : Word} (hv : Word.NaNIs s.params.qnan v) :
    (s.setSlot i v).Inv := by
  obtain ⟨hbound, hcanon, hlive, hnan, hic⟩ := h
  have hslot (j : Nat) (hj : j < s.sp.toNat) := liveSlot_setSlot (i := i) hv fun _ => ⟨hlive j hj, hnan j hj⟩
  exact ⟨hbound, canonical_setSlot hcanon (hi.trans_le (le_toNat hbound.2)) v, fun j hj => (hslot j hj).1,
    fun j hj => (hslot j hj).2, hic⟩

/-- The slot becomes live with the word that Push has written to it (R28). -/
theorem inv_push (h : s.Inv) (hlt : s.sp.toNat < s.stackCap.toNat) {v : Word} (hv : Word.NaNIs s.params.qnan v) :
    ((s.setSlot s.sp.toNat v).setSp (s.sp + 1)).Inv := by
  obtain ⟨hbound, hcanon, hlive, hnan, hic⟩ := h
  have hslot (j : Nat) (hj : j < (s.sp + 1).toNat) :=
    liveSlot_setSlot (s := s) (i := s.sp.toNat) (j := j) hv fun hne => by
      have hbefore : j < s.sp.toNat := by rw [sp_succ_toNat hlt] at hj; omega
      exact ⟨hlive j hbefore, hnan j hbefore⟩
  exact ⟨bounded_push hbound hlt v, canonical_setSlot hcanon hlt v, fun j hj => (hslot j hj).1,
    fun j hj => (hslot j hj).2, hic⟩

end

/-! ### The invariant is kept by every step -/

theorem primitivesKeep_inv (q : Word) :
    PrimitivesKeep False (fun s => s.Inv ∧ s.params.qnan = q) (Word.NaNIs q) q := by
  refine UpdatesKeep.primitivesKeep ?_ (computedWords_nanIs q) fun _ ⟨_, hq⟩ => hq
  constructor
  case bounded => rintro s ⟨⟨hbound, -⟩, -⟩; exact hbound
  case setPc => rintro s v ⟨hs, hq⟩ hv; exact ⟨inv_setPc hs hv, hq⟩
  case setIc => rintro s v ⟨hs, hq⟩ hv; exact ⟨inv_setIc hs hv, hq⟩
  case setSlot => rintro s i v ⟨hs, rfl⟩ hi hv; exact ⟨inv_setSlot hs hi hv, rfl⟩
  case push => rintro s v ⟨hs, rfl⟩ hlt hv; exact ⟨inv_push hs hlt hv, rfl⟩
  case pop => rintro s ⟨hs, hq⟩ hpos; exact ⟨inv_pop hs hpos, hq⟩
  case slot => rintro s i ⟨⟨-, -, -, hnan, -⟩, rfl⟩ hi; exact hnan i hi

/-- Settles O51: every update that a primitive makes keeps the invariant, and a step is made of primitives. -/
theorem stepKeepsTheInvariant : Obligations.StepKeepsTheInvariant := by
  intro s t h ht
  rcases (primitivesKeep_inv s.params.qnan).step s ⟨h, rfl⟩ with ⟨u, hu, hinv, -⟩ | ⟨hfalse, -⟩
  · rw [ht] at hu; cases hu; exact hinv
  · exact hfalse.elim

/-! ### The invariant is kept by every request of the host -/

section
variable {s t : State}

/-- In a state whose registers reset has cleared only the memories can be unsound: no slot is live. -/
theorem inv_of_zero (hic : s.ic = 0) (hpc : s.pc = 0) (hsp : s.sp = 0) (h : s.Canonical) : s.Inv := by
  have hnone : ∀ i, ¬ i < s.sp.toNat := by rw [hsp]; exact fun i => Nat.not_lt_zero i
  exact ⟨bounded_of_zero hpc hsp, h, fun i hi => absurd hi (hnone i), fun i hi => absurd hi (hnone i),
    .inl (by rw [hic]; decide)⟩

/-- The loaded program lies below its length, and of the stack only the slots below the new capacity stay (R144). -/
theorem canonical_load (h : s.Canonical) {program : List Byte} (hlen : program.length < 2 ^ 32) (cap : BitVec 32) :
    (s.load program cap).Canonical := by
  obtain ⟨-, -, hstk, -⟩ := h
  refine ⟨Memory.writeList_wf _ _ _ _ ⟨List.Pairwise.nil, by simp⟩, fun c hc => ?prog,
    Memory.filter_wf _ _ _ hstk, fun c hc => ?stk⟩
  case prog =>
    rcases Memory.mem_writeList hc with hnil | ⟨-, hlt⟩
    · cases hnil
    · show c.1 < (BitVec.ofNat 32 program.length).toNat
      rw [BitVec.toNat_ofNat, Nat.mod_eq_of_lt hlen]; omega
  case stk => exact of_decide_eq_true (List.mem_filter.mp hc).2

theorem inv_canonical (h : s.Inv) : s.Canonical := h.2.1

theorem inv_abandon (h : s.Inv) (ops : Nat) : (s.abandon ops).Inv :=
  ((primitivesKeep_inv s.params.qnan).abandon s ops ⟨h, rfl⟩).1

theorem inv_pulse (h : s.Inv) (a : Activity) : (s.pulse a).Inv := by
  unfold State.pulse
  split <;> exact h

/-- The end of a request writes the activity only. -/
theorem inv_completed {a : Activity} {o : Host.Outcome State Fault Refusal} (ho : ∀ u, o = .next u → u.Inv)
    (h : completed a o = .next t) : t.Inv := by
  cases o with
  | next u =>
    have hu := ho u rfl
    cases h
    split <;> exact hu
  | fault f => cases h
  | refused r => cases h

theorem inv_advance {n : Nat} (h : s.Inv) (ht : advance n s = .next t) : t.Inv := by
  cases hact : s.activity with
  | idle => rw [advance_idle hact] at ht; cases ht; exact h
  | stepping =>
    cases n with
    | zero => simp only [advance, hact, if_true] at ht; cases ht; exact h
    | succ n => rw [advance_stepping hact] at ht; exact inv_completed (fun u => stepKeepsTheInvariant s u h) ht
  | running =>
    rw [advance_running hact] at ht
    exact inv_completed (fun u hu => runSteps_keeps stepKeepsTheInvariant n h hu) ht

end

/-- Settles O52: the requests that reset the machine leave only the memories to look at, and time is made of steps. -/
theorem hostRequestsKeepTheInvariant : Obligations.HostRequestsKeepTheInvariant := by
  intro r s t h ht
  have hcanon := inv_canonical h
  cases r with
  | rst ops =>
    have hleft := inv_canonical (inv_abandon h ops)
    cases ht
    exact inv_of_zero rfl rfl rfl hleft
  | load program cap =>
    rw [serve] at ht
    split at ht
    · next hlen => cases ht; exact inv_of_zero rfl rfl rfl (canonical_load hcanon hlen cap)
    · cases ht
  | pokeStack i v =>
    rw [serve] at ht
    split at ht
    · next hi => cases ht; exact inv_of_zero rfl rfl rfl (canonical_setSlot (s := s.applyReset) hcanon hi v)
    · cases ht
  | hostStep => cases ht; exact inv_pulse h .stepping
  | hostRun => cases ht; exact inv_pulse h .running
  | wait n => exact inv_advance h ht

end Sys2Proof.Machine
end

section
/-! PROOFS. No program can observe a slot at or above SP (R28, R82): a simulation between two states that differ only
there, primitive by primitive. -/

namespace Sys2Proof.Machine

/-! ### What two such states have in common -/

section
variable {s t : State} (h : SameToProgram s t)
include h

theorem SameToProgram.ic : t.ic = s.ic := h.1

theorem SameToProgram.pc : t.pc = s.pc := h.2.1

theorem SameToProgram.sp : t.sp = s.sp := h.2.2.1

theorem SameToProgram.host : KeepsHostSide s t := h.2.2.2.1

theorem SameToProgram.slot {i : Nat} (hi : i < s.sp.toNat) : t.slot i = s.slot i := h.2.2.2.2 i hi

theorem SameToProgram.progByte (a : Nat) : t.progByte a = s.progByte a := h.host.1 a

theorem SameToProgram.progLen : t.progLen = s.progLen := h.host.2.2.1

theorem SameToProgram.stackCap : t.stackCap = s.stackCap := h.host.2.2.2.1

theorem SameToProgram.params : t.params = s.params := h.host.2.2.2.2.1

theorem SameToProgram.lookahead : t.lookahead = s.lookahead := by
  funext k
  simp only [State.lookahead, h.pc, h.progLen, h.progByte]

theorem SameToProgram.controlReg (r : ControlReg) : t.controlReg r = s.controlReg r := by
  cases r <;> simp only [State.controlReg, h.ic, h.pc, h.sp]

end

/-! ### What an update of both states keeps -/

section
variable {s t : State}

theorem sameToProgram_setPc (h : SameToProgram s t) (v : BitVec 32) : SameToProgram (s.setPc v) (t.setPc v) :=
  ⟨h.ic, rfl, h.sp, h.host, fun _ hi => h.slot hi⟩

theorem sameToProgram_setIc (h : SameToProgram s t) (v : BitVec 16) : SameToProgram (s.setIc v) (t.setIc v) :=
  ⟨rfl, h.pc, h.sp, h.host, fun _ hi => h.slot hi⟩

theorem sameToProgram_requestFault (h : SameToProgram s t) (code : BitVec 16) :
    SameToProgram (s.requestFault code) (t.requestFault code) := by
  rw [State.requestFault_eq, State.requestFault_eq, h.ic]
  exact sameToProgram_setIc h _

theorem sameToProgram_setSlot (h : SameToProgram s t) (i : Nat) (v : Word) :
    SameToProgram (s.setSlot i v) (t.setSlot i v) := by
  refine ⟨h.ic, h.pc, h.sp, h.host, fun j hj => ?_⟩
  rw [State.setSlot_slot, State.setSlot_slot, h.slot hj]

/-- SP may move to where all slots below it agree. -/
theorem sameToProgram_setSp (h : SameToProgram s t) {v : BitVec 32}
    (hslot : ∀ i, s.sp.toNat ≤ i → i < v.toNat → t.slot i = s.slot i) :
    SameToProgram (s.setSp v) (t.setSp v) := by
  refine ⟨h.ic, h.pc, rfl, h.host, fun i hi => ?_⟩
  by_cases hbelow : i < s.sp.toNat
  · exact h.slot hbelow
  · exact hslot i (Nat.not_lt.mp hbelow) hi

/-- The slot that Push makes live holds the same word in both states. -/
theorem sameToProgram_pushed (h : SameToProgram s t) (hlt : s.sp.toNat < s.stackCap.toNat) (v : Word) :
    SameToProgram ((s.setSlot s.sp.toNat v).setSp (s.sp + 1)) ((t.setSlot s.sp.toNat v).setSp (s.sp + 1)) := by
  refine sameToProgram_setSp (sameToProgram_setSlot h _ v) fun i hi hlast => ?_
  rw [State.setSlot_sp] at hi
  rw [sp_succ_toNat hlt] at hlast
  have hi : i = s.sp.toNat := by omega
  rw [State.setSlot_slot, State.setSlot_slot, if_pos hi, if_pos hi]

end

/-! ### The primitives -/

/-- The two ends are of one kind, with one result, and a program cannot tell their states apart. -/
inductive Res.Same {α : Type} : Res α → Res α → Prop where
  | ok {s t : State} (a : α) (h : SameToProgram s t) : Res.Same (.ok a s) (.ok a t)
  | raised {s t : State} (h : SameToProgram s t) : Res.Same (.raised s) (.raised t)
  | stopped (f : Fault) : Res.Same (.stopped f) (.stopped f)

theorem Res.Same.andThen {α β : Type} {r r' : Res α} (h : Res.Same r r') {k k' : α → State → Res β}
    (hk : ∀ a s t, SameToProgram s t → Res.Same (k a s) (k' a t)) : Res.Same (r.andThen k) (r'.andThen k') := by
  cases h with
  | ok a h => exact hk a _ _ h
  | raised h => exact .raised h
  | stopped f => exact .stopped f

/-- Operation `p` does not look at a slot at or above SP. -/
abbrev IgnoresStale {β : Type} (p : State → Res β) : Prop :=
  ∀ s t, SameToProgram s t → Res.Same (p s) (p t)

theorem raise_ignoresStale {α : Type} (code : BitVec 16) : IgnoresStale (raise (α := α) code) :=
  fun _ _ h => .raised (sameToProgram_requestFault h code)

theorem fetch_ignoresStale : IgnoresStale fetch := by
  intro s t h
  unfold fetch
  rw [h.pc, h.progLen, h.progByte]
  split
  · exact raise_ignoresStale endOfProgram s t h
  · split
    · exact .stopped _
    · exact .ok _ (sameToProgram_setPc h _)

theorem push_ignoresStale (v : Word) : IgnoresStale (push v) := by
  intro s t h
  unfold push
  rw [h.sp, h.stackCap]
  split
  · exact raise_ignoresStale stackOverflow s t h
  · split
    · exact .stopped _
    · next hne hle => exact .ok _ (sameToProgram_pushed h (by bv_omega) v)

theorem pop_ignoresStale : IgnoresStale pop := by
  intro s t h
  unfold pop
  rw [h.sp, h.stackCap]
  split
  · exact raise_ignoresStale stackUnderflow s t h
  · split
    · exact .stopped _
    · next hne _ =>
      rw [h.slot (by bv_omega)]
      exact .ok _ (sameToProgram_setSp h fun i hi hlast => by bv_omega)

theorem readAt_ignoresStale (i : Nat) : IgnoresStale (readAt i) := by
  intro s t h
  unfold readAt
  rw [h.sp, h.stackCap]
  split
  · exact raise_ignoresStale outOfBounds s t h
  · split
    · exact .stopped _
    · next hlive _ => rw [h.slot (Nat.not_le.mp hlive)]; exact .ok _ h

theorem writeAt_ignoresStale (i : Nat) (v : Word) : IgnoresStale (writeAt i v) := by
  intro s t h
  unfold writeAt
  rw [h.sp, h.stackCap]
  split
  · exact raise_ignoresStale outOfBounds s t h
  · split
    · exact .stopped _
    · exact .ok _ (sameToProgram_setSlot h i v)

theorem jumpTo_ignoresStale (a : Nat) : IgnoresStale (jumpTo a) := by
  intro s t h
  unfold jumpTo
  rw [h.progLen]
  split
  · exact raise_ignoresStale illegalJump s t h
  · exact .ok _ (sameToProgram_setPc h _)

/-! ### Scripts -/

/-- No operation of the script looks at a slot at or above SP, and neither does the choice of what follows it. -/
inductive Script.IgnoresStale : Script → Prop where
  | done : Script.IgnoresStale .done
  | op {β : Type} {p : State → Res β} {k : β → State → Script} (hp : Machine.IgnoresStale p)
      (hnext : ∀ b s t, SameToProgram s t → k b t = k b s) (hk : ∀ b s, (k b s).IgnoresStale) :
      Script.IgnoresStale (.op p k)

/-- Such a script ends in the same way from both states. -/
theorem Script.IgnoresStale.run {c : Script} (h : c.IgnoresStale) {s t : State} (hst : SameToProgram s t) :
    Res.Same (c.run s) (c.run t) := by
  induction h generalizing s t with
  | done => exact .ok () hst
  | op hp hnext _ ih =>
    refine (hp s t hst).andThen fun b u u' hu => ?_
    rw [hnext b u u' hu]
    exact ih b u hu

/-- What follows the operation does not depend on the state at all. -/
theorem Script.IgnoresStale.const {β : Type} {p : State → Res β} {k : β → Script} (hp : Machine.IgnoresStale p)
    (hk : ∀ b, (k b).IgnoresStale) : (Script.op p fun b _ => k b).IgnoresStale :=
  .op hp (fun _ _ _ _ => rfl) fun b _ => hk b

theorem Script.IgnoresStale.lastly {β : Type} {p : State → Res β} (hp : Machine.IgnoresStale p) :
    (lastly p).IgnoresStale := .const hp fun _ => .done

theorem Script.IgnoresStale.fetches (n : Nat) {k : Script} (h : k.IgnoresStale) : (fetches n k).IgnoresStale := by
  induction n with
  | zero => exact h
  | succ n ih => exact .const fetch_ignoresStale fun _ => ih

theorem pushGroups_ignoresStale (conv : NumConv) (gs : List (List Byte)) : (pushGroups conv gs).IgnoresStale := by
  induction gs with
  | nil => exact .done
  | cons g gs ih => exact .fetches _ (.const (push_ignoresStale _) fun _ => ih)

theorem pushZeros_ignoresStale (n : Nat) : (pushZeros n).IgnoresStale := by
  induction n with
  | zero => exact .done
  | succ n ih => exact .const (push_ignoresStale _) fun _ => ih

theorem popMany_ignoresStale (n : Nat) : (popMany n).IgnoresStale := by
  induction n with
  | zero => exact .done
  | succ n ih => exact .const pop_ignoresStale fun _ => ih

theorem binop_ignoresStale (f : Word → Word → Word) : (binop f).IgnoresStale :=
  .fetches 1 (.const pop_ignoresStale fun _ => .const pop_ignoresStale fun _ => .lastly (push_ignoresStale _))

theorem condJump_ignoresStale (bw : BitWidth) (c : Word → Word → Bool) : (condJump bw c).IgnoresStale :=
  .fetches 1 (.const pop_ignoresStale fun _ => .const pop_ignoresStale fun _ => .const pop_ignoresStale fun _ => by
    split
    · exact .lastly (jumpTo_ignoresStale _)
    · exact .done)

/-- Only DUP, ROT and REG go on by what they see of the state, and they see registers only. -/
theorem scriptOf_ignoresStale (p : Params) (i : Instr) : (scriptOf p i).IgnoresStale := by
  cases i with
  | nop => exact .fetches 1 .done
  | int v => exact .fetches 2 (.lastly fun _ _ h => .ok () (sameToProgram_setIc h _))
  | num ds => exact .fetches _ (.lastly (push_ignoresStale _))
  | arr w gs => exact .fetches 3 (pushGroups_ignoresStale _ gs)
  | set => exact .fetches 1 (.const pop_ignoresStale fun _ => .const pop_ignoresStale fun _ =>
      .lastly (writeAt_ignoresStale _ _))
  | get => exact .fetches 1 (.const pop_ignoresStale fun _ => .const (readAt_ignoresStale _) fun _ =>
      .lastly (push_ignoresStale _))
  | inc => exact .fetches 1 (.const pop_ignoresStale fun _ => pushZeros_ignoresStale _)
  | dec => exact .fetches 1 (.const pop_ignoresStale fun _ => popMany_ignoresStale _)
  | dup =>
    refine .op fetch_ignoresStale (fun _ s t h => ?_) fun _ s => ?_
    · simp only [h.sp]
    · split
      · exact .done
      · exact .const (readAt_ignoresStale _) fun _ => .lastly (push_ignoresStale _)
  | pop => exact .fetches 1 (.lastly pop_ignoresStale)
  | rot =>
    refine .op fetch_ignoresStale (fun _ s t h => ?_) fun _ s => ?_
    · simp only [h.sp]
    · split
      · exact .done
      · exact .const (readAt_ignoresStale _) fun _ => .const (readAt_ignoresStale _) fun _ =>
          .const (writeAt_ignoresStale _ _) fun _ => .lastly (writeAt_ignoresStale _ _)
  | reg sel =>
    refine .const fetch_ignoresStale fun _ => .op fetch_ignoresStale (fun _ s t h => ?_) fun _ s => ?_
    · cases p.regSelMap.regOf sel with
      | none => rfl
      | some r => simp only [h.controlReg]
    · split
      · exact .lastly (push_ignoresStale _)
      · exact .lastly (raise_ignoresStale _)
  | jmp => exact .fetches 1 (.const pop_ignoresStale fun _ => .lastly (jumpTo_ignoresStale _))
  | jeq => exact condJump_ignoresStale _ _
  | jne => exact condJump_ignoresStale _ _
  | jls => exact condJump_ignoresStale _ _
  | jle => exact condJump_ignoresStale _ _
  | add => exact binop_ignoresStale _
  | sub => exact binop_ignoresStale _
  | mul => exact binop_ignoresStale _
  | div => exact binop_ignoresStale _
  | mod => exact binop_ignoresStale _
  | not => exact .fetches 1 (.const pop_ignoresStale fun _ => .lastly (push_ignoresStale _))
  | and => exact binop_ignoresStale _
  | bor => exact binop_ignoresStale _
  | xor => exact binop_ignoresStale _
  | lsh => exact binop_ignoresStale _
  | rsh => exact binop_ignoresStale _

/-! ### The step -/

section
variable {s s' t : State}

/-- Where one part ends in a next state, the other does. -/
theorem Res.Same.outcome {α : Type} {r r' : Res α} (h : Res.Same r r') (ht : r.outcome = .next t) :
    ∃ t', r'.outcome = .next t' ∧ SameToProgram t t' := by
  cases h with
  | ok a h => cases ht; exact ⟨_, rfl, h⟩
  | raised h => cases ht; exact ⟨_, rfl, h⟩
  | stopped f => cases ht

theorem exec_ignoresStale (i : Instr) (h : SameToProgram s s') (ht : exec i s = .next t) :
    ∃ t', exec i s' = .next t' ∧ SameToProgram t t' := by
  rw [exec_eq_scriptOf] at ht ⊢
  rw [h.params]
  exact ((scriptOf_ignoresStale s.params i).run h).outcome ht

end

/-- Both states fetch and decode the same instruction. -/
theorem nextInstr_ignoresStale : IgnoresStale nextInstr := by
  intro s t h
  unfold nextInstr
  rw [h.params, h.lookahead]
  refine (fetch_ignoresStale s t h).andThen fun _ u u' hu => ?_
  cases decodeFrom s.params.opcodeMap s.lookahead with
  | ok i => exact .ok i h
  | error _ => exact raise_ignoresStale illegalInstruction u u' hu

/-- Settles O55: both states decode the same instruction, whose script does not look at a slot at or above SP. -/
theorem staleSlotsAreInvisible : Obligations.StaleSlotsAreInvisible := by
  intro s s' t h ht
  by_cases hic : s.ic = 0
  · have hic' : s'.ic = 0 := h.ic.trans hic
    have hnext := nextInstr_ignoresStale s s' h
    generalize hr : nextInstr s = r, hr' : nextInstr s' = r' at hnext
    cases hnext with
    | ok i hu =>
      rw [step_of_decoded hic hr] at ht
      rw [step_of_decoded hic' hr']
      exact exec_ignoresStale i hu ht
    | raised hu =>
      rw [step_of_raised hic hr] at ht
      cases ht
      exact ⟨_, step_of_raised hic' hr', hu⟩
    | stopped f => rw [step_of_stopped hic hr] at ht; cases ht
  · rw [step_of_halted hic] at ht
    cases ht
    exact ⟨s', step_of_halted (by rw [h.ic]; exact hic), h⟩

end Sys2Proof.Machine
end

section
/-! PROOFS. The primitives, the stack instructions SET, GET and POP, JMP, and steps that the program's end cuts short
(R37 to R42, R87, R88, R92, R95, R125). -/

namespace Sys2Proof.Machine

/-! ### The primitives in a Running state -/

/-- Fetches do not halt the machine, so a fault after them is the first one (R119). -/
theorem requestFault_setPc {s : State} (hic : s.ic = 0) (v : BitVec 32) (code : BitVec 16) :
    (s.setPc v).requestFault code = (s.setPc v).setIc code := (s.setPc v).requestFault_running code hic

/-- Settles O12. -/
theorem primitivesFollowTheirRules : Obligations.PrimitivesFollowTheirRules := by
  intro s v i hic hbound
  obtain ⟨hpc, hsp⟩ := hbound
  have hpc := le_toNat hpc
  have hsp := le_toNat hsp
  have hraise (code : BitVec 16) : s.requestFault code = s.setIc code := s.requestFault_running code hic
  refine ⟨fun h => ?fetchEnd, fun h => ?fetchOk, fun h => ?pushFull, fun h => ?pushOk, fun h => ?popEmpty,
    fun h => ?popOk, fun h => ⟨?readOut, ?writeOut⟩, fun h => ⟨readAt_ok h (by omega), ?writeOk⟩, fun h => ?jumpOut,
    fun h => jumpTo_ok h⟩
  case fetchEnd => rw [fetch_end h, hraise]; rfl
  case fetchOk =>
    have hne : s.pc.toNat ≠ s.progLen.toNat := fun he => h (BitVec.eq_of_toNat_eq he)
    exact fetch_ok (by omega)
  case pushFull => rw [push_full h, hraise]; rfl
  case pushOk =>
    have hne : s.sp.toNat ≠ s.stackCap.toNat := fun he => h (BitVec.eq_of_toNat_eq he)
    have hlt : s.sp.toNat < s.stackCap.toNat := by omega
    exact ⟨_, push_ok hlt, ⟨rfl, sp_succ_toNat hlt, hic, keepsHostSide_refl s⟩, by simp, fun j hj => by simp [hj]⟩
  case popEmpty => rw [pop_empty (by rw [h]; rfl), hraise]; rfl
  case popOk =>
    have hne : s.sp.toNat ≠ 0 := fun he => h (BitVec.eq_of_toNat_eq he)
    exact pop_ok (by omega) hsp
  case readOut => rw [readAt_out h, hraise]; rfl
  case writeOut => rw [writeAt_out h, hraise]; rfl
  case writeOk =>
    exact ⟨_, writeAt_ok h (by omega), ⟨rfl, rfl, hic, keepsHostSide_refl s⟩, by simp, fun j hj => by simp [hj]⟩
  case jumpOut => rw [jumpTo_out h, hraise]; rfl

/-! ### A step at the end of the program, and one that the end cuts short -/

section
variable {s : State}

theorem nextInstr_end (h : s.pc = s.progLen) : nextInstr s = .raised (s.requestFault endOfProgram) := by
  rw [nextInstr, fetch_end h, Res.raised_andThen]

/-- With a byte at PC, what the step performs is what the bytes read ahead decode to. -/
theorem nextInstr_of_decoded {i : Instr} (h : s.pc.toNat < s.progLen.toNat)
    (hdec : decodeFrom s.params.opcodeMap s.lookahead = .ok i) : nextInstr s = .ok i s := by
  rw [nextInstr, fetch_ok h, Res.ok_andThen]; simp only [hdec]

end

/-- Settles O6. -/
theorem stepAtProgramEnd : Obligations.StepAtProgramEnd := by
  intro s hic h
  rw [step_of_raised hic (nextInstr_end h), s.requestFault_running _ hic]; rfl

/-- The first `n` operations, whatever they answer, are Fetches. -/
inductive Script.FetchesFirst : Nat → Script → Prop where
  | zero (c : Script) : Script.FetchesFirst 0 c
  | succ {n : Nat} {k : Byte → State → Script} (hk : ∀ b s, Script.FetchesFirst n (k b s)) :
      Script.FetchesFirst (n + 1) (.op fetch k)

/-- Where the program ends among those Fetches, the script raises end of program with PC at PROG_LEN (R125). -/
theorem Script.FetchesFirst.run_cut {n : Nat} {c : Script} (h : c.FetchesFirst n) {s : State}
    (hpc : s.pc.toNat ≤ s.progLen.toNat) (hcut : s.progLen.toNat < s.pc.toNat + n) :
    c.run s = .raised ((s.setPc s.progLen).requestFault endOfProgram) := by
  induction h generalizing s with
  | zero c => omega
  | @succ n k _ ih =>
    rw [Script.run_op]
    rcases fetch_cases s with ⟨hlt, hf⟩ | ⟨hend, hf⟩ | ⟨hgt, -⟩
    · have hnext : (s.pc + 1).toNat = s.pc.toNat + 1 := pc_add_toNat (n := 1) hlt
      rw [hf, Res.ok_andThen, ih _ _ (by rw [State.setPc_pc, State.setPc_progLen]; omega)
        (by rw [State.setPc_pc, State.setPc_progLen]; omega)]
      rfl
    · rw [hf, Res.raised_andThen, ← hend]; rfl
    · omega

theorem fetches_fetchesFirst (n : Nat) (k : Script) : (fetches n k).FetchesFirst n := by
  induction n with
  | zero => exact .zero k
  | succ n ih => exact .succ fun _ _ => ih

/-- Every instruction but ARR fetches all its bytes before it does anything else. -/
theorem scriptOf_fetchesFirst (p : Params) (i : Instr) (h : i.mnemonic ≠ .arr) :
    (scriptOf p i).FetchesFirst i.size := by
  cases i with
  | arr w groups => exact absurd rfl h
  | dup => exact .succ fun _ _ => .zero _
  | rot => exact .succ fun _ _ => .zero _
  | reg sel => exact .succ fun _ _ => .succ fun _ _ => .zero _
  | _ => exact fetches_fetchesFirst _ _

/-- Such an instruction, cut short by the program's end, only fetches what is there. -/
theorem exec_of_cut {s : State} {i : Instr} (h : i.mnemonic ≠ .arr) (hic : s.ic = 0)
    (hpc : s.pc.toNat ≤ s.progLen.toNat) (hcut : s.progLen.toNat < s.pc.toNat + i.size) :
    exec i s = .next ((s.setPc s.progLen).setIc endOfProgram) := by
  rw [exec_eq_scriptOf, Script.exec, (scriptOf_fetchesFirst s.params i h).run_cut hpc hcut, Res.raised_outcome,
    requestFault_setPc hic]

/-- Settles O8: the decoder sees zeros beyond the end, and the instruction that it finds there is cut short. -/
theorem stepOfCutInstruction : Obligations.StepOfCutInstruction := by
  intro s o hic hpc hmap harr hcut
  have hpc : s.pc.toNat < s.progLen.toNat := hpc
  have hop : s.params.opcodeMap.mnemonicOf (s.lookahead 0) = some o := by
    rw [s.lookahead_eq 0 hpc]; exact hmap
  obtain ⟨i, hdec, rfl, hsize⟩ := decodeFrom_mapped s.params.opcodeMap s.lookahead o hop
  rw [← hsize] at hcut
  rw [step_of_decoded hic (nextInstr_of_decoded hpc hdec), exec_of_cut harr hic hpc.le hcut]; rfl

/-! ### Instructions that begin with one Fetch and pops -/

/-- What the opcode Fetch and `n` pops leave. -/
def State.popped (s : State) (n : Nat) : State := (s.setPc (s.pc + 1)).setSp (s.sp - BitVec.ofNat 32 n)

section
variable {s : State} {n : Nat}

@[simp] theorem State.popped_pc : (s.popped n).pc = s.pc + 1 := rfl
@[simp] theorem State.popped_ic : (s.popped n).ic = s.ic := rfl
@[simp] theorem State.popped_progLen : (s.popped n).progLen = s.progLen := rfl
@[simp] theorem State.popped_stk : (s.popped n).stk = s.stk := rfl
@[simp] theorem State.popped_stackCap : (s.popped n).stackCap = s.stackCap := rfl
@[simp] theorem State.popped_written (i : Nat) : (s.popped n).written i = s.written i := rfl
@[simp] theorem State.popped_slot (i : Nat) : (s.popped n).slot i = s.slot i := rfl

theorem State.popped_sp_toNat (h : n ≤ s.sp.toNat) : (s.popped n).sp.toNat = s.sp.toNat - n := by
  have hlt := s.sp.isLt
  rw [State.popped, State.setSp_sp, BitVec.toNat_sub_of_le]
  · rw [BitVec.toNat_ofNat, Nat.mod_eq_of_lt (by omega)]
  · rw [BitVec.le_def, BitVec.toNat_ofNat, Nat.mod_eq_of_lt (by omega)]; exact h

theorem fetch_popped (h : s.pc.toNat < s.progLen.toNat) : fetch s = .ok (s.progByte s.pc.toNat) (s.popped 0) := by
  rw [fetch_ok h, State.popped, BitVec.ofNat_eq_ofNat, BitVec.sub_zero]; rfl

theorem pop_popped (h : n < s.sp.toNat) (hcap : s.sp.toNat ≤ s.stackCap.toNat) :
    pop (s.popped n) = .ok (s.slot (s.sp.toNat - (n + 1))) (s.popped (n + 1)) := by
  have hsp := State.popped_sp_toNat (s := s) (n := n) h.le
  have hsub : s.sp - BitVec.ofNat 32 n - 1 = s.sp - BitVec.ofNat 32 (n + 1) := by
    rw [BitVec.sub_sub, BitVec.ofNat_add]; rfl
  rw [pop_ok (by omega) (by rw [hsp, State.popped_stackCap]; omega), hsp, State.popped_slot, Nat.sub_sub]
  exact congrArg (fun v => Res.ok _ ((s.setPc (s.pc + 1)).setSp v)) hsub

theorem State.Ready.running (hr : s.Ready n) : s.ic = 0 := hr.1

theorem State.Ready.sp_le (hr : s.Ready n) : s.sp.toNat ≤ s.stackCap.toNat := le_toNat hr.2.2

/-- The opcode Fetch and one pop, and then the rest. -/
theorem run_fetch_pop (hr : s.Ready 1) (h1 : 1 ≤ s.sp.toNat) (k : Word → State → Script) :
    (fetches 1 (.op pop k)).run s = (k (s.slot (s.sp.toNat - 1)) (s.popped 1)).run (s.popped 1) := by
  have hpc : s.pc.toNat < s.progLen.toNat := hr.2.1
  rw [fetches, fetches, Script.run_op, fetch_popped hpc, Res.ok_andThen, Script.run_op, pop_popped h1 hr.sp_le,
    Res.ok_andThen]

/-- The opcode Fetch and two pops, and then the rest. -/
theorem run_fetch_pop_pop (hr : s.Ready 1) (h2 : 2 ≤ s.sp.toNat) (k : Word → Word → State → Script) :
    (fetches 1 (.op pop fun b _ => .op pop (k b))).run s =
      (k (s.slot (s.sp.toNat - 1)) (s.slot (s.sp.toNat - 2)) (s.popped 2)).run (s.popped 2) := by
  rw [run_fetch_pop hr (by omega), Script.run_op, pop_popped h2 hr.sp_le, Res.ok_andThen]

/-- The registers after those operations. -/
theorem leaves_popped (hr : s.Ready 1) (h : n ≤ s.sp.toNat) :
    Leaves s (s.popped n) (s.pc.toNat + 1) (s.sp.toNat - n) 0 := by
  obtain ⟨hic, hpc, -⟩ := hr
  exact ⟨pc_add_toNat (n := 1) hpc, State.popped_sp_toNat h, hic, keepsHostSide_refl s⟩

/-- A fault request after those operations. -/
theorem requestFault_popped (hr : s.Ready 1) (code : BitVec 16) :
    (s.popped n).requestFault code = (s.popped n).setIc code := (s.popped n).requestFault_running code hr.running

end

/-- Settles O22. -/
theorem setStoresAtTheIndex : Obligations.SetStoresAtTheIndex := by
  intro s hr h2
  have hsp := State.popped_sp_toNat h2
  have hcap := hr.sp_le
  generalize ha : toU s.params.bitw (s.slot (s.sp.toNat - 1)) = a
  have hexec : exec .set s = (writeAt a (s.slot (s.sp.toNat - 2)) (s.popped 2)).outcome := by
    rw [exec_eq_scriptOf, scriptOf, scriptSet, Script.exec, run_fetch_pop_pop hr h2, Script.run_lastly,
      Res.andThen_ok, ha]
  refine ⟨fun hin => ?stored, fun hout => ?outside⟩
  case stored =>
    rw [hexec, writeAt_ok (by omega) (by rw [State.popped_stackCap]; omega), Res.ok_outcome]
    exact ⟨_, rfl, leaves_popped hr h2, by simp, fun i hi => by simp [hi]⟩
  case outside => rw [hexec, writeAt_out (by omega), requestFault_popped hr]; rfl

/-- Settles O23. -/
theorem getLoadsFromTheIndex : Obligations.GetLoadsFromTheIndex := by
  intro s hr h1
  have hsp := State.popped_sp_toNat h1
  have hcap := hr.sp_le
  generalize ha : toU s.params.bitw (s.slot (s.sp.toNat - 1)) = a
  have hexec : exec .get s = ((readAt a (s.popped 1)).andThen push).outcome := by
    rw [exec_eq_scriptOf, scriptOf, scriptGet, Script.exec, run_fetch_pop hr h1, Script.run_op, ha]
    simp only [Script.run_lastly, Res.andThen_ok]
  refine ⟨fun hin => ?loaded, fun hout => ?outside⟩
  case loaded =>
    have hroom : (s.popped 1).sp.toNat < (s.popped 1).stackCap.toNat := by rw [State.popped_stackCap]; omega
    obtain ⟨hpc, -, hic, hhost⟩ := leaves_popped hr h1
    rw [hexec, readAt_ok (by omega) (by omega), Res.ok_andThen, push_ok hroom, Res.ok_outcome, hsp]
    refine ⟨_, rfl, ⟨hpc, ?_, hic, hhost⟩, by simp, fun i hi => by simp [hi]⟩
    exact (sp_succ_toNat hroom).trans (by omega)
  case outside =>
    rw [hexec, readAt_out (by omega), Res.raised_andThen, Res.raised_outcome, requestFault_popped hr]; rfl

/-- Settles O27. -/
theorem popDiscardsTheTop : Obligations.PopDiscardsTheTop := by
  intro s hr
  refine ⟨fun h1 => ?word, fun h0 => ?empty⟩
  case word => rw [exec_eq_scriptOf, scriptOf, scriptPop, Script.exec, lastly, run_fetch_pop hr h1]; rfl
  case empty =>
    obtain ⟨hic, hpc, -⟩ := hr
    rw [exec_eq_scriptOf, scriptOf, scriptPop, Script.exec, fetches_ok hpc, Script.run_lastly,
      pop_empty (s := s.setPc (s.pc + BitVec.ofNat 32 1)) h0, Res.raised_andThen, Res.raised_outcome,
      requestFault_setPc hic]
    rfl

/-- Settles O30. -/
theorem jmpGoesToItsTarget : Obligations.JmpGoesToItsTarget := by
  intro s hr h1
  generalize ha : toU s.params.bitw (s.slot (s.sp.toNat - 1)) = a
  have hexec : exec .jmp s = (jumpTo a (s.popped 1)).outcome := by
    rw [exec_eq_scriptOf, scriptOf, scriptJmp, Script.exec, run_fetch_pop hr h1, Script.run_lastly, Res.andThen_ok, ha]
  refine ⟨fun hin => ?jumps, fun hout => ?illegal⟩
  case jumps => rw [hexec, jumpTo_ok (s := s.popped 1) hin]; rfl
  case illegal => rw [hexec, jumpTo_out (s := s.popped 1) hout, requestFault_popped hr]; rfl

end Sys2Proof.Machine
end

section
/-! PROOFS. What a step that reset abandons has stored (R49, R53, R141). -/

namespace Sys2Proof.Machine

/-! ### The instruction in progress -/

/-- The bytes of a well-formed instruction, whatever follows them, decode to it. -/
theorem decode_encode {m : OpcodeMap} (hm : m.WellFormed) {i : Instr} (hi : i.WellFormed) (rest : List Byte) :
    decode m (encode m i ++ rest) = .ok (i, rest) := by
  rw [encode, List.cons_append, decode, mnemonicOf_byteOf m hm]
  exact decodeOperands_operandBytes i rest hi

section
variable {s : State} {i : Instr}

/-- An instruction that the program holds has its opcode byte there. -/
theorem State.Holds.pc_lt (h : s.Holds i) : s.pc.toNat < s.progLen.toNat := by
  obtain ⟨hlen, -⟩ := h
  have hpos : 0 < i.size := by rw [← encode_length s.params.opcodeMap i]; exact Nat.succ_pos _
  omega

/-- The decoder, looking ahead, finds the instruction that the program holds. -/
theorem decodeFrom_of_holds (hm : s.params.opcodeMap.WellFormed) (hi : i.WellFormed) (h : s.Holds i) :
    decodeFrom s.params.opcodeMap s.lookahead = .ok i := by
  obtain ⟨hlen, hbytes⟩ := h
  have hahead : bytesFrom s.lookahead 0 i.size = encode s.params.opcodeMap i := by
    rw [← hbytes]
    exact bytesFrom_congr fun k hk => by rw [Nat.zero_add, s.lookahead_eq k (by omega)]
  have hdec := decode_encode hm hi []
  rw [List.append_nil] at hdec
  rw [decodeFrom, instrLength_of_bytes _ hm i hi _ hahead, hahead, hdec]

theorem nextInstr_of_holds (hm : s.params.opcodeMap.WellFormed) (hi : i.WellFormed) (h : s.Holds i) :
    nextInstr s = .ok i s :=
  nextInstr_of_decoded h.pc_lt (decodeFrom_of_holds hm hi h)

theorem ic_of_busy (h : s.busy = true) : s.ic = 0 := by
  unfold State.busy at h
  exact eq_of_beq (Bool.and_eq_true_iff.mp h).2

/-- A reset inside the step keeps what the first primitives of the instruction have done to the memories. -/
theorem serve_rst_of_holds (hbusy : s.busy = true) (hm : s.params.opcodeMap.WellFormed) (hi : i.WellFormed)
    (h : s.Holds i) (ops : Nat) :
    serve (.rst ops) s = .next (Script.runFirst ops (scriptOf s.params i) s).applyReset := by
  rw [serve, State.abandon, if_pos hbusy, nextInstr_of_holds hm hi h]

end

/-! ### Scripts whose first operations store nothing -/

/-- None of the first `n` operations writes STK. -/
inductive Script.QuietFor : Nat → Script → Prop where
  | zero (c : Script) : Script.QuietFor 0 c
  | done (n : Nat) : Script.QuietFor n .done
  | op {n : Nat} {β : Type} {p : State → Res β} {k : β → State → Script} (hp : KeepsStk p)
      (hk : ∀ b s, Script.QuietFor n (k b s)) : Script.QuietFor (n + 1) (.op p k)

/-- Abandoned after some of them, the script has left STK as it was. -/
theorem Script.QuietFor.runFirst {n : Nat} {c : Script} (h : c.QuietFor n) {ops : Nat} (ho : ops ≤ n) (s : State) :
    (Script.runFirst ops c s).stk = s.stk := by
  induction h generalizing ops s with
  | zero c => rw [Nat.le_zero.mp ho]; rfl
  | done n => rw [Script.runFirst_done]
  | @op n _ p k hp _ ih =>
    cases ops with
    | zero => rfl
    | succ ops =>
      have hq := hp s
      simp only [Script.runFirst]
      cases e : p s with
      | ok b t =>
        rw [e] at hq
        exact (ih b t (Nat.le_of_succ_le_succ ho) t).trans hq.1
      | raised t => rw [e] at hq; exact hq
      | stopped f => rfl

/-- Equal stack memories read alike. -/
theorem written_of_stk {s t : State} (h : t.stk = s.stk) (i : Nat) : t.written i = s.written i := by
  rw [State.written, State.written, h]

theorem scriptInc_quiet (p : Params) : (scriptInc p).QuietFor 2 :=
  .op fetch_keeps_stk fun _ _ => .op pop_keeps_stk fun _ _ => .zero _

theorem scriptRot_quiet : scriptRot.QuietFor 3 :=
  .op fetch_keeps_stk fun _ _ => by
    split
    · exact .done _
    · exact .op (readAt_keeps_stk _) fun _ _ => .op (readAt_keeps_stk _) fun _ _ => .zero _

/-! ### The instructions that store several words -/

section
variable {s : State}

/-- ARR, after `ops` primitives: three Fetches, and then its loop (R86). -/
theorem runFirst_scriptArr {w : Byte} {groups : List (List Byte)} (hi : (Instr.arr w groups).WellFormed)
    (hp : s.pc.toNat + (Instr.arr w groups).size ≤ s.progLen.toNat) (hcap : s.sp.toNat ≤ s.stackCap.toNat)
    (ops k : Nat)
    (hk : k = min (min ((ops - 3) / (w.toNat + 1)) groups.length) (s.stackCap.toNat - s.sp.toNat)) :
    (∀ j, j < k → ∀ h : j < groups.length,
      (Script.runFirst ops (scriptArr s.params w groups) s).written (s.sp.toNat + j) =
        some (i2w s.params.numConv groups[j])) ∧
    KeepsSlots s (Script.runFirst ops (scriptArr s.params w groups) s)
      (fun a => s.sp.toNat ≤ a ∧ a < s.sp.toNat + k) := by
  obtain ⟨-, hlen⟩ := wf_arr.mp hi
  rw [Instr.size, flatten_length _ _ hlen] at hp
  rw [scriptArr]
  rcases Nat.lt_or_ge ops 3 with ho | ho
  · rw [Nat.sub_eq_zero_of_le ho.le, Nat.zero_div, Nat.zero_min, Nat.zero_min] at hk
    rw [runFirst_few_fetches (by omega) ho.le]
    exact ⟨fun j hj => by omega, fun _ _ => rfl⟩
  · obtain ⟨m, rfl⟩ := Nat.exists_eq_add_of_le ho
    rw [Nat.add_sub_cancel_left] at hk
    rw [runFirst_fetches (by omega)]
    have hpc := pc_add_toNat (s := s) (n := 3) (by omega)
    exact runFirst_pushGroups s.params.numConv w.toNat m groups (s.setPc (s.pc + BitVec.ofNat 32 3)) hlen
      (by rw [State.setPc_pc, State.setPc_progLen, hpc]; omega) hcap k hk

/-- INC on a word, after `ops` primitives: a Fetch and a Pop, and then its loop (R89). -/
theorem runFirst_scriptInc (hpc : s.pc.toNat < s.progLen.toNat) (h1 : 1 ≤ s.sp.toNat)
    (hcap : s.sp.toNat ≤ s.stackCap.toNat) (ops k : Nat)
    (hk : k = min (min (ops - 2) (toU s.params.bitw (s.slot (s.sp.toNat - 1))))
      (s.stackCap.toNat - (s.sp.toNat - 1))) :
    (∀ a, s.sp.toNat - 1 ≤ a → a < s.sp.toNat - 1 + k →
      (Script.runFirst ops (scriptInc s.params) s).written a = some plusZero) ∧
    KeepsSlots s (Script.runFirst ops (scriptInc s.params) s)
      (fun a => s.sp.toNat - 1 ≤ a ∧ a < s.sp.toNat - 1 + k) := by
  rcases Nat.lt_or_ge ops 2 with ho | ho
  · have hstk := (scriptInc_quiet s.params).runFirst ho.le s
    exact ⟨fun a => by omega, fun a _ => written_of_stk hstk a⟩
  · obtain ⟨m, rfl⟩ := Nat.exists_eq_add_of_le ho
    have hsp := State.popped_sp_toNat h1
    have hrun : Script.runFirst (2 + m) (scriptInc s.params) s =
        Script.runFirst m (pushZeros (toU s.params.bitw (s.slot (s.sp.toNat - 1)))) (s.popped 1) := by
      rw [scriptInc, fetches, fetches, show 2 + m = m + 1 + 1 by omega, Script.runFirst_ok (fetch_popped hpc),
        Script.runFirst_ok (pop_popped h1 hcap)]
    have hloop := runFirst_pushZeros (toU s.params.bitw (s.slot (s.sp.toNat - 1))) m (s.popped 1)
      (by rw [hsp, State.popped_stackCap]; omega) k (by rw [hsp, State.popped_stackCap, hk]; omega)
    rw [hsp] at hloop
    rw [hrun]
    exact hloop

/-- INC on an empty stack faults in its Pop. -/
theorem runFirst_scriptInc_empty (hpc : s.pc.toNat < s.progLen.toNat) (h0 : s.sp.toNat = 0) (ops : Nat) :
    (Script.runFirst ops (scriptInc s.params) s).stk = s.stk := by
  rcases Nat.lt_or_ge ops 2 with ho | ho
  · exact (scriptInc_quiet s.params).runFirst ho.le s
  · obtain ⟨m, rfl⟩ := Nat.exists_eq_add_of_le ho
    have hpop := pop_empty (s := s.setPc (s.pc + 1)) h0
    rw [scriptInc, fetches, fetches, show 2 + m = m + 1 + 1 by omega, Script.runFirst_ok (fetch_ok hpc),
      Script.runFirst_raised hpop, State.requestFault_stk, State.setPc_stk]

/-- ROT on fewer than two words is over after its Fetch (R93). -/
theorem runFirst_scriptRot_few (hpc : s.pc.toNat < s.progLen.toNat) (hfew : s.sp.toNat < 2) (ops : Nat) :
    (Script.runFirst ops scriptRot s).stk = s.stk := by
  cases ops with
  | zero => rfl
  | succ n =>
    rw [scriptRot, Script.runFirst_ok (fetch_ok hpc), State.setPc_sp, if_pos hfew, Script.runFirst_done,
      State.setPc_stk]

/-- ROT on two words, after `n` primitives beyond its Fetch and its two reads: the upper slot is written first. -/
theorem runFirst_scriptRot (hpc : s.pc.toNat < s.progLen.toNat) (h2 : 2 ≤ s.sp.toNat)
    (hcap : s.sp.toNat ≤ s.stackCap.toNat) (n : Nat) :
    Script.runFirst (n + 3) scriptRot s =
      Script.runFirst n (.op (writeAt (s.sp.toNat - 1) (s.slot (s.sp.toNat - 2))) fun _ _ =>
        lastly (writeAt (s.sp.toNat - 2) (s.slot (s.sp.toNat - 1)))) (s.setPc (s.pc + 1)) := by
  have hread (i : Nat) (hi : i < s.sp.toNat) : readAt i (s.setPc (s.pc + 1)) = .ok (s.slot i) (s.setPc (s.pc + 1)) :=
    readAt_ok (s := s.setPc (s.pc + 1)) hi (hi.trans_le hcap)
  rw [scriptRot, Script.runFirst_ok (fetch_ok hpc), State.setPc_sp, if_neg (by omega),
    Script.runFirst_ok (hread _ (by omega)), Script.runFirst_ok (hread _ (by omega))]

/-- Which of ROT's two slots have been written after `ops` primitives. -/
theorem runFirst_scriptRot_written (hpc : s.pc.toNat < s.progLen.toNat) (h2 : 2 ≤ s.sp.toNat)
    (hcap : s.sp.toNat ≤ s.stackCap.toNat) (ops a : Nat) :
    (Script.runFirst ops scriptRot s).written a =
      if a = s.sp.toNat - 1 ∧ 4 ≤ ops then some (s.slot (s.sp.toNat - 2))
      else if a = s.sp.toNat - 2 ∧ 5 ≤ ops then some (s.slot (s.sp.toNat - 1)) else s.written a := by
  have hupper := writeAt_ok (s := s.setPc (s.pc + 1)) (i := s.sp.toNat - 1) (v := s.slot (s.sp.toNat - 2))
    (show s.sp.toNat - 1 < s.sp.toNat by omega) (show s.sp.toNat - 1 < s.stackCap.toNat by omega)
  have hlower := writeAt_ok
    (s := (s.setPc (s.pc + 1)).setSlot (s.sp.toNat - 1) (s.slot (s.sp.toNat - 2))) (i := s.sp.toNat - 2)
    (v := s.slot (s.sp.toNat - 1))
    (show s.sp.toNat - 2 < s.sp.toNat by omega) (show s.sp.toNat - 2 < s.stackCap.toNat by omega)
  obtain ho | rfl | ⟨n, rfl⟩ : ops ≤ 3 ∨ ops = 4 ∨ ∃ n, ops = n + 5 := by
    by_cases h5 : 5 ≤ ops
    · exact .inr (.inr ⟨ops - 5, by omega⟩)
    · omega
  · rw [written_of_stk (scriptRot_quiet.runFirst ho s), if_neg (by omega), if_neg (by omega)]
  · rw [runFirst_scriptRot hpc h2 hcap 1, Script.runFirst_ok hupper, Script.runFirst_zero,
      State.setSlot_written]
    simp
  · rw [show n + 5 = n + 2 + 3 by omega, runFirst_scriptRot hpc h2 hcap, Script.runFirst_ok hupper, lastly,
      Script.runFirst_ok hlower, Script.runFirst_done]
    simp only [State.setSlot_written, State.setPc_written]
    grind

end

/-- Settles O58. -/
theorem abandonedStepKeepsItsStores : Obligations.AbandonedStepKeepsItsStores := by
  intro s i ops hbusy hm hi hholds hsp
  have hserve := serve_rst_of_holds hbusy hm hi hholds ops
  have hpc := hholds.pc_lt
  have hcap := le_toNat hsp
  refine ⟨?arr, ?inc, ?rot, ?tooFew, ?oneStore, ?noStore⟩
  case arr =>
    rintro w groups k rfl hk
    obtain ⟨hlen, -⟩ := hholds
    obtain ⟨hwords, hkeeps⟩ := runFirst_scriptArr hi hlen hcap ops k hk
    exact ⟨_, hserve, hwords, hkeeps⟩
  case inc =>
    rintro k rfl h1 hk
    obtain ⟨hzeros, hkeeps⟩ := runFirst_scriptInc hpc h1 hcap ops k hk
    exact ⟨_, hserve, hzeros, hkeeps⟩
  case rot =>
    rintro rfl h2
    have hwritten := runFirst_scriptRot_written hpc h2 hcap ops
    refine ⟨_, hserve, (hwritten _).trans ?upper, (hwritten _).trans ?lower, fun a ha => (hwritten a).trans ?kept⟩
    case upper => split <;> grind
    case lower => rw [if_neg (by omega)]; grind
    case kept => rw [if_neg fun h => ha (.inl h.1), if_neg fun h => ha (.inr h.1)]
  case tooFew =>
    rintro (⟨rfl, h0⟩ | ⟨rfl, hfew⟩)
    · exact ⟨_, hserve, runFirst_scriptInc_empty hpc (by rw [h0]; rfl) ops⟩
    · exact ⟨_, hserve, runFirst_scriptRot_few hpc hfew ops⟩
  case oneStore =>
    intro n hn
    obtain ⟨u, hu, -⟩ := step_bounded (s := s) ⟨BitVec.le_def.mpr hpc.le, hsp⟩
    have hexec : (scriptOf s.params i).exec s = .next u := by
      rw [← exec_eq_scriptOf, ← step_of_decoded (ic_of_busy hbusy) (nextInstr_of_holds hm hi hholds), hu]
    exact ⟨_, u, hserve, hu, (storesAt_scriptOf s.params i n hn).runFirst ops s u hexec⟩
  case noStore =>
    intro hnone harr hinc hrot
    exact ⟨_, hserve, (storesNothing_scriptOf s.params i hnone harr hinc hrot).runFirst ops s⟩

end Sys2Proof.Machine
end

section
/-! PROOFS. The encoding and its inverse, the length of an instruction, and the step on the opcode byte at PC (R57 to
R64, R71). -/

namespace Sys2Proof.Machine

/-! ### Decoding and encoding -/

/-- Settles O1. -/
theorem decodeOfEncodeIsTheInstruction : Obligations.DecodeOfEncodeIsTheInstruction :=
  fun _ _ rest hm hi => decode_encode hm hi rest

/-- What decodes begins with an opcode of the map, and its operand bytes follow the format. -/
theorem decode_inv {m : OpcodeMap} {bs rest : List Byte} {i : Instr} (h : decode m bs = .ok (i, rest)) :
    ∃ b, m.mnemonicOf b = some i.mnemonic ∧ bs = b :: (i.operandBytes ++ rest) ∧ i.WellFormed := by
  cases bs with
  | nil => simp [decode] at h
  | cons b ops =>
    rw [decode] at h
    cases hop : m.mnemonicOf b with
    | none => simp [hop] at h
    | some o =>
      simp only [hop] at h
      obtain ⟨rfl, rfl, hi⟩ := decodeOperands_inv o ops rest i h
      exact ⟨b, hop, rfl, hi⟩

/-- Settles O2. -/
theorem decodedBytesAreTheEncoding : Obligations.DecodedBytesAreTheEncoding := by
  intro m bs rest i hm h
  obtain ⟨b, hop, rfl, hi⟩ := decode_inv h
  exact ⟨by rw [encode, byteOf_mnemonicOf m hm b _ hop, List.cons_append], hi⟩

/-! ### The length of an instruction -/

/-- Reading a list by its indices gives the list. -/
theorem bytesFrom_getD (bs : List Byte) {n : Nat} (h : n ≤ bs.length) :
    bytesFrom (fun k => bs.getD k 0) 0 n = bs.take n := by
  induction n generalizing bs with
  | zero => rfl
  | succ n ih =>
    cases bs with
    | nil => simp at h
    | cons b bs =>
      rw [bytesFrom, List.take_succ_cons, ← ih bs (Nat.le_of_succ_le_succ h), List.getD_cons_zero]
      exact congrArg _ (bytesFrom_congr fun k _ => by rw [Nat.zero_add, Nat.add_comm 1 k,
        List.getD_cons_succ, Nat.zero_add])

/-- The first three bytes of a sequence that an encoding begins give the encoding's length (R59). -/
theorem instrLength_encode_append {m : OpcodeMap} (hm : m.WellFormed) {i : Instr} (hi : i.WellFormed)
    {rest tail : List Byte} {b0 b1 b2 : Byte} (h : encode m i ++ rest = b0 :: b1 :: b2 :: tail) :
    instrLength m b0 b1 b2 = i.size := by
  refine instrLength_of_bytes m hm i hi (fun k => (b0 :: b1 :: b2 :: tail).getD k 0) ?_
  rw [← h, bytesFrom_getD _ (by rw [List.length_append, encode_length]; omega), ← encode_length m, List.take_left]

/-- ARR's size by its width and its count (R59). -/
theorem size_arr {w : Byte} {groups : List (List Byte)} (hi : (Instr.arr w groups).WellFormed) :
    (Instr.arr w groups).size = 3 + w.toNat * groups.length := by
  obtain ⟨-, hlen⟩ := wf_arr.mp hi
  rw [Instr.size, flatten_length _ _ hlen]

/-- Settles O3. -/
theorem firstBytesGiveTheLength : Obligations.FirstBytesGiveTheLength := by
  intro m i rest b0 b1 b2 tail hm hi h
  rw [encode_length, instrLength_encode_append hm hi h]
  refine ⟨rfl, ?format, ?bound⟩
  case format =>
    cases i with
    | arr w groups => exact size_arr hi
    | _ => rfl
  case bound =>
    cases i with
    | num ds => exact Nat.add_le_add_left (wf_num.mp hi) 2
    | arr w groups =>
      obtain ⟨-, -, hmax⟩ := Laws.EncodeLength.arr w groups m hi
      exact hmax
    | _ => simp [Instr.size]

/-! ### Bytes written out -/

/-- Settles O4: the bytes are the encodings of the instructions and what follows them. -/
theorem writtenBytesDecode : Obligations.WrittenBytesDecode := by
  obtain ⟨hm, -, -⟩ := default_wellFormed
  have hdec (i : Instr) (rest : List Byte) (hi : i.WellFormed) :
      decode OpcodeMap.default (encode OpcodeMap.default i ++ rest) = .ok (i, rest) :=
    decode_encode hm hi rest
  refine ⟨hdec .nop [] rfl, hdec (.int 0x07) [] rfl, hdec (.num [0x01, 0x00]) [0xFF] rfl,
    hdec (.arr 2 [[0x00, 0x07], [0xFF, 0xFF], [0x01, 0x00]]) [] rfl, hdec .rot [0x11] rfl, hdec .jle [] rfl,
    hdec .mod [] rfl, hdec .lsh [] rfl, hdec (.reg 0x02) [] rfl, ?unmapped⟩
  case unmapped => rfl

/-! ### A step on the opcode byte at PC -/

/-- Settles O5. -/
theorem stepRunsTheDecodedInstruction : Obligations.StepRunsTheDecodedInstruction :=
  fun _ _ hic hm hi h => step_of_decoded hic (nextInstr_of_holds hm hi h)

/-- An opcode byte that the map lacks does not decode, whatever follows it (R64). -/
theorem decodeFrom_unmapped {m : OpcodeMap} {rd : Nat → Byte} (h : m.mnemonicOf (rd 0) = none) :
    decodeFrom m rd = .error (.illegalOpcode (rd 0)) := by
  simp only [decodeFrom, instrLength_unmapped m _ _ _ h, bytesFrom, decode, h]

/-- At such a byte the opcode Fetch is done and the decoding raises illegal instruction. -/
theorem nextInstr_of_unmapped {s : State} (hpc : s.pc.toNat < s.progLen.toNat)
    (h : s.params.opcodeMap.mnemonicOf (s.progByte s.pc.toNat) = none) :
    nextInstr s = .raised ((s.setPc (s.pc + 1)).requestFault illegalInstruction) := by
  have hop : s.params.opcodeMap.mnemonicOf (s.lookahead 0) = none := by rw [s.lookahead_eq 0 hpc]; exact h
  rw [nextInstr, fetch_ok hpc, Res.ok_andThen]; simp only [decodeFrom_unmapped hop, raise_eq]

/-- The default opcodes are the bytes from 0 to 27 (R61). -/
theorem default_opcodes : OpcodeMap.default.map Prod.fst = (List.range 28).map (BitVec.ofNat 8) := by decide

theorem mem_default_opcodes (b : Byte) : b ∈ OpcodeMap.default.map Prod.fst ↔ b.toNat < 28 := by
  rw [default_opcodes, List.mem_map]
  constructor
  · rintro ⟨n, hn, rfl⟩
    have hn := List.mem_range.mp hn
    rw [BitVec.toNat_ofNat]; omega
  · exact fun h => ⟨b.toNat, List.mem_range.mpr h, (BitVec.ofNat_toNat 8 b).trans b.setWidth_eq⟩

/-- Settles O7. -/
theorem unmappedOpcodeIsIllegal : Obligations.UnmappedOpcodeIsIllegal := by
  refine ⟨fun s hic hpc hun => ?step, fun b => ?image⟩
  case step =>
    rw [step_of_raised hic (nextInstr_of_unmapped hpc ((mnemonicOf_eq_none _ _).mpr hun)), requestFault_setPc hic]
    rfl
  case image => rw [mem_default_opcodes, Nat.not_lt, BitVec.le_def]; rfl

end Sys2Proof.Machine
end

section
/-! PROOFS. REG, and a step of ARR from the bytes in the program (R86, R117, R125, R126, R133). -/

namespace Sys2Proof.Machine

/-! ### REG -/

section
variable {s : State} {sel : Byte}

/-- Two Fetches of bytes that the program holds, and then the rest. -/
theorem run_fetch_fetch (hp : s.pc.toNat + 2 ≤ s.progLen.toNat) (k : Byte → State → Script) :
    (Script.op fetch fun _ _ => .op fetch k).run s =
      (k (s.progByte (s.pc.toNat + 1)) (s.setPc (s.pc + 2))).run (s.setPc (s.pc + 2)) := by
  have hpc : (s.pc + 1).toNat = s.pc.toNat + 1 := pc_add_toNat (n := 1) (by omega)
  have htwo : (s.setPc (s.pc + 1)).setPc (s.pc + 1 + 1) = s.setPc (s.pc + 2) := setPc_setPc s 1
  rw [Script.run_op, fetch_ok (by omega), Res.ok_andThen, Script.run_op,
    fetch_ok (by rw [State.setPc_pc, State.setPc_progLen]; omega), Res.ok_andThen, State.setPc_pc, htwo, hpc]
  rfl

/-- A selector that names a register: REG is a push of its value past both bytes (R117). -/
theorem exec_reg_named {r : ControlReg} (hp : s.pc.toNat + 2 ≤ s.progLen.toNat)
    (h : s.params.regSelMap.regOf sel = some r) :
    exec (.reg sel) s = (push (u2w ((s.setPc (s.pc + 2)).controlReg r)) (s.setPc (s.pc + 2))).outcome := by
  rw [exec_eq_scriptOf, scriptOf, scriptReg, Script.exec, run_fetch_fetch hp]
  simp only [h, Script.run_lastly, Res.andThen_ok]

/-- Another selector: REG raises illegal instruction past both bytes (R117). -/
theorem exec_reg_unnamed (hp : s.pc.toNat + 2 ≤ s.progLen.toNat) (h : s.params.regSelMap.regOf sel = none) :
    exec (.reg sel) s = .next ((s.setPc (s.pc + 2)).requestFault illegalInstruction) := by
  rw [exec_eq_scriptOf, scriptOf, scriptReg, Script.exec, run_fetch_fetch hp]
  simp only [h, Script.run_lastly, raise_eq, Res.raised_andThen, Res.raised_outcome]

/-- The value that REG pushes: IC is 0 in a Running state, PC is past the selector byte, SP is as before (R117). -/
theorem controlReg_after_fetches (hic : s.ic = 0) (hp : s.pc.toNat + 2 ≤ s.progLen.toNat) (r : ControlReg) :
    (s.setPc (s.pc + 2)).controlReg r =
      (match r with | .ic => 0 | .pc => s.pc.toNat + 2 | .sp => s.sp.toNat) := by
  cases r with
  | ic => exact congrArg BitVec.toNat hic
  | pc => exact pc_add_toNat hp
  | sp => rfl

/-- A control register is an integer that a word holds exactly (R106). -/
theorem controlReg_le (s : State) (r : ControlReg) : s.controlReg r ≤ 2 ^ 53 := by
  have hic := s.ic.isLt
  have hpc := s.pc.isLt
  have hsp := s.sp.isLt
  cases r <;> simp only [State.controlReg] <;> omega

end

/-- The default selectors (R63). -/
theorem default_regOf (sel : Byte) :
    (RegSelMap.default.regOf sel = some .ic ↔ sel = 0) ∧ (RegSelMap.default.regOf sel = some .pc ↔ sel = 1) ∧
    (RegSelMap.default.regOf sel = some .sp ↔ sel = 2) ∧ (RegSelMap.default.regOf sel = none ↔ 3 ≤ sel) := by
  have hrest : 3 ≤ sel ↔ sel ≠ 0 ∧ sel ≠ 1 ∧ sel ≠ 2 := by bv_omega
  rw [hrest, RegSelMap.regOf, RegSelMap.default]
  by_cases h0 : sel = 0#8
  · simp [h0]
  by_cases h1 : sel = 1#8
  · simp [h1]
  by_cases h2 : sel = 2#8
  · simp [h2]
  · simp [h0, h1, h2]

/-- Settles O45. -/
theorem regPushesTheSelectedRegister : Obligations.RegPushesTheSelectedRegister := by
  refine ⟨fun s sel ⟨hic, hp, _⟩ => ⟨fun r x hsel hx => ?named, fun hsel => ?unnamed⟩, default_regOf⟩
  case named =>
    have hval : (s.setPc (s.pc + 2)).controlReg r = x := (controlReg_after_fetches hic hp r).trans hx.symm
    have hexact := u2w_exact (controlReg_le (s.setPc (s.pc + 2)) r)
    rw [exec_reg_named hp hsel]
    rw [hval] at hexact ⊢
    refine ⟨fun hroom => ?pushed, fun hfull => ?full⟩
    case pushed =>
      rw [push_ok (s := s.setPc (s.pc + 2)) hroom, Res.ok_outcome]
      exact ⟨_, rfl, ⟨pc_add_toNat hp, sp_succ_toNat hroom, hic, keepsHostSide_refl s⟩, by simp, hexact,
        fun i hi => by simp [hi]⟩
    case full => rw [push_full (s := s.setPc (s.pc + 2)) hfull, Res.raised_outcome, requestFault_setPc hic]; rfl
  case unnamed => rw [exec_reg_unnamed hp hsel, requestFault_setPc hic]; rfl

/-! ### ARR in the program -/

theorem KeepsHostSide.progLen_eq {s t : State} (h : KeepsHostSide s t) : t.progLen = s.progLen := by
  obtain ⟨-, -, hlen, -⟩ := h
  exact hlen

theorem KeepsHostSide.stackCap_eq {s t : State} (h : KeepsHostSide s t) : t.stackCap = s.stackCap := by
  obtain ⟨-, -, -, hcap, -⟩ := h
  exact hcap

section
variable {s : State} {w : Byte} {groups : List (List Byte)} {k : Nat}

/-- ARR, up to the groups from `k` on, where the first `k` are in the program and fit on the stack (R86). -/
theorem run_scriptArr_drop (hlen : ∀ g ∈ groups, g.length = w.toNat) (hk : k ≤ groups.length)
    (hp : s.pc.toNat + 3 + k * w.toNat ≤ s.progLen.toNat) (hcap : s.sp.toNat + k ≤ s.stackCap.toNat) :
    ∃ u, (scriptArr s.params w groups).run s = (pushGroups s.params.numConv (groups.drop k)).run u ∧
      Leaves s u (s.pc.toNat + 3 + k * w.toNat) (s.sp.toNat + k) s.ic ∧
      (∀ j, j < k → ∀ h : j < groups.length,
        u.written (s.sp.toNat + j) = some (i2w s.params.numConv groups[j])) ∧
      KeepsSlots s u (fun i => s.sp.toNat ≤ i ∧ i < s.sp.toNat + k) := by
  have hpc : (s.pc + BitVec.ofNat 32 3).toNat = s.pc.toNat + 3 := pc_add_toNat (by omega)
  have htake : (groups.take k).length = k := List.length_take_of_le hk
  obtain ⟨u, hu, ⟨hupc, husp, huic, hhost⟩, hwritten, hkeeps⟩ := pushGroups_ok s.params.numConv w.toNat
    (groups.take k) (s.setPc (s.pc + BitVec.ofNat 32 3)) (fun g hg => hlen g (List.mem_of_mem_take hg))
    (by rw [htake, State.setPc_pc, hpc, Nat.mul_comm]; exact hp) (by rw [htake]; exact hcap)
  rw [State.setPc_pc, hpc, htake, Nat.mul_comm] at hupc
  rw [htake] at husp hkeeps
  refine ⟨u, ?_, ⟨hupc, husp, huic, hhost⟩, fun j hj _ => ?_, hkeeps⟩
  · rw [scriptArr, fetches_ok (by omega)]
    conv_lhs => rw [← List.take_append_drop k groups]
    rw [pushGroups_append, hu, Res.ok_andThen]
  · rw [← List.getElem_take]
    exact hwritten j (by rw [htake]; exact hj)

/-- The loop where the program ends inside the next group (R125). -/
theorem run_pushGroups_cut {conv : NumConv} {g : List Byte} {gs : List (List Byte)}
    (hpc : s.pc.toNat ≤ s.progLen.toNat) (hcut : s.progLen.toNat < s.pc.toNat + g.length) :
    (pushGroups conv (g :: gs)).run s = .raised ((s.setPc s.progLen).requestFault endOfProgram) :=
  fetches_end hpc hcut _

/-- The loop where the stack is full and the program holds the next group (R126). -/
theorem run_pushGroups_full {conv : NumConv} {g : List Byte} {gs : List (List Byte)}
    (hp : s.pc.toNat + g.length ≤ s.progLen.toNat) (hfull : s.sp = s.stackCap) :
    (pushGroups conv (g :: gs)).run s =
      .raised ((s.setPc (s.pc + BitVec.ofNat 32 g.length)).requestFault stackOverflow) := by
  rw [pushGroups, fetches_ok hp, Script.run_op, push_full (s := s.setPc (s.pc + BitVec.ofNat 32 g.length)) hfull,
    Res.raised_andThen]

end

/-- The groups that the decoder sees after an ARR opcode at PC, the bytes beyond the program included. -/
def State.arrGroups (s : State) : List (List Byte) :=
  (List.range (s.lookahead 2).toNat).map fun j =>
    bytesFrom s.lookahead (3 + j * (s.lookahead 1).toNat) (s.lookahead 1).toNat

section
variable {s : State}

theorem State.length_arrGroups : s.arrGroups.length = (s.lookahead 2).toNat := by simp [State.arrGroups]

theorem State.length_of_mem_arrGroups : ∀ g ∈ s.arrGroups, g.length = (s.lookahead 1).toNat := by
  simp [State.arrGroups, bytesFrom_length]

/-- A group that the program holds whole is read from the program. -/
theorem State.getElem_arrGroups {j w : Nat} (h : j < s.arrGroups.length) (hw : (s.lookahead 1).toNat = w)
    (hp : s.pc.toNat + 3 + (j + 1) * w ≤ s.progLen.toNat) :
    s.arrGroups[j] = bytesFrom s.progByte (s.pc.toNat + 3 + j * w) w := by
  subst hw
  rw [Nat.succ_mul] at hp
  simp only [State.arrGroups, List.getElem_map, List.getElem_range]
  exact bytesFrom_congr fun i hi => by rw [s.lookahead_eq _ (by omega)]; congr 1; omega

section
variable (hic : s.ic = 0) (hpc : s.pc.toNat < s.progLen.toNat)
  (hop : s.params.opcodeMap.mnemonicOf (s.progByte s.pc.toNat) = some .arr)
include hic hpc hop

/-- A step at an ARR opcode runs ARR on those groups. -/
theorem step_of_arr : step s = ((scriptArr s.params (s.lookahead 1) s.arrGroups).run s).outcome := by
  have hdec := decodeFrom_arr s.params.opcodeMap s.lookahead (by rw [s.lookahead_eq 0 hpc]; exact hop)
  rw [step_of_decoded hic (nextInstr_of_decoded hpc hdec)]; rfl

/-- Such a step, up to the groups from `k` on. -/
theorem step_of_arr_drop {w k : Nat} (hw : (s.lookahead 1).toNat = w) (hk : k ≤ s.arrGroups.length)
    (hp : s.pc.toNat + 3 + k * w ≤ s.progLen.toNat) (hcap : s.sp.toNat + k ≤ s.stackCap.toNat) :
    ∃ u, step s = ((pushGroups s.params.numConv (s.arrGroups.drop k)).run u).outcome ∧
      Leaves s u (s.pc.toNat + 3 + k * w) (s.sp.toNat + k) 0 ∧ StoresGroups s u (s.pc.toNat + 3) w k := by
  subst hw
  obtain ⟨u, hu, hleaves, hwritten, hkeeps⟩ := run_scriptArr_drop s.length_of_mem_arrGroups hk hp hcap
  rw [hic] at hleaves
  refine ⟨u, by rw [step_of_arr hic hpc hop, hu], hleaves, fun j hj => ?_, hkeeps⟩
  have hle : (j + 1) * (s.lookahead 1).toNat ≤ k * (s.lookahead 1).toNat := Nat.mul_le_mul_right _ hj
  rw [hwritten j hj (by omega), State.getElem_arrGroups (by omega) rfl (by omega)]

end

end

/-- Settles O56: the loop reaches group `k`, and then it is complete, or that group is cut, or the stack is full. -/
theorem stepOfArr : Obligations.StepOfArr := by
  intro s hic hpc hsp hop
  have hpc : s.pc.toNat < s.progLen.toNat := hpc
  refine ⟨fun hcut => ?control, fun w c k hp hcap hw hc => ?groups⟩
  case control =>
    rw [step_of_arr hic hpc hop, scriptArr, fetches_end hpc.le hcut, Res.raised_outcome, requestFault_setPc hic]; rfl
  case groups =>
    have hw : (s.lookahead 1).toNat = w := by rw [s.lookahead_eq 1 (by omega), hw]
    have hc : s.arrGroups.length = c := by rw [State.length_arrGroups, s.lookahead_eq 2 (by omega), hc]
    have hreach (hk : k ≤ c) := step_of_arr_drop hic hpc hop hw (hk.trans hc.ge) hp hcap
    have hnext (hk : k < c) : ∃ g rest, s.arrGroups.drop k = g :: rest ∧ g.length = w :=
      ⟨_, _, List.drop_eq_getElem_cons (hk.trans_eq hc.symm), by
        rw [← hw]; exact s.length_of_mem_arrGroups _ (List.getElem_mem _)⟩
    rw [Nat.succ_mul]
    refine ⟨fun hk => ?complete, fun hk hcut => ?cut, fun hk hroom hfull => ?full⟩
    case complete =>
      obtain ⟨u, hu, hleaves, hstores⟩ := hreach hk.le
      rw [List.drop_of_length_le (by omega), pushGroups, Script.run_done, Res.ok_outcome] at hu
      exact ⟨u, hu, hleaves, hstores⟩
    case cut =>
      obtain ⟨u, hu, ⟨hupc, husp, huic, hhost⟩, hstores⟩ := hreach hk.le
      obtain ⟨g, rest, hdrop, hg⟩ := hnext hk
      have hulen := hhost.progLen_eq
      rw [hdrop, run_pushGroups_cut (by rw [hulen, hupc]; exact hp) (by rw [hulen, hupc, hg]; omega),
        Res.raised_outcome, requestFault_setPc huic, hulen] at hu
      exact ⟨_, hu, ⟨rfl, husp, rfl, hhost⟩, hstores⟩
    case full =>
      obtain ⟨u, hu, ⟨hupc, husp, huic, hhost⟩, hstores⟩ := hreach hk.le
      obtain ⟨g, rest, hdrop, hg⟩ := hnext hk
      have hulen := hhost.progLen_eq
      have hucap := hhost.stackCap_eq
      have hup : u.pc.toNat + w ≤ u.progLen.toNat := by rw [hulen, hupc]; omega
      rw [hdrop, run_pushGroups_full (by rw [hg]; exact hup) (BitVec.eq_of_toNat_eq (by rw [husp, hfull, hucap])), hg,
        Res.raised_outcome, requestFault_setPc huic] at hu
      exact ⟨_, hu, ⟨(pc_add_toNat hup).trans (by omega), husp.trans hfull, rfl, hhost⟩, hstores⟩

end Sys2Proof.Machine
end

section
/-! PROOFS. Runs (R72, R73), NOP and INT (R83, R84), and the literals NUM and ARR with room on the stack and, for NUM,
without it (R85, R86). -/

namespace Sys2Proof.Machine

/-! ### Runs -/

section
variable {s t : State}

/-- A run of a Halted machine does nothing (R73). -/
theorem runSteps_of_halted (hic : s.ic ≠ 0) (n : Nat) : runSteps n s = .next s := by
  cases n with
  | zero => rfl
  | succ n => exact if_pos hic

/-- A run of a Running machine is a step and then the rest of the run (R72). -/
theorem runSteps_succ_of_next (hic : s.ic = 0) (h : step s = .next t) (n : Nat) :
    runSteps (n + 1) s = runSteps n t := by simp [runSteps, hic, h]

theorem runSteps_one (hic : s.ic = 0) : runSteps 1 s = step s := by
  simp only [runSteps, hic, ne_eq, not_true_eq_false, if_false]
  cases step s <;> rfl

/-- The first step of a run that reaches a next state. -/
theorem runSteps_succ_inv {n : Nat} (hic : s.ic = 0) (h : runSteps (n + 1) s = .next t) :
    ∃ u, step s = .next u ∧ runSteps n u = .next t := by
  cases hstep : step s with
  | next u => exact ⟨u, rfl, by rwa [runSteps_succ_of_next hic hstep] at h⟩
  | fault f => simp [runSteps, hic, hstep] at h
  | refused r => simp [runSteps, hic, hstep] at h

/-- A run in two parts (R72). -/
theorem runSteps_add (n m : Nat) (h : runSteps n s = .next t) : runSteps (n + m) s = runSteps m t := by
  induction n generalizing s with
  | zero => cases h; rw [Nat.zero_add]
  | succ n ih =>
    by_cases hic : s.ic = 0
    · obtain ⟨u, hstep, hrest⟩ := runSteps_succ_inv hic h
      rw [Nat.succ_add, runSteps_succ_of_next hic hstep, ih hrest]
    · rw [runSteps_of_halted hic] at h
      cases h
      rw [runSteps_of_halted hic, runSteps_of_halted hic]

end

/-- Settles O10. -/
theorem haltedMachineChangesNothing : Obligations.HaltedMachineChangesNothing := fun _ hic =>
  ⟨step_of_halted hic, runSteps_of_halted hic⟩

/-- Settles O11. -/
theorem runRepeatsStepUntilHalted : Obligations.RunRepeatsStepUntilHalted :=
  ⟨fun _ hic => runSteps_one hic, fun n m _ _ h =>
    ⟨runSteps_add n m h, fun hic => (runSteps_add n m h).trans (runSteps_of_halted hic m)⟩⟩

/-! ### NOP and INT -/

/-- Settles O13. -/
theorem nopOnlyAdvancesPc : Obligations.NopOnlyAdvancesPc := by
  intro s hr
  obtain ⟨-, hp, -⟩ := hr
  rw [exec_eq_scriptOf, scriptOf, scriptNop, Script.exec, fetches_ok hp, Script.run_done, Res.ok_outcome]; rfl

/-- INT is two Fetches and a write of IC (R84). -/
theorem exec_int {s : State} (hp : s.pc.toNat + 2 ≤ s.progLen.toNat) (v : Byte) :
    exec (.int v) s = .next ((s.setPc (s.pc + 2)).setIc (v.setWidth 16)) := by
  rw [exec_eq_scriptOf, scriptOf, scriptInt, Script.exec, fetches_ok hp, Script.run_lastly, Res.ok_andThen,
    Res.ok_outcome]
  rfl

/-- Zero-extending a byte keeps its number. -/
theorem setWidth_byte_toNat (v : Byte) : (v.setWidth 16).toNat = v.toNat := by
  have := v.isLt
  rw [BitVec.toNat_setWidth, Nat.mod_eq_of_lt (by omega)]

/-- Settles O14. -/
theorem intWritesItsOperand : Obligations.IntWritesItsOperand := by
  intro s v hr
  obtain ⟨-, hp, -⟩ := hr
  have hval := setWidth_byte_toNat v
  have hzero : v.setWidth 16 = 0 ↔ v = 0 := by
    rw [← BitVec.toNat_inj, ← BitVec.toNat_inj, hval]; rfl
  refine ⟨_, exec_int hp v, rfl, ?halted, hval⟩
  case halted => rw [State.halted, State.setIc_ic, bne_iff_ne, ne_eq, hzero]

/-! ### One push, and the literals -/

/-- A Push onto a stack that has room, after operations that have stored nothing. -/
theorem push_after {s u : State} {pc sp : Nat} {ic : BitVec 16} (hl : Leaves s u pc sp ic)
    (hstk : ∀ i, u.written i = s.written i) (hroom : sp < s.stackCap.toNat) (v : Word) :
    ∃ t, push v u = .ok () t ∧ Leaves s t pc (sp + 1) ic ∧ t.written sp = some v ∧ KeepsSlots s t (· = sp) := by
  obtain ⟨hpc, hsp, hic, hhost⟩ := hl
  have hroom : u.sp.toNat < u.stackCap.toNat := by rw [hsp, hhost.stackCap_eq]; exact hroom
  refine ⟨_, push_ok hroom, ⟨hpc, (sp_succ_toNat hroom).trans (by rw [hsp]), hic, hhost⟩, ?_, fun i hi => ?_⟩
  · rw [State.setSp_written, State.setSlot_written, if_pos hsp.symm]
  · rw [State.setSp_written, State.setSlot_written, hsp, if_neg hi, hstk]

/-- The registers after `n` Fetches of bytes that the program holds. -/
theorem leaves_fetched {s : State} {n : Nat} (hr : s.Ready n) :
    Leaves s (s.setPc (s.pc + BitVec.ofNat 32 n)) (s.pc.toNat + n) s.sp.toNat 0 := by
  obtain ⟨hic, hp, -⟩ := hr
  exact ⟨pc_add_toNat hp, rfl, hic, keepsHostSide_refl s⟩

/-- NUM is the Fetches of its bytes and a Push of their word (R85). -/
theorem exec_num {s : State} {ds : List Byte} (hp : s.pc.toNat + (2 + ds.length) ≤ s.progLen.toNat) :
    exec (.num ds) s =
      (push (i2w s.params.numConv ds) (s.setPc (s.pc + BitVec.ofNat 32 (2 + ds.length)))).outcome := by
  rw [exec_eq_scriptOf, scriptOf, scriptNum, Script.exec, fetches_ok hp, Script.run_lastly, Res.andThen_ok]

/-- Settles O15. -/
theorem numPushesItsLiteral : Obligations.NumPushesItsLiteral := by
  intro s ds _ hr
  have hleaves := leaves_fetched hr
  obtain ⟨hic, hp, -⟩ := hr
  rw [exec_num hp]
  refine ⟨fun hroom => ?pushed, fun hfull => ?full⟩
  case pushed =>
    obtain ⟨t, ht, hpushed⟩ := push_after hleaves (fun _ => rfl) hroom (i2w s.params.numConv ds)
    exact ⟨t, by rw [ht, Res.ok_outcome], hpushed⟩
  case full =>
    rw [push_full (s := s.setPc (s.pc + BitVec.ofNat 32 (2 + ds.length))) hfull, Res.raised_outcome,
      requestFault_setPc hic]
    rfl

/-- Settles O16: the loop of R86 reaches the end of its groups. -/
theorem arrPushesItsGroups : Obligations.ArrPushesItsGroups := by
  intro s w groups hwf hr hcap
  obtain ⟨-, hlen⟩ := wf_arr.mp hwf
  obtain ⟨hic, hp, -⟩ := hr
  rw [Nat.mul_comm, ← Nat.add_assoc] at hp ⊢
  obtain ⟨t, hrun, hleaves, hwritten, hkeeps⟩ := run_scriptArr_drop hlen le_rfl hp hcap
  rw [List.drop_length, pushGroups, Script.run_done] at hrun
  rw [hic] at hleaves
  exact ⟨t, by rw [exec_eq_scriptOf, scriptOf, Script.exec, hrun, Res.ok_outcome], hleaves,
    fun k hk => hwritten k hk hk, hkeeps⟩

end Sys2Proof.Machine
end

section
/-! PROOFS. The conversions between bytes, integers and words (R76 to R79). -/

namespace Sys2Proof.Machine

/-! ### BE (R78) -/

/-- Settles O19, by induction on the bytes from the last one: it has weight 1, and the weights of the bytes before it
are 256 times what they are without it. -/
theorem bigEndianIsTheByteSum : Obligations.BigEndianIsTheByteSum := by
  intro bs
  induction bs using List.reverseRecOn with
  | nil => rfl
  | append_singleton bs b ih =>
    have hlast : (bs ++ [b]).getD bs.length 0 = b := by simp
    rw [be_append, ih, List.length_append, List.length_singleton, Finset.sum_range_succ, hlast, Finset.sum_mul,
      Nat.add_sub_cancel, Nat.sub_self, pow_zero, mul_one]
    congr 1
    refine Finset.sum_congr rfl fun j hj => ?_
    have hj : j < bs.length := Finset.mem_range.mp hj
    rw [List.getD_append _ _ _ _ hj, mul_assoc, ← pow_succ]
    congr 2
    omega

/-! ### U2W (R77) -/

theorem ofWord_u2w (u : Nat) : Fp.ofWord (u2w u) = Fp.round false u 1 := ofWord_toWord_round 0 false u 1 Nat.one_pos

theorem isNearest_u2w (u : Nat) : IsNearest (u * unitsPerOne : Nat) 1 (Fp.ofWord (u2w u)) := by
  rw [ofWord_u2w]; exact isNearest_round false u Nat.one_pos

/-- An integer is at or beyond the overflow threshold exactly when its units are. -/
theorem threshold_le_units (u : Nat) :
    (2 ^ 1024 - 2 ^ 970) * unitsPerOne * 1 ≤ u * unitsPerOne ↔ 2 ^ 1024 - 2 ^ 970 ≤ u := by
  rw [Nat.mul_one]; exact Nat.mul_le_mul_right_iff unitsPerOne_pos

/-- The nearest word to an integer is +inf exactly from 2^1024 - 2^970 on. -/
theorem u2w_overflow_iff (u : Nat) : Fp.ofWord (u2w u) = .inf false ↔ 2 ^ 1024 - 2 ^ 970 ≤ u := by
  have hnear := isNearest_u2w u
  rw [ofWord_u2w] at hnear ⊢
  rcases round_sign false u Nat.one_pos with h | ⟨v, h⟩ <;> rw [h] at hnear ⊢
  · obtain ⟨-, hle⟩ := hnear
    exact iff_of_true rfl ((threshold_le_units u).mp hle)
  · obtain ⟨hlt, -⟩ := hnear
    exact iff_of_false nofun fun hle => hlt.not_ge ((threshold_le_units u).mpr hle)

/-- Below 2^64 that word is finite, with a clear sign. -/
theorem u2w_finite {u : Nat} (h : u < 2 ^ 64) : ∃ v, Fp.ofWord (u2w u) = .fin false v := by
  have hpow : 2 ^ 64 ≤ 2 ^ 1024 - 2 ^ 970 := by decide +kernel
  have hne := mt (u2w_overflow_iff u).mp (h.trans_le hpow).not_ge
  rw [ofWord_u2w] at hne ⊢
  exact (round_sign false u Nat.one_pos).resolve_left hne

/-! ### ToU (R76) -/

section
variable {x : Word} {s : Bool} {u : Nat} (bw : BitWidth)

theorem toU_nan (h : Word.IsNaN x) : toU bw x = 0 := by rw [toU, (isNaN_iff x).mp h]

theorem toU_inf (h : Fp.ofWord x = .inf s) : toU bw x = 0 := by rw [toU, h]

theorem pow_bits_pos : 0 < 2 ^ bits bw := Nat.two_pow_pos _

/-- A finite word converts to its integer part modulo 2^W. -/
theorem toU_fin (h : Fp.ofWord x = .fin s u) :
    (toU bw x : Int) = signed s (u / unitsPerOne) % (2 ^ bits bw : Nat) := by
  have hpos : ((2 ^ bits bw : Nat) : Int) ≠ 0 := by exact_mod_cast (pow_bits_pos bw).ne'
  rw [toU, h]
  exact Int.toNat_of_nonneg (Int.emod_nonneg _ hpos)

theorem toU_lt (x : Word) : toU bw x < 2 ^ bits bw := by
  cases h : Fp.ofWord x with
  | nan => rw [toU_nan bw ((isNaN_iff x).mpr h)]; exact pow_bits_pos bw
  | inf s => rw [toU_inf bw h]; exact pow_bits_pos bw
  | fin s u =>
    have hlt := Int.emod_lt_of_pos (signed s (u / unitsPerOne)) (Int.natCast_pos.mpr (pow_bits_pos bw))
    rw [← toU_fin bw h] at hlt
    exact Int.ofNat_lt.mp hlt

/-- ToU inverts U2W on the integers of W bits that a word holds exactly. -/
theorem toU_u2w {n : Nat} (h : n ≤ 2 ^ 53) (hw : n < 2 ^ bits bw) : toU bw (u2w n) = n := by
  have hval := toU_fin bw (u2w_exact h)
  rw [Nat.mul_div_cancel _ unitsPerOne_pos, signed_false] at hval
  exact Int.ofNat_inj.mp (hval.trans (Int.emod_eq_of_lt (Int.natCast_nonneg n) (Int.ofNat_lt.mpr hw)))

end

/-- Settles O43: the integer is the word's truncated magnitude with the word's sign. -/
theorem toUTruncatesAndWraps : Obligations.ToUTruncatesAndWraps := by
  refine fun bw x => ⟨toU_nan bw, fun _ => toU_inf bw, toU_lt bw x, fun s u h => ?finite⟩
  case finite =>
    refine ⟨signed s (u / unitsPerOne), ?_, ?_, ?_, ?_, toU_fin bw h⟩
    · rw [natAbs_signed]; exact Nat.div_mul_le_self _ _
    · rw [natAbs_signed]; exact (Nat.div_lt_iff_lt_mul unitsPerOne_pos).mp (Nat.lt_succ_self _)
    · rintro rfl; exact Int.neg_nonpos_of_nonneg (Int.natCast_nonneg _)
    · rintro rfl; exact Int.natCast_nonneg _

/-- Settles O44. -/
theorem u2wIsNearestAndExactFor32Bits : Obligations.U2WIsNearestAndExactFor32Bits := by
  refine ⟨fun u hu => ?exact, fun u hu => ⟨u2w_finite hu, isNearest_u2w u⟩⟩
  case exact =>
    have hle : u ≤ 2 ^ 53 := by omega
    exact ⟨u2w_exact hle, toU_u2w .w32 hle hu⟩

/-! ### I2W (R79) -/

/-- Under `round_once` the bytes convert as their integer does. -/
theorem i2w_roundOnce (bs : List Byte) : i2w .roundOnce bs = u2w (be bs) := rfl

theorem i2w_accumulate (bs : List Byte) : i2w .accumulate bs = (accumulate bs).toWord 0 := rfl

/-- A value with a clear sign is read back from its word, whatever QNAN is. -/
theorem Fp.NonNeg.ofWord_toWord {q : Word} {f : Fp} (h : Fp.NonNeg f) : Fp.ofWord (f.toWord q) = f := by
  cases f with
  | nan => exact h.elim
  | inf s => exact ofWord_toWord_inf q s
  | fin s u => exact ofWord_toWord_fin q s h.2

/-- QNAN plays no part in the word of such a value. -/
theorem Fp.NonNeg.toWord_q {f : Fp} (h : Fp.NonNeg f) (q q' : Word) : f.toWord q = f.toWord q' := by
  cases f with
  | nan => exact h.elim
  | inf s => rfl
  | fin s u => rfl

theorem accumulate_nonNeg (bs : List Byte) : Fp.NonNeg (accumulate bs) :=
  nonNeg_accumulate bs _ ⟨rfl, representable_zero⟩

theorem accumulate_append (bs : List Byte) (b : Byte) :
    accumulate (bs ++ [b]) = Fp.add (Fp.mul (accumulate bs) (.fin false (256 * unitsPerOne))) (Fp.ofByte b) := by
  simp only [accumulate, List.foldl_append, List.foldl_cons, List.foldl_nil]

/-- The word of a natural number that a word holds exactly. -/
theorem ofWord_intWord_nat {n : Nat} (h : n ≤ 2 ^ 53) : Fp.ofWord (intWord n) = .fin false (n * unitsPerOne) := by
  rw [ofWord_intWord (by omega), decide_eq_false (by omega), Int.natAbs_natCast]

/-- One more byte: the words of `accumulate` go through MUL and ADD as its values do, because none of them is a NaN. -/
theorem i2w_accumulate_append (q : Word) (bs : List Byte) (b : Byte) :
    i2w .accumulate (bs ++ [b]) =
      onWords Fp.add q (onWords Fp.mul q (i2w .accumulate bs) (intWord 256)) (intWord b.toNat) := by
  have hmul : Fp.NonNeg (Fp.mul (accumulate bs) (.fin false (256 * unitsPerOne))) :=
    nonNeg_mul _ _ (by have := unitsPerOne_pos; omega) (accumulate_nonNeg bs)
  have hword : onWords Fp.mul q (i2w .accumulate bs) (intWord 256) =
      (Fp.mul (accumulate bs) (.fin false (256 * unitsPerOne))).toWord q := by
    rw [onWords, ← Nat.cast_ofNat, ofWord_intWord_nat (by omega), i2w_accumulate, (accumulate_nonNeg bs).ofWord_toWord]
  have hb := b.isLt
  rw [onWords, hword, hmul.ofWord_toWord, ofWord_intWord_nat (by omega), ← Fp.ofByte, ← accumulate_append]
  exact (accumulate_nonNeg _).toWord_q 0 q

/-- Below 2^53 the two settings agree (R79). -/
theorem i2w_accumulate_eq (bs : List Byte) (h : be bs ≤ 2 ^ 53) : i2w .accumulate bs = i2w .roundOnce bs := by
  rw [i2w_accumulate, accumulate_exact bs h, i2w_roundOnce, u2w,
    round_exact false (be bs) 1 _ Nat.one_pos (representable_int h) (Nat.mul_one _).symm]

/-- Settles O20. -/
theorem numConvRoundsOnceOrAtEachByte : Obligations.NumConvRoundsOnceOrAtEachByte := fun bs =>
  ⟨isNearest_u2w (be bs), u2w_overflow_iff (be bs), rfl, fun q b => i2w_accumulate_append q bs b,
    fun h => ⟨i2w_accumulate_eq bs h.le, u2w_exact h.le⟩⟩

end Sys2Proof.Machine
end

section
/-! PROOFS. INC and DEC (R89, R90) and the bitwise instructions (R111 to R116). -/

namespace Sys2Proof.Machine

/-! ### The loops that do not come to their end -/

section
variable {s : State} {n : Nat}

/-- Zeros that do not fit fill the stack, and then the next Push raises stack overflow (R89, R126). -/
theorem pushZeros_full (hcap : s.sp.toNat ≤ s.stackCap.toNat) (h : s.stackCap.toNat - s.sp.toNat < n) :
    ∃ t, (pushZeros n).run s = .raised (t.requestFault stackOverflow) ∧
      Leaves s t s.pc.toNat s.stackCap.toNat s.ic ∧
      (∀ i, s.sp.toNat ≤ i → i < s.stackCap.toNat → t.written i = some plusZero) ∧
      KeepsSlots s t (fun i => s.sp.toNat ≤ i ∧ i < s.stackCap.toNat) := by
  obtain ⟨k, rfl⟩ : ∃ k, n = s.stackCap.toNat - s.sp.toNat + (k + 1) :=
    ⟨n - (s.stackCap.toNat - s.sp.toNat) - 1, by omega⟩
  obtain ⟨t, hrun, hleaves, hzeros, hkeeps⟩ := pushZeros_ok (s.stackCap.toNat - s.sp.toNat) s (by omega)
  rw [Nat.add_sub_cancel' hcap] at hleaves hzeros hkeeps
  have ⟨_, hsp, _, hhost⟩ := hleaves
  have hfull : t.sp = t.stackCap := BitVec.eq_of_toNat_eq (by rw [hsp, hhost.stackCap_eq])
  refine ⟨t, ?_, hleaves, hzeros, hkeeps⟩
  rw [pushZeros_add, hrun, Res.ok_andThen, pushZeros, Script.run_op, push_full hfull, Res.raised_andThen]

/-- More pops than there are words empty the stack, and then the next Pop raises stack underflow (R90, R127). -/
theorem popMany_empty (hcap : s.sp.toNat ≤ s.stackCap.toNat) (h : s.sp.toNat < n) :
    (popMany n).run s = .raised ((s.setSp 0).requestFault stackUnderflow) := by
  obtain ⟨k, rfl⟩ : ∃ k, n = s.sp.toNat + (k + 1) := ⟨n - s.sp.toNat - 1, by omega⟩
  rw [popMany_add, popMany_ok _ _ le_rfl hcap, Nat.sub_self, Res.ok_andThen, popMany, Script.run_op, pop_empty rfl,
    Res.raised_andThen]
  rfl

end

/-! ### INC and DEC -/

/-- Settles O24. -/
theorem incPushesZeros : Obligations.IncPushesZeros := by
  intro s hr h1
  have hcap := hr.sp_le
  obtain ⟨hpc, hsp, hic, -⟩ := leaves_popped hr h1
  generalize hn : toU s.params.bitw (s.slot (s.sp.toNat - 1)) = n
  have hexec : exec .inc s = ((pushZeros n).run (s.popped 1)).outcome := by
    rw [exec_eq_scriptOf, scriptOf, scriptInc, Script.exec, run_fetch_pop hr h1, hn]
  refine ⟨fun hfit => ?pushed, fun hover => ?full⟩
  case pushed =>
    obtain ⟨t, hrun, hleaves, hzeros⟩ :=
      pushZeros_ok n (s.popped 1) (by rw [hsp, State.popped_stackCap]; omega)
    rw [hpc, hsp, hic] at hleaves
    rw [hsp] at hzeros
    exact ⟨t, by rw [hexec, hrun, Res.ok_outcome], hleaves, hzeros⟩
  case full =>
    obtain ⟨t, hrun, ⟨htpc, htsp, htic, hhost⟩, hzeros⟩ := pushZeros_full (s := s.popped 1) (n := n)
      (by rw [hsp, State.popped_stackCap]; omega) (by rw [hsp, State.popped_stackCap]; exact hover)
    rw [hsp] at hzeros
    rw [hexec, hrun, Res.raised_outcome, t.requestFault_running _ (htic.trans hic)]
    exact ⟨_, rfl, ⟨htpc.trans hpc, htsp, rfl, hhost⟩, hzeros⟩

/-- Settles O25. -/
theorem decPopsWords : Obligations.DecPopsWords := by
  intro s hr h1
  have hcap := hr.sp_le
  have hsp := State.popped_sp_toNat h1
  have hcap' : (s.popped 1).sp.toNat ≤ (s.popped 1).stackCap.toNat := by rw [hsp, State.popped_stackCap]; omega
  generalize hn : toU s.params.bitw (s.slot (s.sp.toNat - 1)) = n
  have hexec : exec .dec s = ((popMany n).run (s.popped 1)).outcome := by
    rw [exec_eq_scriptOf, scriptOf, scriptDec, Script.exec, run_fetch_pop hr h1, hn]
  refine ⟨fun hfew => ?popped, fun hmany => ?emptied⟩
  case popped => rw [hexec, popMany_ok n _ (by omega) hcap', Res.ok_outcome, hsp]; rfl
  case emptied =>
    rw [hexec, popMany_empty hcap' (by omega), Res.raised_outcome,
      State.requestFault_running _ _ (show ((s.popped 1).setSp 0).ic = 0 from hr.running)]
    rfl

/-! ### The bitwise instructions -/

/-- The template of R112 to R116: `ToU` of both words, the function, and `U2W` of its result. -/
theorem bitop_pushes {s : State} (hr : s.Ready 1) (h2 : 2 ≤ s.sp.toNat) {i : Instr} {f : Nat → Nat → Nat}
    (hi : scriptOf s.params i = bitop s.params.bitw f) :
    ∃ t, exec i s = .next t ∧ Leaves s t (s.pc.toNat + 1) (s.sp.toNat - 1) 0 ∧
      t.written (s.sp.toNat - 2) = some (u2w (f (toU s.params.bitw (s.slot (s.sp.toNat - 2)))
        (toU s.params.bitw (s.slot (s.sp.toNat - 1))))) ∧
      KeepsSlots s t (· = s.sp.toNat - 2) := by
  obtain ⟨t, hrun, ht⟩ := binop_ready
    (fun a b => u2w (f (toU s.params.bitw a) (toU s.params.bitw b))) s hr h2
  exact ⟨t, by rw [exec_eq_scriptOf, hi, bitop, Script.exec, hrun, Res.ok_outcome], ht⟩

/-- Settles O40: each of the five instructions is the template with its function. -/
theorem bitwisePushesItsResult : Obligations.BitwisePushesItsResult := by
  intro s a b hr h2 ha hb p hp
  subst ha hb
  fin_cases hp
  · exact bitop_pushes hr h2 (i := .and) rfl
  · exact bitop_pushes hr h2 (i := .bor) rfl
  · exact bitop_pushes hr h2 (i := .xor) rfl
  · exact bitop_pushes hr h2 (i := .lsh) rfl
  · exact bitop_pushes hr h2 (i := .rsh) rfl

/-- Settles O41. -/
theorem notPushesTheComplement : Obligations.NotPushesTheComplement := by
  intro s hr h1
  have hcap := hr.sp_le
  obtain ⟨t, hpush, hleaves, hrest⟩ := push_after (leaves_popped hr h1) (fun _ => rfl) (by omega)
    (u2w (complement s.params.bitw (toU s.params.bitw (s.slot (s.sp.toNat - 1)))))
  rw [Nat.sub_add_cancel h1] at hleaves
  refine ⟨t, ?_, hleaves, hrest⟩
  rw [exec_eq_scriptOf, scriptOf, scriptNot, Script.exec, run_fetch_pop hr h1, Script.run_lastly, Res.andThen_ok, hpush,
    Res.ok_outcome]

end Sys2Proof.Machine
end

section
/-! PROOFS. ARR that does not come to its end: the stack is full at a group, or the program ends inside one (R86, R125,
R126, R133). -/

namespace Sys2Proof.Machine

section
variable {s : State} {w : Byte} {groups : List (List Byte)} {k : Nat}

/-- Where the program ends inside the control bytes, no group has been reached (R125). -/
theorem exec_arr_control_cut (hic : s.ic = 0) (hpc : s.pc.toNat ≤ s.progLen.toNat)
    (hcut : s.progLen.toNat < s.pc.toNat + 3) :
    exec (.arr w groups) s = .next ((s.setPc s.progLen).setIc endOfProgram) := by
  rw [exec_eq_scriptOf, scriptOf, Script.exec, scriptArr, fetches_end hpc hcut, Res.raised_outcome,
    requestFault_setPc hic]

/-- Where the first `k` groups are in the program and fit on the stack, ARR comes to its loop at group `k` with their
words pushed (R86). -/
theorem exec_arr_at_group (hlen : ∀ g ∈ groups, g.length = w.toNat) (hic : s.ic = 0) (hk : k < groups.length)
    (hp : s.pc.toNat + (3 + k * w.toNat) ≤ s.progLen.toNat) (hcap : s.sp.toNat + k ≤ s.stackCap.toNat) :
    ∃ u, exec (.arr w groups) s =
        ((pushGroups s.params.numConv (groups[k] :: groups.drop (k + 1))).run u).outcome ∧
      Leaves s u (s.pc.toNat + (3 + k * w.toNat)) (s.sp.toNat + k) 0 ∧
      (∀ j, j < k → ∀ h : j < groups.length,
        u.written (s.sp.toNat + j) = some (i2w s.params.numConv groups[j])) ∧
      KeepsSlots s u (fun i => s.sp.toNat ≤ i ∧ i < s.sp.toNat + k) := by
  rw [← Nat.add_assoc] at hp ⊢
  obtain ⟨u, hrun, hleaves, hstored⟩ := run_scriptArr_drop hlen hk.le hp hcap
  rw [hic] at hleaves
  rw [List.drop_eq_getElem_cons hk] at hrun
  exact ⟨u, by rw [exec_eq_scriptOf, scriptOf, Script.exec, hrun], hleaves, hstored⟩

end

/-- Settles O17: at group `k` the loop still fetches the group, and its Push raises stack overflow. -/
theorem arrOverflowKeepsEarlierElements : Obligations.ArrOverflowKeepsEarlierElements := by
  intro s w groups k hwf hr hk hfull
  obtain ⟨-, hlen⟩ := wf_arr.mp hwf
  obtain ⟨hic, hp, -⟩ := hr
  have hg : groups[k].length = w.toNat := hlen _ (List.getElem_mem hk)
  rw [Nat.succ_mul] at hp ⊢
  obtain ⟨u, hexec, ⟨hpc, hsp, huic, hhost⟩, hstored⟩ := exec_arr_at_group hlen hic hk (by omega) hfull.le
  have hfetch : u.pc.toNat + w.toNat ≤ u.progLen.toNat := by rw [hhost.progLen_eq, hpc]; omega
  have husp : u.sp = u.stackCap := BitVec.eq_of_toNat_eq (by rw [hsp, hfull, hhost.stackCap_eq])
  rw [run_pushGroups_full (by rw [hg]; exact hfetch) husp, hg, Res.raised_outcome, requestFault_setPc huic] at hexec
  rw [hfull] at hsp hstored
  exact ⟨_, hexec, ⟨(pc_add_toNat hfetch).trans (by omega), hsp, rfl, hhost⟩, hstored⟩

/-- Settles O18: at group `k` a Fetch of the loop comes to the end of the program. -/
theorem arrCutShortKeepsEarlierElements : Obligations.ArrCutShortKeepsEarlierElements := by
  intro s w groups hwf hic hpc
  obtain ⟨-, hlen⟩ := wf_arr.mp hwf
  refine ⟨fun hcut => ?control, fun k hk hcap hp hcut => ?group⟩
  case control => exact exec_arr_control_cut hic hpc hcut
  case group =>
    have hg : groups[k].length = w.toNat := hlen _ (List.getElem_mem hk)
    rw [Nat.succ_mul] at hcut
    obtain ⟨u, hexec, ⟨hupc, hsp, huic, hhost⟩, hstored⟩ := exec_arr_at_group hlen hic hk hp hcap
    have hulen := hhost.progLen_eq
    rw [run_pushGroups_cut (by rw [hulen, hupc]; exact hp) (by rw [hulen, hupc, hg]; omega), Res.raised_outcome,
      requestFault_setPc huic, hulen] at hexec
    exact ⟨_, hexec, ⟨rfl, hsp, rfl, hhost⟩, hstored⟩

end Sys2Proof.Machine
end

section
/-! PROOFS. DUP and ROT (R91, R93, R126, R127, R133). -/

namespace Sys2Proof.Machine

section
variable {s : State}

/-- The opcode Fetch, and then the rest. -/
theorem run_fetch (hr : s.Ready 1) (k : Byte → State → Script) :
    (Script.op fetch k).run s = (k (s.progByte s.pc.toNat) (s.setPc (s.pc + 1))).run (s.setPc (s.pc + 1)) := by
  have hpc : s.pc.toNat < s.progLen.toNat := hr.2.1
  rw [Script.run_op, fetch_ok hpc, Res.ok_andThen]

/-- A slot below SP can be read within the bound of R33. -/
theorem readAt_live {i : Nat} (hi : i < s.sp.toNat) (hcap : s.sp.toNat ≤ s.stackCap.toNat) :
    readAt i s = .ok (s.slot i) s :=
  readAt_ok hi (hi.trans_le hcap)

/-- A slot below SP can be written within the bound of R33. -/
theorem writeAt_live {i : Nat} (hi : i < s.sp.toNat) (hcap : s.sp.toNat ≤ s.stackCap.toNat) (v : Word) :
    writeAt i v s = .ok () (s.setSlot i v) :=
  writeAt_ok hi (hi.trans_le hcap)

/-! ### DUP -/

/-- On an empty stack DUP is over after its Fetch (R91). -/
theorem exec_dup_empty (hr : s.Ready 1) (h0 : s.sp.toNat = 0) : exec .dup s = .next (s.setPc (s.pc + 1)) := by
  have hsp : s.sp = 0 := BitVec.eq_of_toNat_eq h0
  rw [exec_eq_scriptOf, scriptOf, scriptDup, Script.exec, run_fetch hr, State.setPc_sp, if_pos hsp, Script.run_done,
    Res.ok_outcome]

/-- On a stack that is not empty DUP is a Push of the top word (R91). -/
theorem exec_dup_push (hr : s.Ready 1) (h1 : 1 ≤ s.sp.toNat) :
    exec .dup s = (push (s.slot (s.sp.toNat - 1)) (s.setPc (s.pc + 1))).outcome := by
  have hsp : s.sp ≠ 0 := fun h => by rw [h] at h1; exact absurd h1 (by decide)
  have htop : s.sp.toNat - 1 < s.sp.toNat := by omega
  rw [exec_eq_scriptOf, scriptOf, scriptDup, Script.exec, run_fetch hr, State.setPc_sp, if_neg hsp, Script.run_op,
    readAt_live (s := s.setPc (s.pc + 1)) htop hr.sp_le, Res.ok_andThen, Script.run_lastly, Res.andThen_ok,
    State.setPc_slot]

end

/-- Settles O26: after the Fetch, DUP is nothing or one Push, which has room or not. -/
theorem dupCopiesTheTop : Obligations.DupCopiesTheTop := by
  intro s hr
  refine ⟨fun h0 => ?empty, fun h1 hroom => ?copied, fun h1 hfull => ?full⟩
  case empty => exact exec_dup_empty hr h0
  case copied =>
    obtain ⟨t, hpush, hpushed⟩ := push_after (leaves_fetched hr) (fun _ => rfl) hroom (s.slot (s.sp.toNat - 1))
    exact ⟨t, (exec_dup_push hr h1).trans (congrArg Res.outcome hpush), hpushed⟩
  case full =>
    rw [exec_dup_push hr h1, push_full (s := s.setPc (s.pc + 1)) hfull, Res.raised_outcome,
      requestFault_setPc hr.running]
    rfl

/-! ### ROT -/

section
variable {s : State}

/-- On fewer than two words ROT is over after its Fetch (R93). -/
theorem exec_rot_few (hr : s.Ready 1) (hfew : s.sp.toNat < 2) : exec .rot s = .next (s.setPc (s.pc + 1)) := by
  rw [exec_eq_scriptOf, scriptOf, scriptRot, Script.exec, run_fetch hr, State.setPc_sp, if_pos hfew, Script.run_done,
    Res.ok_outcome]

/-- On two words ROT reads both before it stores either (R93). -/
theorem exec_rot_two (hr : s.Ready 1) (h2 : 2 ≤ s.sp.toNat) :
    exec .rot s = .next (((s.setPc (s.pc + 1)).setSlot (s.sp.toNat - 1) (s.slot (s.sp.toNat - 2))).setSlot
      (s.sp.toNat - 2) (s.slot (s.sp.toNat - 1))) := by
  have hcap := hr.sp_le
  have hupper : s.sp.toNat - 1 < s.sp.toNat := by omega
  have hlower : s.sp.toNat - 2 < s.sp.toNat := by omega
  rw [exec_eq_scriptOf, scriptOf, scriptRot, Script.exec, run_fetch hr, State.setPc_sp, if_neg (by omega),
    Script.run_op, readAt_live (s := s.setPc (s.pc + 1)) hupper hcap, Res.ok_andThen,
    Script.run_op, readAt_live (s := s.setPc (s.pc + 1)) hlower hcap, Res.ok_andThen,
    Script.run_op, writeAt_live (s := s.setPc (s.pc + 1)) hupper hcap, Res.ok_andThen,
    Script.run_lastly, writeAt_live (s := (s.setPc (s.pc + 1)).setSlot _ _) hlower hcap, Res.ok_andThen,
    Res.ok_outcome, State.setPc_slot, State.setPc_slot]

end

/-- Settles O28: the second store does not reach the slot of the first. -/
theorem rotSwapsTheTwoTopWords : Obligations.RotSwapsTheTwoTopWords := by
  intro s hr
  refine ⟨fun hfew => ?few, fun h2 => ?swapped⟩
  case few => exact exec_rot_few hr hfew
  case swapped =>
    have hne : s.sp.toNat - 1 ≠ s.sp.toNat - 2 := by omega
    refine ⟨_, exec_rot_two hr h2, leaves_fetched hr, ?upper, ?lower, fun i hi => ?kept⟩
    case upper => rw [State.setSlot_written, if_neg hne, State.setSlot_written, if_pos rfl]
    case lower => rw [State.setSlot_written, if_pos rfl]
    case kept =>
      obtain ⟨hi1, hi2⟩ := not_or.mp hi
      rw [State.setSlot_written, if_neg hi2, State.setSlot_written, if_neg hi1, State.setPc_written]

end Sys2Proof.Machine
end

section
/-! PROOFS. The conditional jumps JEQ, JNE, JLS and JLE (R94, R96 to R99, R124, R133). -/

namespace Sys2Proof.Machine

/-- Each conditional jump is the template of R94 with its comparison (R96 to R99). -/
theorem scriptOf_condJump (params : Params) :
    ∀ p ∈ [(Instr.jeq, condEq), (.jne, condNe), (.jls, condLt), (.jle, condLe)],
      scriptOf params p.1 = condJump params.bitw p.2 := by
  intro p hp
  fin_cases hp <;> rfl

section
variable {s : State} {i : Instr} {cond : Word → Word → Bool}

/-- A jump not taken is over after its pops. -/
theorem exec_condJump_not_taken (hi : scriptOf s.params i = condJump s.params.bitw cond) (hr : s.Ready 1)
    (h3 : 3 ≤ s.sp.toNat) (hcond : cond (s.slot (s.sp.toNat - 3)) (s.slot (s.sp.toNat - 2)) = false) :
    exec i s = .next (s.popped 3) := by
  rw [exec_eq_scriptOf, hi, Script.exec, condJump_ready _ _ s hr h3, if_neg (Bool.eq_false_iff.mp hcond),
    Res.ok_outcome]
  rfl

/-- A jump taken ends with JumpTo of its target. -/
theorem exec_condJump_taken (hi : scriptOf s.params i = condJump s.params.bitw cond) (hr : s.Ready 1)
    (h3 : 3 ≤ s.sp.toNat) (hcond : cond (s.slot (s.sp.toNat - 3)) (s.slot (s.sp.toNat - 2)) = true) :
    exec i s = (jumpTo (toU s.params.bitw (s.slot (s.sp.toNat - 1))) (s.popped 3)).outcome := by
  rw [exec_eq_scriptOf, hi, Script.exec, condJump_ready _ _ s hr h3, if_pos hcond]
  rfl

end

/-- Settles O31: only a jump taken comes to JumpTo, which moves PC or raises illegal jump. -/
theorem conditionalJumpsFollowTheirCondition : Obligations.ConditionalJumpsFollowTheirCondition := by
  intro p hp s hr h3
  have hi := scriptOf_condJump s.params p hp
  refine ⟨fun hfalse => ?notTaken, fun htrue hin => ?jumps, fun htrue hout => ?illegal⟩
  case notTaken => exact exec_condJump_not_taken hi hr h3 hfalse
  case jumps => rw [exec_condJump_taken hi hr h3 htrue, jumpTo_ok (s := s.popped 3) hin]; rfl
  case illegal =>
    rw [exec_condJump_taken hi hr h3 htrue, jumpTo_out (s := s.popped 3) hout, requestFault_popped hr]; rfl

end Sys2Proof.Machine
end

section
/-! PROOFS. The arithmetic instructions on the stack, their NaNs and corner cases, and their exactness on integers (R100
to R107). -/

namespace Sys2Proof.Machine

/-! ### The template of R100 -/

/-- Settles O33: each of the five instructions is the template with its function. -/
theorem arithmeticPushesItsResult : Obligations.ArithmeticPushesItsResult := by
  intro p hp s hr h2
  obtain ⟨t, hrun, ht⟩ := binop_ready (onWords p.2 s.params.qnan) s hr h2
  have hscript : scriptOf s.params p.1 = binop (onWords p.2 s.params.qnan) := by
    fin_cases hp <;> rfl
  exact ⟨t, by rw [exec_eq_scriptOf, hscript, Script.exec, hrun, Res.ok_outcome], ht⟩

/-! ### NaN operands (R107) -/

section
variable (a b : Fp)

@[simp] theorem nan_add : Fp.add .nan b = .nan := rfl
@[simp] theorem add_nan : Fp.add a .nan = .nan := by cases a <;> rfl
@[simp] theorem nan_sub : Fp.sub .nan b = .nan := rfl
@[simp] theorem sub_nan : Fp.sub a .nan = .nan := add_nan a
@[simp] theorem nan_mul : Fp.mul .nan b = .nan := rfl
@[simp] theorem mul_nan : Fp.mul a .nan = .nan := by cases a <;> rfl
@[simp] theorem nan_div : Fp.div .nan b = .nan := rfl
@[simp] theorem div_nan : Fp.div a .nan = .nan := by cases a <;> rfl

/-- MOD as its last two steps, the product and the difference (R105). -/
theorem mod_eq_sub_mul : Fp.mod a b = Fp.sub a (Fp.mul (Fp.trunc (Fp.div a b)) b) := rfl

variable {a b}

/-- A NaN in the third step of R105 is the result. -/
theorem mod_of_mul_nan (h : Fp.mul (Fp.trunc (Fp.div a b)) b = .nan) : Fp.mod a b = .nan := by
  rw [mod_eq_sub_mul, h, sub_nan]

/-- A NaN in the first step of R105 is the result. -/
theorem mod_of_div_nan (h : Fp.div a b = .nan) : Fp.mod a b = .nan :=
  mod_of_mul_nan (by rw [h]; exact nan_mul b)

variable (a b)

@[simp] theorem nan_mod : Fp.mod .nan b = .nan := mod_of_div_nan (nan_div b)
@[simp] theorem mod_nan : Fp.mod a .nan = .nan := mod_of_div_nan (div_nan a)

end

/-- Each of the five operations answers NaN for a NaN operand. -/
theorem arith_nan {f : Fp → Fp → Fp} (hf : f ∈ [Fp.add, Fp.sub, Fp.mul, Fp.div, Fp.mod]) (c : Fp) :
    f .nan c = .nan ∧ f c .nan = .nan := by
  fin_cases hf
  · exact ⟨nan_add c, add_nan c⟩
  · exact ⟨nan_sub c, sub_nan c⟩
  · exact ⟨nan_mul c, mul_nan c⟩
  · exact ⟨nan_div c, div_nan c⟩
  · exact ⟨nan_mod c, mod_nan c⟩

/-- Settles O39. -/
theorem naNResultsHaveOnePattern : Obligations.NaNResultsHaveOnePattern := by
  intro f hf q a b
  refine ⟨nanIs_onWords hf q a b, fun h => ?_⟩
  have hval : f (Fp.ofWord a) (Fp.ofWord b) = .nan := by
    simp only [isNaN_iff] at h
    rcases h with ha | hb
    · rw [ha]; exact (arith_nan hf _).1
    · rw [hb]; exact (arith_nan hf _).2
  rw [onWords, hval]; rfl

/-! ### Infinities and zeros (R101 to R104) -/

section
variable (s t : Bool) (u : Nat)

theorem inf_add_inf : Fp.add (.inf s) (.inf t) = if s = t then .inf s else .nan := rfl

theorem inf_sub_inf : Fp.sub (.inf s) (.inf t) = if s = !t then .inf s else .nan := rfl

theorem round_numerator_zero (q : Nat) : Fp.round s 0 q = .fin s 0 := if_pos rfl

theorem zero_add_zero : Fp.add (.fin s 0) (.fin t 0) = .fin (s && t) 0 := by
  cases s <;> cases t <;> rfl

/-- The exact zero of two values that are not both negative is +0.0. -/
theorem add_opposite : Fp.add (.fin s u) (.fin (!s) u) = .fin false 0 := by
  simp only [Fp.add, signed_not, Int.add_right_neg, if_true, Bool.and_not_self]

theorem sub_same : Fp.sub (.fin s u) (.fin s u) = .fin false 0 := add_opposite s u

theorem zero_mul_inf : Fp.mul (.fin s 0) (.inf t) = .nan := rfl

theorem inf_mul_zero : Fp.mul (.inf s) (.fin t 0) = .nan := rfl

theorem mul_zero_fin : Fp.mul (.fin s u) (.fin t 0) = .fin (s != t) 0 := by
  rw [Fp.mul, Nat.mul_zero, round_numerator_zero]

theorem zero_mul_fin : Fp.mul (.fin s 0) (.fin t u) = .fin (s != t) 0 := by
  rw [Fp.mul, Nat.zero_mul, round_numerator_zero]

theorem zero_div_zero : Fp.div (.fin s 0) (.fin t 0) = .nan := rfl

theorem inf_div_fin : Fp.div (.inf s) (.fin t u) = .inf (s != t) := rfl

theorem fin_div_inf : Fp.div (.fin s u) (.inf t) = .fin (s != t) 0 := rfl

variable {u}

theorem inf_mul_fin (hu : u ≠ 0) : Fp.mul (.inf s) (.fin t u) = .inf (s != t) := if_neg hu

theorem fin_mul_inf (hu : u ≠ 0) : Fp.mul (.fin s u) (.inf t) = .inf (s != t) := if_neg hu

theorem fin_div_zero (hu : u ≠ 0) : Fp.div (.fin s u) (.fin t 0) = .inf (s != t) := if_neg hu

theorem zero_div_fin (hu : u ≠ 0) : Fp.div (.fin s 0) (.fin t u) = .fin (s != t) 0 := by
  rw [div_fin s t 0 hu, round_numerator_zero]

end

theorem trunc_fin_zero (s : Bool) : Fp.trunc (.fin s 0) = .fin s 0 := by
  rw [trunc_fin, Nat.zero_div, Nat.zero_mul]

/-! ### MOD of an infinity or a zero, and by one (R105) -/

section
variable (s t : Bool)

/-- An infinite quotient times a zero is NaN. -/
theorem mod_by_zero (a : Fp) : Fp.mod a (.fin t 0) = .nan := by
  cases a with
  | nan => exact nan_mod _
  | inf s => exact mod_of_mul_nan rfl
  | fin s u =>
    by_cases hu : u = 0
    · rw [hu]; exact mod_of_div_nan (zero_div_zero s t)
    · refine mod_of_mul_nan ?_
      rw [fin_div_zero s t hu]; rfl

/-- The product has the infinity back, and the difference of the two is NaN. -/
theorem inf_mod (b : Fp) : Fp.mod (.inf s) b = .nan := by
  cases b with
  | nan => exact mod_nan _
  | inf t => exact mod_of_div_nan rfl
  | fin t v =>
    by_cases hv : v = 0
    · rw [hv]; exact mod_by_zero t _
    · rw [mod_eq_sub_mul, inf_div_fin, Fp.trunc, inf_mul_fin _ _ hv, Bool.bne_self_right, inf_sub_inf,
        if_neg (by simp)]

/-- A zero quotient times an infinity is NaN. -/
theorem fin_mod_inf (u : Nat) : Fp.mod (.fin s u) (.inf t) = .nan := by
  refine mod_of_mul_nan ?_
  rw [fin_div_inf, trunc_fin_zero, zero_mul_inf]

theorem zero_mod_fin {u : Nat} (hu : u ≠ 0) : Fp.mod (.fin s 0) (.fin t u) = .fin false 0 := by
  rw [mod_eq_sub_mul, zero_div_fin s t hu, trunc_fin_zero, zero_mul_fin, Bool.bne_self_right, sub_same]

end

/-- Settles O36: a clause per line. -/
theorem arithmeticCornerCases : Obligations.ArithmeticCornerCases :=
  ⟨fun s => ⟨by rw [inf_add_inf, if_neg (by simp)], by rw [inf_sub_inf, if_neg (by simp)]⟩,
    fun s => ⟨by rw [inf_add_inf, if_pos rfl], by rw [inf_sub_inf, if_pos (Bool.not_not s).symm]⟩,
    fun _ _ _ => ⟨rfl, rfl, rfl, rfl⟩,
    fun s t => ⟨zero_add_zero s t, zero_add_zero s (!t)⟩,
    fun s u => ⟨add_opposite s u, sub_same s u⟩,
    fun s t => ⟨zero_mul_inf s t, inf_mul_zero s t⟩,
    fun _ _ => rfl,
    fun s t _ hu => ⟨inf_mul_fin s t hu, (fin_mul_inf t s hu).trans (by rw [bne_comm])⟩,
    fun s t u => ⟨mul_zero_fin s t u, zero_mul_fin s t u⟩,
    inf_div_fin,
    fun s t _ hu => zero_div_fin s t hu,
    fun s t _ hu => fin_div_zero s t hu,
    fun s t => ⟨zero_div_zero s t, rfl⟩,
    fin_div_inf,
    fun a t => mod_by_zero t a,
    inf_mod,
    fin_mod_inf,
    fun s t _ hu => zero_mod_fin s t hu⟩

/-! ### Integers (R106) -/

/-- The value of an integer, as its word holds it. -/
def Fp.ofInt (x : Int) : Fp := .fin (decide (x < 0)) (x.natAbs * unitsPerOne)

section
variable {x y : Int}

theorem ofWord_intWord_eq (h : x.natAbs ≤ 2 ^ 53) : Fp.ofWord (intWord x) = Fp.ofInt x := ofWord_intWord h

/-- An operation on the words of integers whose value is the value of an integer. -/
theorem onWords_intWord {f : Fp → Fp → Fp} (q : Word) (hx : x.natAbs ≤ 2 ^ 53) (hy : y.natAbs ≤ 2 ^ 53) {z : Int}
    (h : f (Fp.ofInt x) (Fp.ofInt y) = Fp.ofInt z) : onWords f q (intWord x) (intWord y) = intWord z := by
  rw [onWords, ofWord_intWord_eq hx, ofWord_intWord_eq hy, h]; rfl

theorem add_ofInt (h : (x + y).natAbs ≤ 2 ^ 53) : Fp.add (Fp.ofInt x) (Fp.ofInt y) = Fp.ofInt (x + y) :=
  add_int x y h _ _ _ _ (signed_int x) (signed_int y)
    (by simp only [Bool.and_eq_true, decide_eq_true_iff]; omega)

/-- Changing the sign of +0.0 gives -0.0, which a sum with +0.0 does not show. -/
theorem sub_ofInt (h : (x - y).natAbs ≤ 2 ^ 53) : Fp.sub (Fp.ofInt x) (Fp.ofInt y) = Fp.ofInt (x - y) :=
  add_int x (-y) h _ _ _ _ (signed_int x) (by rw [signed_not, signed_int, Int.neg_mul])
    (by simp only [Bool.and_eq_true, Bool.not_eq_true', decide_eq_true_iff, decide_eq_false_iff_not]; omega)

/-- A product of integer magnitudes within 2^53 is exact. -/
theorem mul_units (s t : Bool) {m n : Nat} (h : m * n ≤ 2 ^ 53) :
    Fp.mul (.fin s (m * unitsPerOne)) (.fin t (n * unitsPerOne)) = .fin (s != t) (m * n * unitsPerOne) :=
  round_exact _ _ _ _ (Nat.mul_pos unitsPerOne_pos unitsPerOne_pos) (representable_int h) (by ring)

theorem mul_ofInt (h : (x * y).natAbs ≤ 2 ^ 53) (h0 : x * y ≠ 0) :
    Fp.mul (Fp.ofInt x) (Fp.ofInt y) = Fp.ofInt (x * y) := by
  obtain ⟨hx0, hy0⟩ := mul_ne_zero_iff.mp h0
  rw [Int.natAbs_mul] at h
  rw [Fp.ofInt, Fp.ofInt, mul_units _ _ h, xor_neg hx0 hy0, ← Int.natAbs_mul, Fp.ofInt]

/-- A quotient of integer magnitudes is the rounding of their fraction. -/
theorem div_units (s t : Bool) (m : Nat) {n : Nat} (hn : n ≠ 0) :
    Fp.div (.fin s (m * unitsPerOne)) (.fin t (n * unitsPerOne)) = Fp.round (s != t) m n := by
  rw [div_fin s t _ (Nat.mul_ne_zero hn unitsPerOne_pos.ne'), round_scale _ _ _ _ unitsPerOne_pos]

/-- The exact quotient z of y * z by y. -/
theorem div_ofInt {z : Int} (hz : z.natAbs ≤ 2 ^ 53) (hy0 : y ≠ 0) (hz0 : z ≠ 0) :
    Fp.div (Fp.ofInt (y * z)) (Fp.ofInt y) = Fp.ofInt z := by
  have hpos : 0 < y.natAbs := Int.natAbs_pos.mpr hy0
  have hsign : (decide (y * z < 0) != decide (y < 0)) = decide (z < 0) := by
    rw [mul_comm, ← xor_neg hz0 hy0, Bool.bne_self_right]
  rw [Fp.ofInt, Fp.ofInt, div_units _ _ _ hpos.ne', hsign]
  exact round_exact _ _ _ _ hpos (representable_int hz) (by rw [Int.natAbs_mul]; ring)

end

/-- Settles O37. -/
theorem integerArithmeticIsExact : Obligations.IntegerArithmeticIsExact := by
  intro q x y hx hy
  refine ⟨fun h => onWords_intWord q hx hy (add_ofInt h), fun h => onWords_intWord q hx hy (sub_ofInt h),
    fun h h0 => onWords_intWord q hx hy (mul_ofInt h h0), fun hdvd hx0 => ?_⟩
  obtain ⟨z, rfl⟩ := hdvd
  obtain ⟨hy0, hz0⟩ := mul_ne_zero_iff.mp hx0
  rw [Int.mul_ediv_cancel_left z hy0]
  have hz : z.natAbs ≤ (y * z).natAbs := by
    rw [Int.natAbs_mul]; exact Nat.le_mul_of_pos_left _ (Int.natAbs_pos.mpr hy0)
  exact onWords_intWord q hx hy (div_ofInt (hz.trans hx) hy0 hz0)

/-! ### The integer remainder (R105) -/

/-- The truncated remainder is that of the magnitudes, with the sign of the left operand. -/
theorem tmod_signed (s t : Bool) (m n : Nat) : (signed s m).tmod (signed t n) = signed s (m % n) := by
  cases s <;> cases t <;> simp [signed_true, signed_false, ← Int.ofNat_tmod]

theorem tmod_eq_signed (x y : Int) : x.tmod y = signed (decide (x < 0)) (x.natAbs % y.natAbs) := by
  rw [← tmod_signed _ (decide (y < 0)), signed_eta, signed_eta]

theorem signed_add (s : Bool) (m n : Nat) : signed s (m + n) = signed s m + signed s n := by
  cases s
  · exact Nat.cast_add m n
  · rw [signed_true, signed_true, signed_true, Nat.cast_add, Int.neg_add]

/-- What R105's last step subtracts, and what it leaves. -/
theorem sub_quotient_product (x y : Int) :
    x + -signed (decide (x < 0)) (x.natAbs / y.natAbs * y.natAbs) = x.tmod y := by
  have hx := signed_eta x
  rw [← Nat.div_add_mod' x.natAbs y.natAbs, signed_add, ← tmod_eq_signed] at hx
  omega

/-- The first three steps of R105 give the multiple of y that truncation leaves, with the sign of x. -/
theorem quotient_product_ofInt {x y : Int} (hx : x.natAbs < 2 ^ 53) (hy : y.natAbs < 2 ^ 53) (hy0 : y ≠ 0) :
    Fp.mul (Fp.trunc (Fp.div (Fp.ofInt x) (Fp.ofInt y))) (Fp.ofInt y) =
      .fin (decide (x < 0)) (x.natAbs / y.natAbs * y.natAbs * unitsPerOne) := by
  have hpos : 0 < y.natAbs := Int.natAbs_pos.mpr hy0
  obtain ⟨u, hround, hquot⟩ := round_int_quotient (decide (x < 0) != decide (y < 0)) x.natAbs y.natAbs hx hy hpos
  have hle : x.natAbs / y.natAbs * y.natAbs ≤ 2 ^ 53 := (Nat.div_mul_le_self _ _).trans hx.le
  rw [Fp.ofInt, Fp.ofInt, div_units _ _ _ hpos.ne', hround, trunc_fin, hquot, mul_units _ _ hle, Bool.bne_self_right]

theorem mod_ofInt {x y : Int} (hx : x.natAbs < 2 ^ 53) (hy : y.natAbs < 2 ^ 53) (hy0 : y ≠ 0) :
    Fp.mod (Fp.ofInt x) (Fp.ofInt y) = Fp.ofInt (x.tmod y) := by
  have hle : (x.tmod y).natAbs ≤ 2 ^ 53 := by
    rw [Int.natAbs_tmod]; exact (Nat.mod_le _ _).trans hx.le
  have hsub := sub_quotient_product x y
  rw [mod_eq_sub_mul, quotient_product_ofInt hx hy hy0, Fp.sub, neg_fin, Fp.ofInt, Fp.ofInt, ← hsub]
  exact add_int x _ (by rwa [hsub]) _ _ _ _ (signed_int x) (by rw [signed_not, ← signed_mul_nat, Int.neg_mul])
    (by rw [Bool.and_not_self]; exact (nomatch ·))

/-- Settles O38. -/
theorem modIsTheIntegerRemainder : Obligations.ModIsTheIntegerRemainder := fun q _ _ hx hy hy0 =>
  onWords_intWord q hx.le hy.le (mod_ofInt hx hy hy0)

end Sys2Proof.Machine
end

section
/-! PROOFS. The complement and the shifts as operations of bit vectors (R111, R115, R116). -/

namespace Sys2Proof.Machine

section
variable (bw : BitWidth) (a b : Nat)

/-- An amount of W or more moves every bit out of the word: the zero R115 writes there is the general product modulo
2^W. -/
theorem shiftLeft_eq_mod : shiftLeft bw a b = a <<< b % 2 ^ bits bw := by
  rw [shiftLeft, Nat.shiftLeft_eq]
  split
  case isTrue hover =>
    have hdvd : 2 ^ bits bw ∣ a * 2 ^ b := Dvd.dvd.mul_left (pow_dvd_pow 2 hover) a
    exact (Nat.mod_eq_zero_of_dvd hdvd).symm
  case isFalse => rfl

/-- The zero R116 writes for an amount of W or more is the general quotient, since the integer is below 2^W. -/
theorem shiftRight_eq_of_lt {a : Nat} (ha : a < 2 ^ bits bw) : shiftRight bw a b = a >>> b := by
  rw [shiftRight, Nat.shiftRight_eq_div_pow]
  split
  case isTrue hover =>
    have hlt : a < 2 ^ b := ha.trans_le (Nat.pow_le_pow_right Nat.two_pos hover)
    exact (Nat.div_eq_of_lt hlt).symm
  case isFalse => rfl

end

/-- Settles O42: the vector of an integer below 2^W keeps its value, so each operation is its formula on integers. -/
theorem complementAndShiftsAreBitVectors : Obligations.ComplementAndShiftsAreBitVectors := by
  intro bw a b ha
  have hval : (BitVec.ofNat (bits bw) a).toNat = a := by rw [BitVec.toNat_ofNat, Nat.mod_eq_of_lt ha]
  refine ⟨?complement, ?left, ?right⟩
  case complement => rw [complement, BitVec.toNat_not, hval]
  case left => rw [shiftLeft_eq_mod, BitVec.toNat_shiftLeft, hval]
  case right => rw [shiftRight_eq_of_lt bw b ha, BitVec.toNat_ushiftRight, hval]

end Sys2Proof.Machine
end

section
/-! PROOFS. The faults: the first one wins, the Fetches come before anything else, and pops that find too few words
(R119, R120, R125, R127, R131, R133). -/

namespace Sys2Proof.Machine

/-! ### The fault request -/

/-- In a Halted state a fault request changes nothing: the first fault wins (R119). -/
theorem State.requestFault_halted {s : State} (code : BitVec 16) (h : s.ic ≠ 0) : s.requestFault code = s := if_neg h

/-- Settles O46. -/
theorem firstFaultWins : Obligations.FirstFaultWins :=
  fun s code => ⟨s.requestFault_running code, State.requestFault_halted code⟩

/-! ### The end of the program inside an instruction -/

theorem mnemonic_eq_arr {i : Instr} (h : i.mnemonic = .arr) : ∃ w groups, i = .arr w groups := by
  cases i with
  | arr w groups => exact ⟨w, groups, rfl⟩
  | _ => cases h

/-- Settles O9: the script of every instruction but ARR starts with as many Fetches as the instruction has bytes. -/
theorem fetchesComeFirst : Obligations.FetchesComeFirst := by
  intro s i hne hic hpc hcut
  have harr : i.mnemonic ≠ .arr := by
    intro h
    obtain ⟨w, groups, hi⟩ := mnemonic_eq_arr h
    exact hne w groups hi
  rw [exec_of_cut harr hic hpc hcut]; rfl

/-! ### Pops that find too few words -/

/-- The first `n` operations, whatever they answer, are Pops. -/
inductive Script.PopsFirst : Nat → Script → Prop where
  | zero (c : Script) : Script.PopsFirst 0 c
  | succ {n : Nat} {k : Word → State → Script} (hk : ∀ v s, Script.PopsFirst n (k v s)) :
      Script.PopsFirst (n + 1) (.op pop k)

/-- With fewer than `n` words, those Pops take every word and the next one raises stack underflow (R127). -/
theorem Script.PopsFirst.run_short {n : Nat} {c : Script} (h : c.PopsFirst n) {s : State}
    (hcap : s.sp.toNat ≤ s.stackCap.toNat) (hfew : s.sp.toNat < n) :
    c.run s = .raised ((s.setSp 0).requestFault stackUnderflow) := by
  induction h generalizing s with
  | zero c => omega
  | @succ n k _ ih =>
    rw [Script.run_op]
    rcases pop_cases s with ⟨hpos, -, hpop⟩ | ⟨hempty, hpop⟩ | ⟨hbeyond, -⟩
    · have hsp : (s.sp - 1).toNat = s.sp.toNat - 1 := sp_pred_toNat hpos
      rw [hpop, Res.ok_andThen, ih _ _ (by rw [State.setSp_sp, State.setSp_stackCap]; omega)
        (by rw [State.setSp_sp]; omega)]
      rfl
    · have hsp : s.sp = 0 := BitVec.eq_of_toNat_eq hempty
      rw [hpop, Res.raised_andThen, ← hsp]; rfl
    · omega

/-- How many Pops an instruction performs right after its opcode Fetch, before any other operation. -/
def popsFirst (i : Instr) : Nat :=
  match i with
  | .get | .inc | .dec | .pop | .jmp | .not => 1
  | .set | .add | .sub | .mul | .div | .mod | .and | .bor | .xor | .lsh | .rsh => 2
  | .jeq | .jne | .jls | .jle => 3
  | .nop | .int _ | .num _ | .arr _ _ | .dup | .rot | .reg _ => 0

/-- The opcode Fetch, and then a script whose first `n` operations are Pops. -/
def Script.FetchThenPops (n : Nat) (c : Script) : Prop := ∃ k : Script, c = fetches 1 k ∧ k.PopsFirst n

theorem binop_fetchThenPops (f : Word → Word → Word) : (binop f).FetchThenPops 2 :=
  ⟨_, rfl, .succ fun _ _ => .succ fun _ _ => .zero _⟩

theorem condJump_fetchThenPops (bw : BitWidth) (cond : Word → Word → Bool) : (condJump bw cond).FetchThenPops 3 :=
  ⟨_, rfl, .succ fun _ _ => .succ fun _ _ => .succ fun _ _ => .zero _⟩

/-- The pseudocode pops as many words first as `popsFirst` says. -/
theorem scriptOf_fetchThenPops (p : Params) (i : Instr) (h : 0 < popsFirst i) :
    (scriptOf p i).FetchThenPops (popsFirst i) := by
  cases i with
  | get | inc | dec | pop | jmp | not => exact ⟨_, rfl, .succ fun _ _ => .zero _⟩
  | set => exact ⟨_, rfl, .succ fun _ _ => .succ fun _ _ => .zero _⟩
  | add | sub | mul | div | mod | and | bor | xor | lsh | rsh => exact binop_fetchThenPops _
  | jeq | jne | jls | jle => exact condJump_fetchThenPops _ _
  | nop | int | num | arr | dup | rot | reg => exact absurd h (Nat.lt_irrefl 0)

/-- An instruction that finds fewer words than it pops leaves the stack empty, with stack underflow as its fault. -/
theorem exec_of_few_words {s : State} {i : Instr} (hr : s.Ready 1) (hfew : s.sp.toNat < popsFirst i) :
    exec i s = .next (((s.setPc (s.pc + 1)).setSp 0).setIc stackUnderflow) := by
  obtain ⟨k, hscript, hpops⟩ := scriptOf_fetchThenPops s.params i (Nat.zero_lt_of_lt hfew)
  have ⟨hic, hpc, _⟩ := hr
  have hrun : (fetches 1 k).run s = .raised (((s.setPc (s.pc + 1)).setSp 0).requestFault stackUnderflow) :=
    (fetches_ok hpc k).trans (hpops.run_short hr.sp_le hfew)
  rw [exec_eq_scriptOf, hscript, Script.exec, hrun, Res.raised_outcome,
    ((s.setPc (s.pc + 1)).setSp 0).requestFault_running _ hic]

/-- Settles O21: the words that the statement counts are the ones that the pseudocode pops first. -/
theorem poppingTooManyUnderflows : Obligations.PoppingTooManyUnderflows := by
  intro p hp
  have hcount : popsFirst p.1 = p.2 := by fin_cases hp <;> rfl
  intro s hr hfew
  exact exec_of_few_words hr (hcount ▸ hfew)

end Sys2Proof.Machine
end

section
/-! PROOFS. Reset, at a step boundary and inside a step, and the load of a program in reset (R141 to R146). -/

namespace Sys2Proof.Machine

/-! ### Reset -/

/-- The opcode Fetch and the decoding store nothing, also where they fault. -/
theorem nextInstr_keeps_stk : KeepsStk nextInstr := by
  intro s
  refine (fetch_keeps_stk s).andThen fun _ t ht _ => ?_
  cases decodeFrom s.params.opcodeMap s.lookahead with
  | ok i => exact ⟨rfl, trivial⟩
  | error e => exact (t.requestFault_stk illegalInstruction).trans ht

/-- A step abandoned after any number of its primitives has written nothing that belongs to the host. -/
theorem abandon_keepsHostSide (s : State) (ops : Nat) : KeepsHostSide s (s.abandon ops) :=
  (primitivesKeep_hostSide s).abandon s ops (keepsHostSide_refl s)

/-- Where no step is in progress there is nothing to abandon. -/
theorem abandon_of_not_busy {s : State} (h : s.busy = false) (ops : Nat) : s.abandon ops = s := by
  rw [State.abandon, h]; rfl

/-- A step abandoned before its first primitive has stored nothing. -/
theorem abandon_zero_stk (s : State) : (s.abandon 0).stk = s.stk := by
  have hn := nextInstr_keeps_stk s
  unfold State.abandon
  split
  · split
    · next i t he => rw [he] at hn; exact hn.1
    · next t he => rw [he] at hn; exact hn
    · rfl
  · rfl

/-- Settles O47: the primitives before the reset write the registers and the stack only, and reset clears the
registers. -/
theorem resetClearsTheRegistersOnly : Obligations.ResetClearsTheRegistersOnly := by
  intro s ops
  obtain ⟨-, hprog, hlen, hcap, hparams, -⟩ := abandon_keepsHostSide s ops
  refine ⟨(s.abandon ops).applyReset, rfl, rfl, rfl, rfl, rfl, rfl, rfl, hprog, hlen, hcap, hparams, ?stk⟩
  case stk =>
    rintro (hidle | rfl)
    · rw [abandon_of_not_busy hidle, State.applyReset_stk]
    · exact abandon_zero_stk s

/-! ### The load of a program -/

section
variable {s : State} {program : List Byte} {cap : BitVec 32}

/-- A program byte is what its address reads as, listed or not (assumption 5). -/
theorem some_progByte (s : State) (a : Nat) : some (s.progByte a) = (s.prog.read a).or progUnlisted := by
  rw [State.progByte, progUnlisted]
  cases s.prog.read a <;> rfl

/-- The program stands from address 0 on (R144). -/
theorem load_progByte (s : State) (cap : BitVec 32) {k : Nat} (h : k < program.length) :
    (s.load program cap).progByte k = program[k] := by
  have hread : some ((s.load program cap).progByte k) = program[k]? := by
    rw [some_progByte, State.load, Memory.read_writeList, if_pos (by omega), Nat.sub_zero]
  rw [List.getElem?_eq_getElem h] at hread
  exact Option.some.inj hread

theorem load_progLen (h : program.length < 2 ^ 32) : (s.load program cap).progLen.toNat = program.length := by
  rw [State.load, BitVec.toNat_ofNat, Nat.mod_eq_of_lt h]

/-- A slot of the new stack buffer keeps its word (R27, R143). -/
theorem load_written {i : Nat} (h : i < cap.toNat) : (s.load program cap).written i = s.written i :=
  Memory.read_filter s.stk (fun a => decide (a < cap.toNat)) i (decide_eq_true h)

end

/-- Settles O48: the load resets, writes the program over an empty buffer and keeps the slots of the new stack. -/
theorem loadPlacesTheProgram : Obligations.LoadPlacesTheProgram := by
  intro s program cap hlen
  exact ⟨s.load program cap, if_pos hlen, rfl, rfl, rfl, load_progLen hlen, rfl, rfl,
    fun _ hk => load_progByte s cap hk, fun _ hi => load_written hi⟩

end Sys2Proof.Machine
end
